-- ==== Sys2Proof/Word.lean ====
section
/-!
DEFINITION. The word types of the block (00_scope.md R10, R11, R14): every value is an unsigned bit vector of the width its
table gives.
-/

namespace Sys2Proof

/-- A host register word, and the data field of a channel (REG_DATA_WIDTH, CH_DATA_WIDTH, R11). -/
abbrev Word := BitVec 32

/-- A raw input or output byte (BYTE_WIDTH, R10). -/
abbrev Byte := BitVec 8

/-- A host byte address (REG_ADDR_WIDTH, R11). -/
abbrev RegAddr := BitVec 16

/-- The 9-bit symbol field (SYMBOL_WIDTH, R10). A Symbol is one of its values 0 to 256 (R20). -/
abbrev Symbol := BitVec 9

/-- An index into the NODE table (NODE_INDEX_WIDTH, R11). -/
abbrev NodeIndex := BitVec 10

/-- The `width` field of a channel transaction (CH_WIDTH_FIELD, R11): 1 to 32 for a READ or a WRITE, 0 for RESET and CLOSE
(20_memory.md R80). -/
abbrev ChWidth := BitVec 6

/-- A node weight (WEIGHT_WIDTH, R11). -/
abbrev Weight := BitVec 40

end Sys2Proof
end

