-- ==== Sys2Proof/Config.lean ====
section
/-!
DEFINITION. What is fixed for the machine: the parameters of 00_scope.md R10 and R11, and the values the spec leaves open
(R13, 10_state.md R58 and R59), each an opaque constant that no proof can look into.
-/

namespace Sys2Proof

/-- MAGIC (R10). -/
def Config.magic : Word := 0xFACE8201#32

/-- PEOF, the pseudo-end-of-stream symbol 256 (R10). -/
def Config.peof : Symbol := 256#9

/-- PEOF_WEIGHT (R10). -/
def Config.peofWeight : Weight := 1#40

/-- NUM_BYTES: FREQ has one counter per byte value (R10). -/
def Config.numBytes : Nat := 256

/-- NUM_SYMBOLS: CODE has one entry per symbol (R10). -/
def Config.numSymbols : Nat := 257

/-- NODE_CAP: NODE has the slots 0 to 512 (R11). -/
def Config.nodeCap : Nat := 513

/-- MAX_CODE_LEN, the width of CODE[s].BITS (R11). -/
def Config.maxCodeLen : Nat := 256

/-- COUNT_WIDTH (R11). -/
def Config.countWidth : Nat := 32

/-- CH_WIDTH_FIELD, the width of the `width` field of a channel transaction (R11). -/
def Config.chWidthField : Nat := 6

/-- The largest width of a READ or a WRITE; the legal widths are 1 to 32 (R11). -/
def Config.chMaxWidth : Nat := 32

/-- COUNT_MAX, where a frequency counter saturates (R11). -/
def Config.countMax : Word := 0xFFFFFFFF#32

/-! ### Free values

Draw number `k` of an UNSPECIFIED value: nothing constrains it (R59; 93_implementation_defined.md I3 to I5). -/

/-- FREQ[i] before a command writes it, for draw `k` (R59, I3; log 2). -/
opaque Config.freqDraw (k i : Nat) : Word

/-- CODE[i].PRESENT before a command writes it, for draw `k` (R59, I3; log 2). -/
opaque Config.presentDraw (k i : Nat) : Bool

/-- CODE[i].LEN before a command writes it, for draw `k` (R59, I3; log 2). -/
opaque Config.lenDraw (k i : Nat) : BitVec 9

/-- CODE[i].BITS before a command writes it, for draw `k` (R59, I3; log 2). -/
opaque Config.bitsDraw (k i : Nat) : BitVec 256

/-- NODE[i].IS_LEAF where the slot is UNSPECIFIED, for draw `k` (R53, R59, I3, I4; log 2). -/
opaque Config.isLeafDraw (k i : Nat) : Bool

/-- NODE[i].SYMBOL where the slot is UNSPECIFIED, for draw `k` (R53, R59, I3, I4; log 2). -/
opaque Config.symbolDraw (k i : Nat) : Symbol

/-- NODE[i].WEIGHT where the slot is UNSPECIFIED, for draw `k` (R53, R59, I3, I4; log 2). -/
opaque Config.weightDraw (k i : Nat) : Weight

/-- NODE[i].LEFT where the slot is UNSPECIFIED, for draw `k` (R53, R59, I3, I4; log 2). -/
opaque Config.leftDraw (k i : Nat) : NodeIndex

/-- NODE[i].RIGHT where the slot is UNSPECIFIED, for draw `k` (R53, R59, I3, I4; log 2). -/
opaque Config.rightDraw (k i : Nat) : NodeIndex

/-- What a host read of a counter, tree register or table word returns while BUSY, for draw `k` (R58, I5; log 6). -/
opaque Config.busyWord (k : Nat) : Word

/-- Which phase of the running command a STATUS read shows while BUSY, for draw `k` (R58, I5; log 6). -/
opaque Config.busyPhase (k : Nat) : Nat

/-- BIT_PACKING, how the external channel packs the bit view into bytes (R13, 20_memory.md R90; log 7). -/
opaque Config.bitPacking (bits : List Bool) : List Byte

end Sys2Proof
end

