-- ==== Sys2Proof/Machine/State.lean ====
section
/-!
DEFINITION. The state of the machine as plain data: the block's registers (10_state.md R32 to R50), its tables (R51 to R53), the
engine's hidden state (R56), and what the model keeps of the agents around the block (00_scope.md R18, R19).
-/

namespace Sys2Proof.Machine

/-! ### Status -/

/-- STATUS.STATE (R32). -/
inductive RunState where
  /-- no command has run since reset or the last CLEAR -/
  | idle
  /-- a COMPRESS or DECOMPRESS is running -/
  | busy
  /-- the last command finished and its OUT channel has been closed -/
  | done
  /-- the last command stopped at an error -/
  | error
  deriving DecidableEq, Repr

/-- STATUS.MODE (R37). -/
inductive Mode where
  /-- 0: the running or last command is COMPRESS -/
  | compress
  /-- 1: the running or last command is DECOMPRESS -/
  | decompress
  deriving DecidableEq, Repr

/-- STATUS.PHASE (R33). The reserved values 13 to 15 are never taken (I6). -/
inductive Phase where
  | none | count | rewind | build | codegen | magicOut | headerOut | encode | terminate | close
  | magicIn | headerIn | decode
  deriving DecidableEq, Repr

/-- The errors of a running command, STATUS.ERR_CODE 1 to 7 (R39; 60_exceptions.md R241). The reserved values 8 to 15 are never
produced (I6). -/
inductive HuffError where
  | badMagic | truncatedTree | missingTerminator | badSymbol | treeTooLarge | degenerateTree | noCode
  deriving DecidableEq, Repr

/-- The status, control, counter and tree registers (R34). CMD holds no state (R35); MAGIC and CONFIG are constants
(R42, R43). -/
structure Regs where
  /-- STATUS.STATE -/
  state : RunState
  /-- STATUS.MODE -/
  mode : Mode
  /-- STATUS.CMD_ERR (R38) -/
  cmdErr : Bool
  /-- STATUS.PHASE -/
  phase : Phase
  /-- STATUS.ERR_CODE, none for the value 0 (R39) -/
  errCode : Option HuffError
  /-- IRQ_EN.EN (R41) -/
  irqEn : Bool
  /-- SYM_COUNT (R44) -/
  symCount : Word
  /-- ENC_COUNT (R45) -/
  encCount : Word
  /-- BIT_COUNT (R46) -/
  bitCount : Word
  /-- LEAF_COUNT (R47) -/
  leafCount : BitVec 10
  /-- NODE_COUNT (R48) -/
  nodeCount : BitVec 10
  /-- ROOT (R49) -/
  root : NodeIndex
  /-- TREE_DEPTH (R50) -/
  treeDepth : BitVec 9
  deriving DecidableEq, Repr

/-! ### Tables -/

/-- One entry of CODE: BITS holds code bit `j` at position `j` (R52). -/
structure CodeEntry where
  present : Bool
  len : BitVec 9
  bits : BitVec 256
  deriving DecidableEq, Repr

/-- One entry of NODE (R53). -/
structure Node where
  isLeaf : Bool
  symbol : Symbol
  weight : Weight
  left : NodeIndex
  right : NodeIndex
  deriving DecidableEq, Repr

/-- What the entries of a table that are not listed read as. -/
inductive Fill where
  /-- UNSPECIFIED since a reset: the free values of draw `k` (R59) -/
  | drawn (k : Nat)
  /-- cleared by a command (40_freq_counter.md R131, 42_code_table_gen.md R157) -/
  | cleared
  deriving DecidableEq, Repr

/-- FREQ, CODE and NODE: the entries written since the last clearing or reset, in rising index order. -/
structure Tables where
  /-- FREQ[0..255] (R51) -/
  freq : List (Nat × Word)
  /-- what an unlisted FREQ entry reads as -/
  freqFill : Fill
  /-- CODE[0..256] (R52) -/
  code : List (Nat × CodeEntry)
  /-- what an unlisted CODE entry reads as -/
  codeFill : Fill
  /-- NODE[0..512] (R53) -/
  node : List (Nat × Node)
  deriving DecidableEq, Repr

/-! ### Hidden engine state -/

/-- An outstanding IN request, by the step of the pseudocode that issued it (R57; 20_memory.md R81, R82). -/
inductive InWait where
  /-- READ(8) of pass 1 (40_freq_counter.md R131) -/
  | countByte
  /-- RESET between the passes (44_encoder.md R188) -/
  | rewind
  /-- READ(8) of pass 2 (44_encoder.md R191) -/
  | encodeByte
  /-- READ(32) of the magic (45_decoder.md R207) -/
  | magicIn
  /-- READ(1) of a header node's type (43_tree_serializer.md R174) -/
  | typeBit
  /-- READ(9) of a header leaf's symbol (43_tree_serializer.md R174) -/
  | symbolField
  /-- READ(1) of a walk step (45_decoder.md R211) -/
  | walkBit
  deriving DecidableEq, Repr

/-- An outstanding OUT transaction, by the step of the pseudocode that issued it (R57; 20_memory.md R85, R86). -/
inductive OutWait where
  /-- WRITE(32) of the magic (44_encoder.md R189) -/
  | magicOut
  /-- WRITE(1) of the type of the node on top of STACK (43_tree_serializer.md R166) -/
  | nodeBit
  /-- WRITE(9) of the symbol of the leaf on top of STACK (43_tree_serializer.md R166) -/
  | nodeSymbol
  /-- WRITE(1) of bit ENC_POS of the code of ENC_SYM (44_encoder.md R194) -/
  | codeBit
  /-- WRITE(8) of the byte at CUR (45_decoder.md R213) -/
  | byteOut
  /-- CLOSE (44_encoder.md R196, 45_decoder.md R216) -/
  | close
  deriving DecidableEq, Repr

/-- PENDING: at most one transaction, on one of the two channels (R57). -/
inductive Outstanding where
  | inReq (w : InWait)
  | outReq (w : OutWait)
  deriving DecidableEq, Repr

/-- The engine's internal events, each one atomic (20_memory.md R94). -/
inductive Internal where
  /-- all 256 counters cleared (40_freq_counter.md R131) -/
  | clearFreq
  /-- FREQ[b] <- sat_inc(FREQ[b]), and SYM_COUNT goes up (40_freq_counter.md R131) -/
  | countByte (b : Byte)
  /-- the BUILD event (41_tree_builder.md R147) -/
  | build
  /-- the CODEGEN event (42_code_table_gen.md R157) -/
  | codegen
  /-- PHASE <- p (00_scope.md R17; 10_state.md R33) -/
  | enterPhase (p : Phase)
  /-- NODE[i] <- n, for the slot `i` allocated last (43_tree_serializer.md R174) -/
  | writeNode (n : Node)
  /-- NODE[j].LEFT <- i or NODE[j].RIGHT <- i, for the node `j` on top of STACK (43_tree_serializer.md R174) -/
  | link (i : NodeIndex)
  /-- the parse completes: ROOT and TREE_DEPTH are set (43_tree_serializer.md R180) -/
  | finishParse
  /-- the error entry (60_exceptions.md R243) -/
  | raise (e : HuffError)
  /-- the event that sets STATE to DONE (44_encoder.md R196, 45_decoder.md R216) -/
  | finish
  deriving DecidableEq, Repr

/-- A pending node of a pre-order traversal (R56). -/
inductive Frame where
  /-- HEADER_OUT: the subtree at `i` is still to be written -/
  | visit (i : NodeIndex)
  /-- HEADER_IN: internal node `i` waits for its left child -/
  | left (i : NodeIndex)
  /-- HEADER_IN: internal node `i` waits for its right child -/
  | right (i : NodeIndex)
  deriving DecidableEq, Repr

/-- The working state the host cannot read (R56). -/
structure Engine where
  /-- PENDING -/
  pending : Option Outstanding
  /-- the internal event the engine takes next when no transaction is outstanding (R31; 20_memory.md R94) -/
  todo : Option Internal
  /-- ACTIVE -/
  active : List NodeIndex
  /-- STACK, top first -/
  stack : List Frame
  /-- NEXT -/
  next : NodeIndex
  /-- CUR -/
  cur : NodeIndex
  /-- ENC_SYM -/
  encSym : Symbol
  /-- ENC_POS -/
  encPos : Nat
  deriving DecidableEq, Repr

/-! ### The agents around the block (the model's own; log 1) -/

/-- An IN response as the port carries it: `in_rsp_eof` and `in_rsp_data` (20_memory.md R80). -/
structure Answer where
  eof : Bool
  data : Word
  deriving DecidableEq, Repr

/-- An IN transaction with its response: the width field and the value of a READ, or EOF (00_scope.md R11, R19). -/
inductive InTx where
  | read (w : ChWidth) (r : Option Word)
  | reset
  deriving DecidableEq, Repr

/-- An OUT transaction, a WRITE with its width field (00_scope.md R11, R19). -/
inductive OutTx where
  | write (w : ChWidth) (v : Word)
  | close
  deriving DecidableEq, Repr

/-- Who moves next (20_memory.md R95; 60_exceptions.md R251). -/
inductive Event where
  /-- a host read of the word at `addr` (20_memory.md R71) -/
  | hostRead (addr : RegAddr)
  /-- a host write of `v` to the word at `addr` (20_memory.md R72) -/
  | hostWrite (addr : RegAddr) (v : Word)
  /-- the engine's side: the environment completes the outstanding transaction, or the engine takes its internal event -/
  | engine
  /-- a rising edge of `clk` with `rst` = 1 (70_reset_and_hazards.md R270) -/
  | reset
  deriving DecidableEq, Repr

/-- The host, IN and OUT environments as the data of what they are going to do, and what they have observed. -/
structure Env where
  /-- the events still to happen, in order; when none is left the engine's side moves -/
  agenda : List Event
  /-- the answers the IN environment is going to give, in order (30_encoding.md R121) -/
  inScript : List Answer
  /-- how many OUT transactions the OUT environment is going to accept (70_reset_and_hazards.md R281) -/
  outCredit : Nat
  /-- the IN transactions so far, oldest first (00_scope.md R19) -/
  inTrace : List InTx
  /-- the OUT transactions so far, oldest first (00_scope.md R19) -/
  outTrace : List OutTx
  /-- the host reads so far with the values returned, oldest first (00_scope.md R19) -/
  hostReads : List (RegAddr × Word)
  /-- the number of the next draw of a free value -/
  draws : Nat
  /-- the draw that the NODE slots with no content read as, since the last reset or accepted command (R53, I4) -/
  staleDraw : Nat
  deriving DecidableEq, Repr

/-- The machine. -/
structure State where
  regs : Regs
  tables : Tables
  eng : Engine
  env : Env
  deriving DecidableEq, Repr

/-- Why a step stops with a fault. -/
inductive Fault where
  /-- Raised by the meaning of a wire token (MAGIC, TREE_INTERNAL, TREE_LEAF) in a state in which the engine has no READ
  outstanding for it: a response without a request, whose effect is UNSPECIFIED (20_memory.md R83, I7). Safe: no step of the
  machine presents one, and the model stops where the spec fixes nothing. -/
  | noReadOutstanding
  deriving DecidableEq, Repr

/-- Why a step refuses. -/
inductive Refusal where
  /-- Raised by exec's arm for an instruction that has no meaning yet. Safe: the model stops. -/
  | notModelled (mnemonic : String)
  deriving DecidableEq, Repr

/-- The registers after reset (R59). -/
def Regs.reset : Regs :=
  { state := .idle, mode := .compress, cmdErr := false, phase := .none, errCode := none, irqEn := false,
    symCount := 0#32, encCount := 0#32, bitCount := 0#32,
    leafCount := 0#10, nodeCount := 0#10, root := 0#10, treeDepth := 0#9 }

/-- The tables after reset: UNSPECIFIED, draw `k` (R59). -/
def Tables.unspecified (k : Nat) : Tables :=
  { freq := [], freqFill := .drawn k, code := [], codeFill := .drawn k, node := [] }

/-- The hidden state after reset: no transaction outstanding, no step to take; the rest is unused in IDLE (R59; log 3). -/
def Engine.reset : Engine :=
  { pending := none, todo := none, active := [], stack := [], next := 0#10, cur := 0#10, encSym := 0#9, encPos := 0 }

/-- The agents before anything has happened and with nothing to come (log 1). -/
def Env.empty : Env :=
  { agenda := [], inScript := [], outCredit := 0, inTrace := [], outTrace := [], hostReads := [], draws := 1, staleDraw := 0 }

/-- The machine right after reset (R59; 70_reset_and_hazards.md R272). -/
def State.reset : State :=
  { regs := Regs.reset, tables := Tables.unspecified 0, eng := Engine.reset, env := Env.empty }

end Sys2Proof.Machine
end

