-- ==== Sys2Proof/Machine/Flags.lean ====
section
/-!
DEFINITION. The STATUS fields as numbers, the STATUS word, the phases of a command, and the interrupt line
(10_state.md R32, R33, R36, R39; 60_exceptions.md R247).
-/

namespace Sys2Proof.Machine

/-- STATUS.STATE (R32). -/
def RunState.code : RunState → Nat
  | .idle => 0
  | .busy => 1
  | .done => 2
  | .error => 3

/-- STATUS.MODE (R37). -/
def Mode.code : Mode → Nat
  | .compress => 0
  | .decompress => 1

/-- STATUS.PHASE (R33). -/
def Phase.code : Phase → Nat
  | .none => 0
  | .count => 1
  | .rewind => 2
  | .build => 3
  | .codegen => 4
  | .magicOut => 5
  | .headerOut => 6
  | .encode => 7
  | .terminate => 8
  | .close => 9
  | .magicIn => 10
  | .headerIn => 11
  | .decode => 12

/-- STATUS.ERR_CODE of an error (R39). -/
def HuffError.code : HuffError → Nat
  | .badMagic => 1
  | .truncatedTree => 2
  | .missingTerminator => 3
  | .badSymbol => 4
  | .treeTooLarge => 5
  | .degenerateTree => 6
  | .noCode => 7

/-- STATUS.ERR_CODE, 0 when there is no error (R39). -/
def errCodeValue : Option HuffError → Nat
  | none => 0
  | some e => e.code

/-- The STATUS word: [1:0] STATE, [2] MODE, [3] CMD_ERR, [7:4] PHASE, [11:8] ERR_CODE, [31:12] zero (R36). -/
def statusWord (state : RunState) (mode : Mode) (cmdErr : Bool) (phase : Nat) (err : Option HuffError) : Word :=
  BitVec.ofNat 32 (state.code + 4 * mode.code + 8 * cmdErr.toNat + 16 * (phase % 16) + 256 * errCodeValue err)

/-- The phase a STATUS read shows while BUSY: one of the phases of the running command, the one draw `k` picks. COMPRESS runs
the phases 1 to 9 and DECOMPRESS the phases 9 to 12 (R33, R58). -/
def busyPhaseCode (mode : Mode) (k : Nat) : Nat :=
  match mode with
  | .compress => 1 + Config.busyPhase k % 9
  | .decompress => 9 + Config.busyPhase k % 4

/-- A command is running. -/
def State.busy (s : State) : Bool := s.regs.state = .busy

/-- The interrupt output, a level (60_exceptions.md R247). -/
def State.irq (s : State) : Bool :=
  s.regs.irqEn && (s.regs.state = .done || s.regs.state = .error)

/-- IRQ_EN as the host reads it: bit 0 is EN, the rest reads 0 (R41). -/
def irqEnWord (en : Bool) : Word := BitVec.ofNat 32 en.toNat

/-- CONFIG: NODE_CAP in bits [9:0] and COUNT_WIDTH in bits [21:16] (R43). -/
def configWord : Word := BitVec.ofNat 32 (Config.nodeCap + 2 ^ 16 * Config.countWidth)

/-- A rejected or illegal command word sets the sticky CMD_ERR and does nothing else (R38; 46_control.md R229, R230). -/
def State.setCmdErr (s : State) : State := { s with regs := { s.regs with cmdErr := true } }

end Sys2Proof.Machine
end

