-- ==== Sys2Proof/Syntax.lean ====
section
/-!
DEFINITION. The instructions: one constructor per row of spec/opcode_table.json. Four are command words the host writes to
CMD (30_encoding.md R101), three are tokens of the wire format the engine reads from IN (30_encoding.md R119).
-/

namespace Sys2Proof

/-- The rows of the opcode table. No command has an operand (R103); a leaf token has its 9-bit symbol field (R114). -/
inductive Instr where
  /-- NOP (46_control.md R227). -/
  | nop
  /-- COMPRESS (44_encoder.md R185). -/
  | compress
  /-- DECOMPRESS (45_decoder.md R205). -/
  | decompress
  /-- CLEAR (46_control.md R228). -/
  | clear
  /-- MAGIC, the first 32 bits of a compressed stream (45_decoder.md R207). -/
  | magic
  /-- TREE_INTERNAL, an internal node of the tree header (43_tree_serializer.md R174). -/
  | treeInternal
  /-- TREE_LEAF, a leaf of the tree header with its symbol field `s` (43_tree_serializer.md R174). -/
  | treeLeaf (s : Symbol)
  deriving DecidableEq, Repr

/-- Where the block reads an instruction's bits. -/
inductive Port where
  /-- a command word written to CMD (30_encoding.md R100) -/
  | command
  /-- the first word of the compressed stream, phase MAGIC_IN (30_encoding.md R111) -/
  | magic
  /-- a token of the tree header, phase HEADER_IN (30_encoding.md R112) -/
  | header
  deriving DecidableEq, Repr

end Sys2Proof
end

