-- ==== Sys2Proof/Decode.lean ====
section
/-!
DEFINITION. The bit view (20_memory.md R90), the decoders of the three ports and the encoder. A decoder is total: on bits that
are no instruction of its port it answers with the reason.
-/

namespace Sys2Proof

/-- `bits(w, v)`: the bits `v[w-1], …, v[0]`, most significant first (R90). -/
def bitView (w : Nat) {n : Nat} (v : BitVec n) : List Bool :=
  (List.range w).map fun k => v.getLsbD (w - 1 - k)

/-- The unsigned number whose bit view is `bs` (R90). -/
def ofBits (bs : List Bool) : Nat :=
  bs.foldl (fun acc b => 2 * acc + b.toNat) 0

/-- Why bits are no instruction of a port. -/
inductive Reject where
  /-- a command word with a bit of RSVD set (30_encoding.md R102) -/
  | reservedBits
  /-- a command word whose OPCODE is 0x4 to 0xF (30_encoding.md R102) -/
  | reservedOpcode
  /-- a first word that is not MAGIC (30_encoding.md R111) -/
  | notMagic
  /-- fewer bits than the instruction takes -/
  | tooShort
  deriving DecidableEq, Repr

/-- A command word: OPCODE in bits [3:0], RSVD in bits [31:4] must be 0 (30_encoding.md R100 to R102). -/
def decodeCommand (v : Word) : Except Reject Instr :=
  if v.extractLsb' 4 28 ≠ 0#28 then .error .reservedBits
  else match (v.extractLsb' 0 4).toNat with
    | 0 => .ok .nop
    | 1 => .ok .compress
    | 2 => .ok .decompress
    | 3 => .ok .clear
    | _ => .error .reservedOpcode

/-- The first word of a compressed stream (30_encoding.md R111). -/
def decodeMagic (v : Word) : Except Reject Instr :=
  if v = Config.magic then .ok .magic else .error .notMagic

/-- One token of the tree header: `0`, or `1` and a 9-bit symbol, most significant bit first (30_encoding.md R112). The
rest of the bits is handed back: the token says by itself where it ends (R113). -/
def decodeHeader : List Bool → Except Reject (Instr × List Bool)
  | [] => .error .tooShort
  | false :: rest => .ok (.treeInternal, rest)
  | true :: rest =>
    if rest.length < 9 then .error .tooShort
    else .ok (.treeLeaf (BitVec.ofNat 9 (ofBits (rest.take 9))), rest.drop 9)

/-- The instruction at the front of `bs` on a port, and the bits after it. -/
def decode (p : Port) (bs : List Bool) : Except Reject (Instr × List Bool) :=
  match p with
  | .command =>
    if bs.length < 32 then .error .tooShort
    else (decodeCommand (BitVec.ofNat 32 (ofBits (bs.take 32)))).map (·, bs.drop 32)
  | .magic =>
    if bs.length < 32 then .error .tooShort
    else (decodeMagic (BitVec.ofNat 32 (ofBits (bs.take 32)))).map (·, bs.drop 32)
  | .header => decodeHeader bs

/-- The port an instruction is read on. -/
def Instr.port : Instr → Port
  | .nop => .command
  | .compress => .command
  | .decompress => .command
  | .clear => .command
  | .magic => .magic
  | .treeInternal => .header
  | .treeLeaf _ => .header

/-- The bits of an instruction, first bit first: the command word of 30_encoding.md R101, the magic of R111, the header tokens
of R112. -/
def encode : Instr → List Bool
  | .nop => bitView 32 0x00000000#32
  | .compress => bitView 32 0x00000001#32
  | .decompress => bitView 32 0x00000002#32
  | .clear => bitView 32 0x00000003#32
  | .magic => bitView 32 0xFACE8201#32
  | .treeInternal => [false]
  | .treeLeaf s => true :: bitView 9 s

/-- The instruction, if the decoder accepts the bits. -/
def accepted? : Except Reject (Instr × List Bool) → Option Instr
  | .ok (i, _) => some i
  | .error _ => none

/-- What the decoder reads from the word `w` of a row of spec/opcode_table.json that has `nbits` bits in whole bytes. A row of
32 bits is a command word or the magic; a row of 8 (or 1) is the 1-bit token; a row of 16 (or 10) is the 10-bit token. -/
def decodeTableWord (nbits w : Nat) : Option Instr :=
  if nbits = 32 then
    if 2 ^ 32 ≤ w then none
    else match accepted? (decode .command (bitView 32 (BitVec.ofNat 32 w))) with
      | some i => some i
      | none => accepted? (decode .magic (bitView 32 (BitVec.ofNat 32 w)))
  else if nbits = 8 ∨ nbits = 1 then
    if 2 ≤ w then none else accepted? (decode .header (bitView 1 (BitVec.ofNat 1 w)))
  else if nbits = 16 ∨ nbits = 10 then
    if 1024 ≤ w then none else accepted? (decode .header (bitView 10 (BitVec.ofNat 10 w)))
  else none

end Sys2Proof
end

