-- ==== Sys2Proof/Machine/Operands.lean ====
section
/-!
DEFINITION. The operand forms: the value a READ returns (20_memory.md R81), the payload of a WRITE (R85), the bits of a code
(10_state.md R52), and the bit view of a stream (20_memory.md R90).
-/

namespace Sys2Proof.Machine

/-- What a READ of width `w` returns: EOF, or the low `w` bits of the response's data; the bits above are ignored (R81). -/
def Answer.field (w : Nat) (a : Answer) : Option (BitVec w) :=
  if a.eof then none else some (a.data.setWidth w)

/-- A READ's value as the observation records it: zero-extended to the data width, or EOF (R19, R81). -/
def readRecord {w : Nat} (r : Option (BitVec w)) : Option Word := r.map (·.setWidth 32)

/-- READ(w) answered `r`, with the width field it carries (R80, R81). -/
def readTx {w : Nat} (r : Option (BitVec w)) : InTx := .read (BitVec.ofNat 6 w) (readRecord r)

/-- WRITE of width `w`: the low `w` bits of `v`, the bits above are 0 (R85). -/
def writeTx (w : Nat) {n : Nat} (v : BitVec n) : OutTx := .write (BitVec.ofNat 6 w) ((v.setWidth w).setWidth 32)

/-- The bit string of an OUT transaction (R90). -/
def OutTx.bits : OutTx → List Bool
  | .write w v => bitView w.toNat v
  | .close => []

/-- The compressed stream of a COMPRESS: the bit views of its WRITEs, in order (R90). -/
def outStream (tr : List OutTx) : List Bool := tr.flatMap OutTx.bits

/-- The bit string of an IN transaction: that of a READ that returned a value (R90). -/
def InTx.bits : InTx → List Bool
  | .read w (some v) => bitView w.toNat v
  | .read _ none => []
  | .reset => []

/-- The compressed stream a DECOMPRESS consumed: the bit views of its READs that returned a value, in order (R90). -/
def inStream (tr : List InTx) : List Bool := tr.flatMap InTx.bits

/-- The BITS field of a path: code bit `j` at position `j`, 0 above (R52). -/
def pathBits (p : List Bool) : BitVec 256 := BitVec.ofNat 256 (ofBits p.reverse)

/-- The entry CODEGEN records for a leaf reached by the path `p` (42_code_table_gen.md R156). -/
def pathEntry (p : List Bool) : CodeEntry :=
  { present := true, len := BitVec.ofNat 9 p.length, bits := pathBits p }

/-- Code bit `j` (R52). -/
def CodeEntry.bit (c : CodeEntry) (j : Nat) : Bool := c.bits.getLsbD j

/-- The code as a bit string, first bit first (30_encoding.md R116). -/
def CodeEntry.path (c : CodeEntry) : List Bool := (List.range c.len.toNat).map c.bit

/-- The entry of a symbol with no code (R52). -/
def CodeEntry.absent : CodeEntry := { present := false, len := 0#9, bits := 0#256 }

/-- A leaf (R53). -/
def Node.leaf (sym : Symbol) (w : Weight) : Node :=
  { isLeaf := true, symbol := sym, weight := w, left := 0#10, right := 0#10 }

/-- An internal node (R53). -/
def Node.internal (w : Weight) (l r : NodeIndex) : Node :=
  { isLeaf := false, symbol := 0#9, weight := w, left := l, right := r }

end Sys2Proof.Machine
end

