-- ==== Sys2Proof/Machine/Ops.lean ====
section
/-!
DEFINITION. The named operations over the tables, the registers, the engine's position and the observation; the error entry
(60_exceptions.md R243) and the ways back from it (R249): CLEAR's effect and reset. A new accepted command is the third
(46_control.md R226, `State.begin`).
-/

namespace Sys2Proof.Machine

/-! ### Sparse tables -/

/-- The entry listed under `i`. -/
def lookup {α : Type} (i : Nat) : List (Nat × α) → Option α
  | [] => none
  | (j, v) :: rest => if i = j then some v else lookup i rest

/-- The list with the entry `i` holding `v`, in rising index order. -/
def insert {α : Type} (i : Nat) (v : α) : List (Nat × α) → List (Nat × α)
  | [] => [(i, v)]
  | (j, w) :: rest =>
    if i < j then (i, v) :: (j, w) :: rest
    else if i = j then (i, v) :: rest
    else (j, w) :: insert i v rest

/-- The list without an entry for `i`. -/
def erase {α : Type} (i : Nat) : List (Nat × α) → List (Nat × α)
  | [] => []
  | (j, w) :: rest => if i = j then rest else (j, w) :: erase i rest

/-- The canonical form of a table of `n` entries: indices strictly rising and below `n`. -/
def canonical {α : Type} (n : Nat) (t : List (Nat × α)) : Bool :=
  decide ((t.map Prod.fst).Pairwise (· < ·)) && t.all (fun e => e.1 < n)

/-- All three tables are in canonical form. -/
def Tables.wf (t : Tables) : Bool :=
  canonical Config.numBytes t.freq && canonical Config.numSymbols t.code && canonical Config.nodeCap t.node

/-- FREQ[i] (10_state.md R51). -/
def State.freqAt (s : State) (i : Nat) : Word :=
  match lookup i s.tables.freq with
  | some v => v
  | none =>
    match s.tables.freqFill with
    | .drawn k => Config.freqDraw k i
    | .cleared => 0#32

/-- CODE[i] (10_state.md R52). -/
def State.codeAt (s : State) (i : Nat) : CodeEntry :=
  match lookup i s.tables.code with
  | some c => c
  | none =>
    match s.tables.codeFill with
    | .drawn k => { present := Config.presentDraw k i, len := Config.lenDraw k i, bits := Config.bitsDraw k i }
    | .cleared => CodeEntry.absent

/-- The UNSPECIFIED content of slot `i` of NODE (10_state.md R53, R59). -/
def State.staleNode (s : State) (i : Nat) : Node :=
  { isLeaf := Config.isLeafDraw s.env.staleDraw i, symbol := Config.symbolDraw s.env.staleDraw i,
    weight := Config.weightDraw s.env.staleDraw i, left := Config.leftDraw s.env.staleDraw i,
    right := Config.rightDraw s.env.staleDraw i }

/-- NODE[i] as the engine reads it (10_state.md R53). -/
def State.nodeAt (s : State) (i : NodeIndex) : Node :=
  match lookup i.toNat s.tables.node with
  | some n => n
  | none => s.staleNode i.toNat

/-- FREQ[i] <- v, for an index the table has. -/
def State.setFreq (s : State) (i : Nat) (v : Word) : State :=
  if i < Config.numBytes then { s with tables := { s.tables with freq := insert i v s.tables.freq } } else s

/-- CODE[i] <- c, for an index the table has. -/
def State.setCode (s : State) (i : Nat) (c : CodeEntry) : State :=
  if i < Config.numSymbols then { s with tables := { s.tables with code := insert i c s.tables.code } } else s

/-- NODE[i] <- n, for an index the table has. -/
def State.setNode (s : State) (i : NodeIndex) (n : Node) : State :=
  if i.toNat < Config.nodeCap then { s with tables := { s.tables with node := insert i.toNat n s.tables.node } } else s

/-- Slot `i` of NODE holds nothing a rule gives: its content is UNSPECIFIED (43_tree_serializer.md R177, R178; I4). -/
def State.forgetNode (s : State) (i : NodeIndex) : State :=
  { s with tables := { s.tables with node := erase i.toNat s.tables.node } }

/-- All 256 counters to 0 (40_freq_counter.md R131). -/
def State.clearFreq (s : State) : State :=
  { s with tables := { s.tables with freq := [], freqFill := .cleared } }

/-- All 257 codes absent (42_code_table_gen.md R157). -/
def State.clearCode (s : State) : State :=
  { s with tables := { s.tables with code := [], codeFill := .cleared } }

/-! ### The engine's position -/

/-- PHASE <- p (10_state.md R33). -/
def State.setPhase (s : State) (p : Phase) : State := { s with regs := { s.regs with phase := p } }

/-- A transaction is issued and is outstanding until the environment completes it (10_state.md R57). -/
def State.await (s : State) (o : Outstanding) : State :=
  { s with eng := { s.eng with pending := some o, todo := none } }

/-- The engine's next event is an internal one. -/
def State.plan (s : State) (e : Internal) : State :=
  { s with eng := { s.eng with pending := none, todo := some e } }

/-- The engine takes no step (60_exceptions.md R257). -/
def State.halt (s : State) : State := { s with eng := { s.eng with pending := none, todo := none } }

/-- The engine waits for the answer to the IN request `w`. -/
def State.awaits (s : State) (w : InWait) : Bool := s.busy && s.eng.pending = some (.inReq w)

/-! ### Counters and the observation -/

/-- BIT_COUNT <- wrap32(BIT_COUNT + w) (10_state.md R46). -/
def State.countBits (s : State) (w : Nat) : State :=
  { s with regs := { s.regs with bitCount := s.regs.bitCount + BitVec.ofNat 32 w } }

/-- SYM_COUNT <- wrap32(SYM_COUNT + 1) (10_state.md R44). -/
def State.countSym (s : State) : State :=
  { s with regs := { s.regs with symCount := s.regs.symCount + 1#32 } }

/-- ENC_COUNT <- wrap32(ENC_COUNT + 1) (10_state.md R45). -/
def State.countEnc (s : State) : State :=
  { s with regs := { s.regs with encCount := s.regs.encCount + 1#32 } }

/-- An IN transaction has completed (00_scope.md R19). -/
def State.recordIn (s : State) (t : InTx) : State :=
  { s with env := { s.env with inTrace := s.env.inTrace ++ [t] } }

/-- An OUT transaction has been accepted (00_scope.md R19). -/
def State.recordOut (s : State) (t : OutTx) : State :=
  { s with env := { s.env with outTrace := s.env.outTrace ++ [t] } }

/-- A READ on the raw side has completed: it is not counted in BIT_COUNT (10_state.md R46). -/
def State.readRaw (s : State) {w : Nat} (r : Option (BitVec w)) : State :=
  s.recordIn (readTx r)

/-- A READ on the compressed side has completed: a value adds its width to BIT_COUNT, EOF adds nothing (10_state.md R46). -/
def State.readCoded (s : State) {w : Nat} (r : Option (BitVec w)) : State :=
  match r with
  | none => s.recordIn (readTx r)
  | some _ => (s.recordIn (readTx r)).countBits w

/-! ### The error entry and the return from it -/

/-- `raise HuffError(code)` as one atomic event: ERR_CODE and STATE are written, no transaction is outstanding, PHASE, the
counters and the tables keep their values (60_exceptions.md R243). -/
def State.errorEntry (s : State) (e : HuffError) : State :=
  { s with regs := { s.regs with errCode := some e, state := .error }
           eng := { s.eng with pending := none, todo := none } }

/-- The effect of an accepted CLEAR (46_control.md R228; 60_exceptions.md R249). -/
def State.toIdle (s : State) : State :=
  { s with regs := { s.regs with state := .idle, phase := .none, errCode := none, cmdErr := false } }

/-- A rising edge with `rst` = 1: the block takes its reset values, the tables are UNSPECIFIED anew, no transaction is
outstanding; the agents around it are what they were (70_reset_and_hazards.md R270, R271). -/
def State.applyReset (s : State) : State :=
  { regs := Regs.reset, tables := Tables.unspecified s.env.draws, eng := Engine.reset,
    env := { s.env with draws := s.env.draws + 1, staleDraw := s.env.draws } }

/-- A COMPRESS or DECOMPRESS is accepted: everything that happens inside the CMD write event (46_control.md R226). The NODE
slots with no content are UNSPECIFIED anew (10_state.md R53); FREQ, CODE and NODE are unchanged. -/
def State.begin (s : State) (mode : Mode) (phase : Phase) : State :=
  { s with
    regs := { s.regs with state := .busy, mode := mode, errCode := none, phase := phase,
                          symCount := 0#32, encCount := 0#32, bitCount := 0#32,
                          leafCount := 0#10, nodeCount := 0#10, root := 0#10, treeDepth := 0#9 }
    env := { s.env with draws := s.env.draws + 1, staleDraw := s.env.draws } }

end Sys2Proof.Machine
end

