-- ==== Sys2Proof/Machine/Control.lean ====
section
/-!
DEFINITION. The command decoder's effects: the meanings of NOP, COMPRESS, DECOMPRESS and CLEAR, and of a word that is no command
(46_control.md R225 to R232).
-/

namespace Sys2Proof.Machine

/-- A legal command the current state does not accept: CMD_ERR, and nothing else (R230). -/
def rejectCommand (s : State) : State := s.setCmdErr

/-- An illegal command word: CMD_ERR, and nothing else, in any state (R229). -/
def illegalWord (s : State) : State := s.setCmdErr

/-- NOP: no effect, in every state (R227). -/
def execNop (s : State) : Host.Outcome State Fault Refusal := .next s

/-- COMPRESS: rejected while BUSY (R230); else accepted (R226), and the engine's first event is COUNT's PHASE <- COUNT
(40_freq_counter.md R131). What follows are the events of `engineEvent` (44_encoder.md R185, R186). -/
def execCompress (s : State) : Host.Outcome State Fault Refusal :=
  if s.busy then .next (rejectCommand s) else .next ((s.begin .compress .count).plan (.enterPhase .count))

/-- DECOMPRESS: rejected while BUSY (R230); else accepted (R226), and the READ(32) of the magic is issued (45_decoder.md R207).
DESIGN CHOICE (log 11): R226 says only that the engine "then" runs R205, and the model has the READ outstanding at once.
The phases that follow are the events of `engineEvent` (45_decoder.md R205, R206). -/
def execDecompress (s : State) : Host.Outcome State Fault Refusal :=
  if s.busy then .next (rejectCommand s) else .next ((s.begin .decompress .magicIn).await (.inReq .magicIn))

/-- CLEAR: rejected while BUSY (R230); else back to IDLE (R228). -/
def execClear (s : State) : Host.Outcome State Fault Refusal :=
  if s.busy then .next (rejectCommand s) else .next s.toIdle

end Sys2Proof.Machine
end

