-- ==== Sys2Proof/Machine/TreeBuilder.lean ====
section
/-!
DEFINITION. huffman_tree_builder: the BUILD event (41_tree_builder.md R140 to R153).
-/

namespace Sys2Proof.Machine

/-- A node is placed in the next slot, `NODE_COUNT`, and joins ACTIVE (R141, R143). -/
def addNode (n : Node) (s : State) : State :=
  let t := s.setNode s.regs.nodeCount n
  { t with regs := { t.regs with nodeCount := s.regs.nodeCount + 1#10 }
           eng := { t.eng with active := s.eng.active ++ [s.regs.nodeCount] } }

/-- The byte values that occurred, ascending (R141). -/
def occurring (s : State) : List Nat := (List.range Config.numBytes).filter fun c => s.freqAt c ≠ 0#32

/-- The leaf of byte value `c` (R141). -/
def byteLeaf (s : State) (c : Nat) : Node := Node.leaf (BitVec.ofNat 9 c) ((s.freqAt c).setWidth 40)

/-- No node placed yet. -/
def emptyTree (s : State) : State :=
  { s with regs := { s.regs with nodeCount := 0#10 }, eng := { s.eng with active := [] } }

/-- The leaves, by ascending byte value and PEOF last; LEAF_COUNT is their number (R141). -/
def placeLeaves (s : State) : State :=
  let bytes := (occurring s).foldl (fun t c => addNode (byteLeaf s c) t) (emptyTree s)
  let t := addNode (Node.leaf Config.peof Config.peofWeight) bytes
  { t with regs := { t.regs with leafCount := t.regs.nodeCount } }

/-- The key of node `a` is smaller than that of `b`: lower weight, and between equal weights the lower index (R142). -/
def lighter (s : State) (a b : NodeIndex) : Bool :=
  (s.nodeAt a).weight.toNat < (s.nodeAt b).weight.toNat ||
    ((s.nodeAt a).weight.toNat = (s.nodeAt b).weight.toNat && a.toNat < b.toNat)

/-- The node with the smallest key among `a` and `rest` (R142). -/
def lightest (s : State) (a : NodeIndex) (rest : List NodeIndex) : NodeIndex :=
  rest.foldl (fun m i => if lighter s i m then i else m) a

/-- The internal node that joins `a` and `b`: the one extracted first is the left child (R143). -/
def joined (s : State) (a b : NodeIndex) : Node :=
  Node.internal ((s.nodeAt a).weight + (s.nodeAt b).weight) a b

/-- One merge step; nothing where fewer than two nodes are active (R143, R144). -/
def merge (s : State) : State :=
  match s.eng.active with
  | [] => s
  | x :: xs =>
    let a := lightest s x xs
    match (x :: xs).erase a with
    | [] => s
    | y :: ys =>
      let b := lightest s y ys
      addNode (joined s a b) { s with eng := { s.eng with active := (y :: ys).erase b } }

/-- `k` merge steps (R144). -/
def mergeTimes : Nat → State → State
  | 0, s => s
  | k + 1, s => mergeTimes k (merge s)

/-- The depth of the deepest leaf below node `i`, where `i` has depth 0; `fuel` bounds the levels looked at (R146). -/
def depthBelow (s : State) : Nat → NodeIndex → Nat
  | 0, _ => 0
  | fuel + 1, i =>
    if (s.nodeAt i).isLeaf then 0
    else 1 + max (depthBelow s fuel (s.nodeAt i).left) (depthBelow s fuel (s.nodeAt i).right)

/-- ROOT <- r and TREE_DEPTH <- the largest leaf depth below it; no tree is deeper than its number of slots (R145, R146;
00_scope.md R12). -/
def setRoot (r : NodeIndex) (s : State) : State :=
  { s with regs := { s.regs with root := r, treeDepth := BitVec.ofNat 9 (depthBelow s Config.nodeCap r) } }

/-- BUILD (R147): the leaves, then as many merges as there are leaves less one, then the root is the node left. -/
def buildTree (s : State) : State :=
  let leaves := placeLeaves s
  let t := mergeTimes (leaves.eng.active.length - 1) leaves
  setRoot (t.eng.active.headD 0#10) t

/-- The BUILD event; PHASE <- CODEGEN is next (R147; 42_code_table_gen.md R157). -/
def buildEvent (s : State) : State := (buildTree s).plan (.enterPhase .codegen)

end Sys2Proof.Machine
end

