-- ==== Sys2Proof/Machine/TreeSerializer.lean ====
section
/-!
DEFINITION. huffman_tree_serializer: SERIALIZE in phase HEADER_OUT (43_tree_serializer.md R165 to R170) and PARSE in phase
HEADER_IN (R171 to R184). The recursion of the pseudocode is the STACK of 10_state.md R56.
-/

namespace Sys2Proof.Machine

/-! ### Write side -/

/-- The node whose record is being written: the one on top of STACK. -/
def State.topNode (s : State) : Node :=
  match s.eng.stack with
  | .visit i :: _ => s.nodeAt i
  | _ => s.nodeAt s.regs.root

/-- SERIALIZE begins at the root (R166; 44_encoder.md R190). -/
def startHeader (s : State) : State :=
  { s with eng := { s.eng with stack := [.visit s.regs.root], pending := some (.outReq .nodeBit), todo := none } }

/-- The node on top is done: on to the next pending node, or with none left PHASE <- ENCODE is next (R166; 44_encoder.md R191). -/
def nextNode (rest : List Frame) (s : State) : State :=
  match rest with
  | [] => { s with eng := { s.eng with stack := [], pending := none, todo := some (.enterPhase .encode) } }
  | _ :: _ => { s with eng := { s.eng with stack := rest, pending := some (.outReq .nodeBit), todo := none } }

/-- The type bit has been written: a leaf's symbol follows, an internal node's left and then right subtree (R166). -/
def nodeBitAccepted (s : State) : State :=
  match s.eng.stack with
  | .visit i :: rest =>
    if (s.nodeAt i).isLeaf then s.await (.outReq .nodeSymbol)
    else nextNode (.visit (s.nodeAt i).left :: .visit (s.nodeAt i).right :: rest) s
  | rest => nextNode rest.tail s

/-- The symbol has been written: the leaf is done (R166). -/
def nodeSymbolAccepted (s : State) : State := nextNode s.eng.stack.tail s

/-! ### Read side -/

/-- PARSE begins: NEXT is 0 and the first type bit is read (R174). -/
def startParse (s : State) : State :=
  { s with eng := { s.eng with next := 0#10, stack := [], pending := some (.inReq .typeBit), todo := none } }

/-- NODE[j].LEFT <- i (R174). -/
def setLeft (j i : NodeIndex) (s : State) : State := s.setNode j { s.nodeAt j with left := i }

/-- NODE[j].RIGHT <- i (R174). -/
def setRight (j i : NodeIndex) (s : State) : State := s.setNode j { s.nodeAt j with right := i }

/-- The slot allocated last. -/
def State.lastSlot (s : State) : NodeIndex := s.eng.next - 1#10

/-- parse() returns node `i`: the LEFT or RIGHT of the node that called it is written next, and with no such node the parse is complete
(R174, R180). -/
def returnNode (i : NodeIndex) (s : State) : State :=
  match s.eng.stack with
  | [] => s.plan .finishParse
  | _ :: _ => s.plan (.link i)

/-- NODE[i] <- n for the slot `i` allocated last: an internal node's left subtree is parsed next, a leaf is returned (R174; 20_memory.md
R94). -/
def writeNodeEvent (n : Node) (s : State) : State :=
  let t := s.setNode s.lastSlot n
  if n.isLeaf then returnNode s.lastSlot t
  else { t with eng := { t.eng with stack := .left s.lastSlot :: t.eng.stack, pending := some (.inReq .typeBit), todo := none } }

/-- Node `i` becomes a child of the node on top of STACK: one that waited for its left child then parses its right one, one that waited
for its right child is returned in turn (R174; 20_memory.md R94). -/
def linkEvent (i : NodeIndex) (s : State) : State :=
  match s.eng.stack with
  | .left j :: rest =>
    let t := setLeft j i s
    { t with eng := { t.eng with stack := .right j :: rest, pending := some (.inReq .typeBit), todo := none } }
  | .right j :: rest =>
    let t := setRight j i s
    returnNode j { t with eng := { t.eng with stack := rest } }
  | rest => returnNode i { s with eng := { s.eng with stack := rest.tail } }

/-- A slot is allocated: NEXT and NODE_COUNT go up by one (R172, R176). -/
def allocate (s : State) : State :=
  { s with regs := { s.regs with nodeCount := s.eng.next + 1#10 }, eng := { s.eng with next := s.eng.next + 1#10 } }

/-- A leaf at the slot just allocated: it counts, the slot has no content until its symbol is read (R174, R177). -/
def openLeaf (i : NodeIndex) (s : State) : State :=
  let t := (s.forgetNode i).await (.inReq .symbolField)
  { t with regs := { t.regs with leafCount := t.regs.leafCount + 1#10 } }

/-- The answer to the READ(1) of a type bit: EOF is TRUNCATED_TREE, then the capacity is checked, then the slot is allocated; a leaf's
symbol is read next, an internal node is written next (R174 to R176, R181). -/
def typeBitAnswered (r : Option (BitVec 1)) (s : State) : State :=
  match r with
  | none => (s.readCoded r).plan (.raise .truncatedTree)
  | some t =>
    if s.eng.next.toNat = Config.nodeCap then (s.readCoded r).plan (.raise .treeTooLarge)
    else if t = 1#1 then openLeaf s.eng.next (allocate (s.readCoded r))
    else (allocate (s.readCoded r)).plan (.writeNode (Node.internal 0#40 0#10 0#10))

/-- The answer to the READ(9) of a leaf's symbol: EOF is TRUNCATED_TREE, a value above 256 is BAD_SYMBOL, and the leaf is written next
only if neither holds (R174, R177, R178). -/
def symbolAnswered (r : Option Symbol) (s : State) : State :=
  match r with
  | none => (s.readCoded r).plan (.raise .truncatedTree)
  | some v =>
    if 256 < v.toNat then (s.readCoded r).plan (.raise .badSymbol)
    else (s.readCoded r).plan (.writeNode (Node.leaf v 0#40))

end Sys2Proof.Machine
end

