-- ==== Sys2Proof/Machine/Decoder.lean ====
section
/-!
DEFINITION. huffman_decoder: the phases MAGIC_IN and DECODE of a DECOMPRESS (45_decoder.md R205 to R222).
-/

namespace Sys2Proof.Machine

/-- The answer to the READ(32): EOF and every other value are BAD_MAGIC; after the magic PHASE <- HEADER_IN is next (R207; 43_tree_serializer.md
R174). -/
def magicAnswered (r : Option Word) (s : State) : State :=
  match r with
  | none => (s.readCoded r).plan (.raise .badMagic)
  | some v =>
    if v = Config.magic then (s.readCoded r).plan (.enterPhase .headerIn) else (s.readCoded r).plan (.raise .badMagic)

/-- DECODE with an internal root: the walk starts there and its first READ(1) is issued (R209, R211). -/
def startWalk (s : State) : State :=
  let t := s.await (.inReq .walkBit)
  { t with eng := { t.eng with cur := s.regs.root } }

/-- DECODE begins: an internal root starts the walk, a leaf root that is PEOF goes straight to PHASE <- CLOSE with no READ, and any
other leaf root is DEGENERATE_TREE, raised in phase DECODE (R205, R209, R210). -/
def startDecode (s : State) : State :=
  if (s.nodeAt s.regs.root).isLeaf then
    if (s.nodeAt s.regs.root).symbol = Config.peof then s.plan (.enterPhase .close)
    else s.plan (.raise .degenerateTree)
  else startWalk s

/-- The parse is complete: ROOT is 0 and TREE_DEPTH is set; PHASE <- DECODE is next, whatever the root is (43_tree_serializer.md R180;
R205, R206, R208). -/
def finishParseEvent (s : State) : State := (setRoot 0#10 s).plan (.enterPhase .decode)

/-- The child of CUR on bit `b` (R211). -/
def State.child (s : State) (b : BitVec 1) : NodeIndex :=
  if b = 0#1 then (s.nodeAt s.eng.cur).left else (s.nodeAt s.eng.cur).right

/-- CUR is a new node: at the PEOF leaf the walk ends and PHASE <- CLOSE is next (R212, R216), at a byte leaf the byte is written
(R213), at an internal node the next bit is read (R211). -/
def arrive (s : State) : State :=
  if (s.nodeAt s.eng.cur).isLeaf then
    if (s.nodeAt s.eng.cur).symbol = Config.peof then s.plan (.enterPhase .close)
    else s.await (.outReq .byteOut)
  else s.await (.inReq .walkBit)

/-- CUR <- i. -/
def State.moveTo (s : State) (i : NodeIndex) : State := { s with eng := { s.eng with cur := i } }

/-- The answer to the READ(1) of a walk step: EOF is MISSING_TERMINATOR, a bit moves CUR (R211). -/
def walkAnswered (r : Option (BitVec 1)) (s : State) : State :=
  match r with
  | none => (s.readCoded r).plan (.raise .missingTerminator)
  | some b => arrive ((s.readCoded r).moveTo (s.child b))

/-- The byte has been written: SYM_COUNT goes up and the walk starts again at the root (R213). -/
def byteAccepted (s : State) : State := startWalk s.countSym

end Sys2Proof.Machine
end

