-- ==== Sys2Proof/Machine/Tokens.lean ====
section
/-!
DEFINITION. The meanings of the wire tokens MAGIC, TREE_INTERNAL and TREE_LEAF (45_decoder.md R207; 43_tree_serializer.md R174):
the READs that bring the token in and then the event that writes its node, or the error entry where the token is in error, one after
the other with no event of another agent between them (log 10). A token is met only where the engine has the READ for it outstanding
(30_encoding.md R119, 20_memory.md R83).
-/

namespace Sys2Proof.Machine

/-- If the token's own event is next, the write of its node or its error entry, it is taken. -/
def State.takeTokenEvent (s : State) : State :=
  match s.eng.todo with
  | some (.raise e) => s.errorEntry e
  | some (.writeNode n) => writeNodeEvent n s
  | _ => s

/-- MAGIC: READ(32) answered 0xFACE8201 (R207). -/
def execMagic (s : State) : Host.Outcome State Fault Refusal :=
  if s.awaits .magicIn then .next (magicAnswered (some Config.magic) s) else .fault .noReadOutstanding

/-- TREE_INTERNAL: READ(1) answered 0, then its node (R174, R176). -/
def execTreeInternal (s : State) : Host.Outcome State Fault Refusal :=
  if s.awaits .typeBit then .next (typeBitAnswered (some 0#1) s).takeTokenEvent else .fault .noReadOutstanding

/-- The READ(9) of a leaf's symbol, where the type bit has left one outstanding. -/
def leafSymbolRead (v : Symbol) (s : State) : State :=
  if s.awaits .symbolField then (symbolAnswered (some v) s).takeTokenEvent else s

/-- TREE_LEAF: READ(1) answered 1, then READ(9) answered with the symbol, then its node; over capacity the symbol is not read (R174,
R176 to R178, R181). -/
def execTreeLeaf (v : Symbol) (s : State) : Host.Outcome State Fault Refusal :=
  if s.awaits .typeBit then .next (leafSymbolRead v (typeBitAnswered (some 1#1) s).takeTokenEvent)
  else .fault .noReadOutstanding

end Sys2Proof.Machine
end

