-- ==== Sys2Proof/Machine/Dispatch.lean ====
section
/-!
DEFINITION. exec: one arm per row of the opcode table, each one call of the instruction's meaning.
-/

namespace Sys2Proof.Machine

def exec (i : Instr) (s : State) : Host.Outcome State Fault Refusal :=
  match i with
  | .nop => Sys2Proof.Machine.execNop s
  | .compress => Sys2Proof.Machine.execCompress s
  | .decompress => Sys2Proof.Machine.execDecompress s
  | .clear => Sys2Proof.Machine.execClear s
  | .magic => Sys2Proof.Machine.execMagic s
  | .treeInternal => Sys2Proof.Machine.execTreeInternal s
  | .treeLeaf v => Sys2Proof.Machine.execTreeLeaf v s

end Sys2Proof.Machine
end

