-- ==== Sys2Proof/Machine/CodeTableGen.lean ====
section
/-!
DEFINITION. huffman_code_table_gen: the CODEGEN event (42_code_table_gen.md R155 to R163).
-/

namespace Sys2Proof.Machine

/-- The depth-first walk: 0 for a left edge, 1 for a right edge, each leaf's path recorded as its symbol's code (R156, R157).
`fuel` bounds the levels; no tree is deeper than its number of slots (00_scope.md R12). -/
def walk : Nat → NodeIndex → List Bool → State → State
  | 0, _, _, s => s
  | fuel + 1, i, p, s =>
    if (s.nodeAt i).isLeaf then s.setCode (s.nodeAt i).symbol.toNat (pathEntry p)
    else walk fuel (s.nodeAt i).right (p ++ [true]) (walk fuel (s.nodeAt i).left (p ++ [false]) s)

/-- CODEGEN: every entry absent, then the walk from the root (R157). -/
def genCodes (s : State) : State := walk Config.nodeCap s.regs.root [] s.clearCode

/-- The CODEGEN event; PHASE <- MAGIC_OUT is next (R157; 44_encoder.md R189). -/
def codegenEvent (s : State) : State := (genCodes s).plan (.enterPhase .magicOut)

end Sys2Proof.Machine
end

