-- ==== Sys2Proof/Machine/Encoder.lean ====
section
/-!
DEFINITION. huffman_encoder: the phases MAGIC_OUT, ENCODE, TERMINATE and CLOSE of a COMPRESS (44_encoder.md R185 to R201).
-/

namespace Sys2Proof.Machine

/-- The magic has been written: PHASE <- HEADER_OUT is next (R189, R190; 43_tree_serializer.md R166). -/
def magicAccepted (s : State) : State := s.plan (.enterPhase .headerOut)

/-- The CODE entry of the symbol being emitted. -/
def State.encCode (s : State) : CodeEntry := s.codeAt s.eng.encSym.toNat

/-- The symbol's code is out: after PEOF's, PHASE <- CLOSE is next (R195, R196); after a byte's, ENC_COUNT goes up and the next
READ(8) is issued (R191, R192). -/
def codeDone (s : State) : State :=
  if s.eng.encSym = Config.peof then s.plan (.enterPhase .close)
  else s.countEnc.await (.inReq .encodeByte)

/-- The next bit of the code, if there is one (R194). -/
def emitNext (s : State) : State :=
  if s.eng.encPos < s.encCode.len.toNat then s.await (.outReq .codeBit) else codeDone s

/-- emit(sym) begins (R194). -/
def startEmit (sym : Symbol) (s : State) : State :=
  emitNext { s with eng := { s.eng with encSym := sym, encPos := 0 } }

/-- A code bit has been written (R194). -/
def codeBitAccepted (s : State) : State :=
  emitNext { s with eng := { s.eng with encPos := s.eng.encPos + 1 } }

/-- The answer to a READ(8) of pass 2: EOF ends the pass, and PHASE <- TERMINATE is next, on the empty input too (R186, R191, R195); a byte
with no code is NO_CODE (R193); any other byte is emitted (R194). -/
def encodeAnswered (r : Option Byte) (s : State) : State :=
  match r with
  | none => (s.readRaw r).plan (.enterPhase .terminate)
  | some b =>
    if (s.codeAt b.toNat).present then startEmit (b.setWidth 9) (s.readRaw r)
    else (s.readRaw r).plan (.raise .noCode)

/-- CLOSE has been accepted: the command's ending event is next (R196; 45_decoder.md R216). The two are events
of their own (20_memory.md R94); a host access can come between them, a reset cannot (`State.defers`; log 18). -/
def closeAccepted (s : State) : State := s.plan .finish

/-- The ending event: STATE <- DONE, and the engine takes no further step (R196; 45_decoder.md R216). -/
def finishEvent (s : State) : State :=
  let t := s.halt
  { t with regs := { t.regs with state := .done } }

end Sys2Proof.Machine
end

