-- ==== Sys2Proof/Machine/FreqCounter.lean ====
section
/-!
DEFINITION. huffman_freq_counter: phase COUNT and the rewind after it (40_freq_counter.md R130 to R136; 44_encoder.md R187,
R188).
-/

namespace Sys2Proof.Machine

/-- `sat_inc` (00_scope.md R16; 40_freq_counter.md R133). -/
def satInc (v : Word) : Word := if v = Config.countMax then v else v + 1#32

/-- The clearing event, after which the first READ(8) is issued (R131). -/
def clearFreqEvent (s : State) : State := s.clearFreq.await (.inReq .countByte)

/-- One byte counted (R131 to R133). -/
def countByte (b : Byte) (s : State) : State :=
  (s.setFreq b.toNat (satInc (s.freqAt b.toNat))).countSym

/-- The event that counts a byte: FREQ[b] is updated and SYM_COUNT goes up, and the next READ(8) is issued (R131; 20_memory.md R94). -/
def countByteEvent (b : Byte) (s : State) : State := (countByte b s).await (.inReq .countByte)

/-- The answer to a READ(8) of pass 1: the update of FREQ is next; EOF ends the phase, and PHASE <- REWIND is next (R131; 20_memory.md R94;
44_encoder.md R188). -/
def countAnswered (r : Option Byte) (s : State) : State :=
  match r with
  | none => (s.readRaw r).plan (.enterPhase .rewind)
  | some b => (s.readRaw r).plan (.countByte b)

/-- The response to the RESET, whose content is ignored: PHASE <- BUILD is next (20_memory.md R82; 41_tree_builder.md R147; 44_encoder.md
R188). -/
def rewindAnswered (s : State) : State := (s.recordIn .reset).plan (.enterPhase .build)

end Sys2Proof.Machine
end

