-- ==== Sys2Proof/Machine/Engine.lean ====
section
/-!
DEFINITION. One event of the engine (20_memory.md R94): the completion of its outstanding transaction by the environment, or its
internal event. While a transaction is outstanding and the environment does not complete it, nothing happens (10_state.md R57;
93_implementation_defined.md I8).
-/

namespace Sys2Proof.Machine

/-- The IN environment answers the outstanding request (20_memory.md R81, R82). -/
def answered (w : InWait) (a : Answer) (s : State) : State :=
  match w with
  | .countByte => countAnswered (a.field 8) s
  | .rewind => rewindAnswered s
  | .encodeByte => encodeAnswered (a.field 8) s
  | .magicIn => magicAnswered (a.field 32) s
  | .typeBit => typeBitAnswered (a.field 1) s
  | .symbolField => symbolAnswered (a.field 9) s
  | .walkBit => walkAnswered (a.field 1) s

/-- The outstanding OUT transaction with its payload (20_memory.md R85, R86). -/
def outTx (w : OutWait) (s : State) : OutTx :=
  match w with
  | .magicOut => writeTx 32 Config.magic
  | .nodeBit => writeTx 1 (BitVec.ofBool s.topNode.isLeaf)
  | .nodeSymbol => writeTx 9 s.topNode.symbol
  | .codeBit => writeTx 1 (BitVec.ofBool (s.encCode.bit s.eng.encPos))
  | .byteOut => writeTx 8 (s.nodeAt s.eng.cur).symbol
  | .close => .close

/-- What a WRITE adds to BIT_COUNT: its width in a COMPRESS; the 8-bit WRITEs of a DECOMPRESS and CLOSE add nothing
(10_state.md R46). -/
def outBits : OutWait → Nat
  | .magicOut => 32
  | .nodeBit => 1
  | .nodeSymbol => 9
  | .codeBit => 1
  | .byteOut => 0
  | .close => 0

/-- What the engine does once the transaction is accepted. -/
def afterOut (w : OutWait) (s : State) : State :=
  match w with
  | .magicOut => magicAccepted s
  | .nodeBit => nodeBitAccepted s
  | .nodeSymbol => nodeSymbolAccepted s
  | .codeBit => codeBitAccepted s
  | .byteOut => byteAccepted s
  | .close => closeAccepted s

/-- The OUT environment accepts the outstanding transaction (20_memory.md R85, R86). -/
def outAccepted (w : OutWait) (s : State) : State :=
  afterOut w ((s.recordOut (outTx w s)).countBits (outBits w))

/-- What phase `p` begins with once PHASE has been written: the transaction it issues, or the internal event it takes next (44_encoder.md
R185, 45_decoder.md R205). No PHASE <- p of a command writes NONE or MAGIC_IN, the second of which acceptance writes (46_control.md
R226). -/
def beginPhase (p : Phase) (s : State) : State :=
  match p with
  | .none => s.halt
  | .count => s.plan .clearFreq
  | .rewind => s.await (.inReq .rewind)
  | .build => s.plan .build
  | .codegen => s.plan .codegen
  | .magicOut => s.await (.outReq .magicOut)
  | .headerOut => startHeader s
  | .encode => s.await (.inReq .encodeByte)
  | .terminate => startEmit Config.peof s
  | .close => s.await (.outReq .close)
  | .magicIn => s.halt
  | .headerIn => startParse s
  | .decode => startDecode s

/-- PHASE <- p, an event of its own, which writes no other register and no table (00_scope.md R17; 20_memory.md R94; 10_state.md
R33). -/
def enterPhaseEvent (p : Phase) (s : State) : State := beginPhase p (s.setPhase p)

/-- The engine's internal event (20_memory.md R94). -/
def internalEvent (e : Internal) (s : State) : State :=
  match e with
  | .clearFreq => clearFreqEvent s
  | .countByte b => countByteEvent b s
  | .build => buildEvent s
  | .codegen => codegenEvent s
  | .enterPhase p => enterPhaseEvent p s
  | .writeNode n => writeNodeEvent n s
  | .link i => linkEvent i s
  | .finishParse => finishParseEvent s
  | .raise err => s.errorEntry err
  | .finish => finishEvent s

/-- The IN environment has given its next answers. -/
def State.dropAnswers (s : State) (n : Nat) : State :=
  { s with env := { s.env with inScript := s.env.inScript.drop n } }

/-- The OUT environment will accept one transaction less. -/
def State.spendCredit (s : State) : State :=
  { s with env := { s.env with outCredit := s.env.outCredit - 1 } }

/-- The event of the engine's side that is enabled, if one is (20_memory.md R94; 10_state.md R57). In IDLE, DONE and ERROR the
engine takes no step (60_exceptions.md R257). -/
def engineEvent (s : State) : State :=
  if s.regs.state ≠ .busy then s
  else match s.eng.pending with
    | some (.inReq w) =>
      match s.env.inScript with
      | [] => s
      | a :: _ => answered w a (s.dropAnswers 1)
    | some (.outReq w) => if s.env.outCredit = 0 then s else outAccepted w s.spendCredit
    | none =>
      match s.eng.todo with
      | some e => internalEvent e s
      | none => s

/-- CLOSE has been accepted, and the event that ends the command is next (44_encoder.md R196, 45_decoder.md R216). -/
def State.closing (s : State) : Bool := s.busy && s.eng.pending = none && s.eng.todo = some .finish

/-- The event `e` cannot happen before the engine's next one. DEDUCED (log 18): an edge with `rst` = 1 that comes after the acceptance of
CLOSE comes after STATE <- DONE too, since a command that a reset abandons while BUSY leaves no CLOSE (70_reset_and_hazards.md R271, R283;
93_implementation_defined.md I19); a host access can come between them (20_memory.md R95, 60_exceptions.md R251). -/
def State.defers (s : State) (e : Event) : Bool := e = .reset && s.closing

end Sys2Proof.Machine
end

