-- ==== Sys2Proof/Machine/Host.lean ====
section
/-!
DEFINITION. The host register space (20_memory.md R70 to R79): the address map, reads and writes.
-/

namespace Sys2Proof.Machine

/-- What an address reaches (R74). -/
inductive Region where
  | cmd | status | irqEn | magic | config
  | symCount | encCount | bitCount | leafCount | nodeCount | root | treeDepth
  /-- FREQ[i] (R75) -/
  | freq (i : Nat)
  /-- CODE_LEN[i] (R76) -/
  | codeLen (i : Nat)
  /-- CODE_BITS[i][w] (R76) -/
  | codeBits (i w : Nat)
  /-- word k of NODE[i] (R77) -/
  | node (i k : Nat)
  | unmapped
  deriving DecidableEq, Repr

/-- The word a byte address reaches: bits [1:0] are ignored (R78). -/
def wordBase (addr : RegAddr) : Nat := 4 * (addr.toNat / 4)

/-- The control, status, counter and tree registers at 0x0000 to 0x002C, by word number (R74). -/
def registerRegion : Nat → Region
  | 0 => .cmd
  | 1 => .status
  | 2 => .irqEn
  | 3 => .magic
  | 4 => .config
  | 5 => .symCount
  | 6 => .encCount
  | 7 => .bitCount
  | 8 => .leafCount
  | 9 => .nodeCount
  | 10 => .root
  | 11 => .treeDepth
  | _ => .unmapped

/-- The table windows, by byte address of the word (R74 to R77). -/
def windowRegion (a : Nat) : Region :=
  if 0x0400 ≤ a ∧ a ≤ 0x07FC then .freq ((a - 0x0400) / 4)
  else if 0x0800 ≤ a ∧ a ≤ 0x0C00 then .codeLen ((a - 0x0800) / 4)
  else if 0x1000 ≤ a ∧ a ≤ 0x301C then .codeBits ((a - 0x1000) / 32) ((a - 0x1000) % 32 / 4)
  else if 0x4000 ≤ a ∧ a ≤ 0x600C then .node ((a - 0x4000) / 16) ((a - 0x4000) % 16 / 4)
  else .unmapped

/-- The address map (R74). -/
def regionOf (addr : RegAddr) : Region :=
  if wordBase addr ≤ 0x002C then registerRegion (wordBase addr / 4) else windowRegion (wordBase addr)

/-- CODE_LEN: bit [31] PRESENT, bits [8:0] LEN (R76). -/
def codeLenWord (c : CodeEntry) : Word := BitVec.ofNat 32 (2 ^ 31 * c.present.toNat + c.len.toNat)

/-- CODE_BITS word `w`: register bit 31-k is code bit 32w+k, 0 at and above LEN (R76). -/
def codeBitsWord (c : CodeEntry) (w : Nat) : Word :=
  BitVec.ofNat 32 (ofBits ((List.range 32).map fun k => decide (32 * w + k < c.len.toNat) && c.bit (32 * w + k)))

/-- Word `k` of a NODE entry (10_state.md R54). -/
def nodeWord (n : Node) (k : Nat) : Word :=
  if k = 0 then BitVec.ofNat 32 (n.left.toNat + 2 ^ 16 * n.right.toNat + 2 ^ 31 * n.isLeaf.toNat)
  else if k = 1 then n.symbol.setWidth 32
  else if k = 2 then n.weight.setWidth 32
  else (n.weight.extractLsb' 32 8).setWidth 32

/-- NODE[i] as the host sees it: a slot not in use is UNSPECIFIED (10_state.md R53; I4). -/
def State.nodeSeen (s : State) (i : Nat) : Node :=
  if i < s.regs.nodeCount.toNat then s.nodeAt (BitVec.ofNat 10 i) else s.staleNode i

/-- STATUS as the host sees it: while BUSY, PHASE is one of the running command's phases and ERR_CODE reads 0 (10_state.md R36,
R58). -/
def State.statusSeen (s : State) : Word :=
  if s.busy then statusWord .busy s.regs.mode s.regs.cmdErr (busyPhaseCode s.regs.mode s.env.draws) none
  else statusWord s.regs.state s.regs.mode s.regs.cmdErr s.regs.phase.code s.regs.errCode

/-- A counter, tree register or table word, exact when no command runs and UNSPECIFIED while one does (10_state.md R58). -/
def State.whenNotBusy (s : State) (v : Word) : Word := if s.busy then Config.busyWord s.env.draws else v

/-- The value a host read returns (R71; 10_state.md R34, R58). -/
def State.readWord (s : State) (r : Region) : Word :=
  match r with
  | .cmd => 0#32
  | .status => s.statusSeen
  | .irqEn => irqEnWord s.regs.irqEn
  | .magic => Config.magic
  | .config => configWord
  | .symCount => s.whenNotBusy s.regs.symCount
  | .encCount => s.whenNotBusy s.regs.encCount
  | .bitCount => s.whenNotBusy s.regs.bitCount
  | .leafCount => s.whenNotBusy (s.regs.leafCount.setWidth 32)
  | .nodeCount => s.whenNotBusy (s.regs.nodeCount.setWidth 32)
  | .root => s.whenNotBusy (s.regs.root.setWidth 32)
  | .treeDepth => s.whenNotBusy (s.regs.treeDepth.setWidth 32)
  | .freq i => s.whenNotBusy (s.freqAt i)
  | .codeLen i => s.whenNotBusy (codeLenWord (s.codeAt i))
  | .codeBits i w => s.whenNotBusy (codeBitsWord (s.codeAt i) w)
  | .node i k => s.whenNotBusy (nodeWord (s.nodeSeen i) k)
  | .unmapped => 0#32

/-- A host read: the value goes to the host, the block's state does not change (R71, R79). A read while BUSY uses up one draw
of the model's counter, so that no two such reads are tied together (10_state.md R58; log 6). -/
def hostRead (addr : RegAddr) (s : State) : State :=
  { s with env := { s.env with hostReads := s.env.hostReads ++ [(addr, s.readWord (regionOf addr))]
                               draws := if s.busy then s.env.draws + 1 else s.env.draws } }

/-- A host write to a word other than CMD: IRQ_EN takes bit 0, every other write is ignored (R72, R73; 46_control.md
R232). -/
def writeRegister (addr : RegAddr) (v : Word) (s : State) : State :=
  match regionOf addr with
  | .irqEn => { s with regs := { s.regs with irqEn := v.getLsbD 0 } }
  | _ => s

end Sys2Proof.Machine
end

