-- ==== Sys2Proof/Machine/Fetch.lean ====
section
/-!
DEFINITION. Where the next instruction comes from: a word written to CMD, or the answers the IN environment has ready for the
READs of a wire token (30_encoding.md R100, R119; 10_state.md R31).
-/

namespace Sys2Proof.Machine

/-- The command word a host write presents, if it is a write to CMD (10_state.md R35). -/
def commandWord (addr : RegAddr) (v : Word) : Option Word :=
  match regionOf addr with
  | .cmd => some v
  | _ => none

/-- The bits that READs of the given widths would return, if the environment has an answer for each and none is EOF. -/
def answerBits : List Nat → List Answer → Option (List Bool)
  | [], _ => some []
  | _ :: _, [] => none
  | w :: ws, a :: as =>
    match a.field w with
    | none => none
    | some v => (answerBits ws as).map (bitView w v ++ ·)

/-- The instruction in the answers to READs of the given widths, with the number of answers. -/
def tokenIn (p : Port) (ws : List Nat) (as : List Answer) : Option (Instr × Nat) :=
  match answerBits ws as with
  | none => none
  | some bs =>
    match decode p bs with
    | .ok (i, []) => some (i, ws.length)
    | _ => none

/-- The next wire token, where the engine stands at one and the whole of it has been answered: READ(32) at the magic, READ(1)
and for a leaf READ(9) at a header node. Where NODE is full no token is taken whole: the type bit alone decides (43_tree_serializer.md
R176). -/
def fetchToken (s : State) : Option (Instr × Nat) :=
  if s.awaits .magicIn then tokenIn .magic [32] s.env.inScript
  else if s.awaits .typeBit && s.eng.next.toNat ≠ Config.nodeCap then
    match tokenIn .header [1] s.env.inScript with
    | some t => some t
    | none => tokenIn .header [1, 9] s.env.inScript
  else none

end Sys2Proof.Machine
end

