-- ==== Sys2Proof/Machine/Step.lean ====
section
/-!
DEFINITION. One step: the next event of the agenda, and with no event left the engine's side (20_memory.md R94, R95; a reset may have
to wait for the event that ends a command, log 18).
-/

namespace Sys2Proof.Machine

/-- The agenda without the event that happens now. -/
def State.withAgenda (s : State) (rest : List Event) : State := { s with env := { s.env with agenda := rest } }

/-- A host write: a word written to CMD goes to the command decoder (20_memory.md R72; 46_control.md R225). -/
def hostWrite (addr : RegAddr) (v : Word) (s : State) : Host.Outcome State Fault Refusal :=
  match commandWord addr v with
  | none => .next (writeRegister addr v s)
  | some c =>
    match decodeCommand c with
    | .ok i => exec i s
    | .error _ => .next (illegalWord s)

/-- An event of the agenda happens. -/
def happens (e : Event) (s : State) : Host.Outcome State Fault Refusal :=
  match e with
  | .hostRead addr => .next (hostRead addr s)
  | .hostWrite addr v => hostWrite addr v s
  | .engine => .next (engineEvent s)
  | .reset => .next s.applyReset

/-- With no event of the agenda left the engine's side runs freely: a whole wire token where one is ready, else one event. -/
def freeRun (s : State) : Host.Outcome State Fault Refusal :=
  match fetchToken s with
  | some (i, n) => exec i (s.dropAnswers n)
  | none => .next (engineEvent s)

/-- One step of the machine: the next event of the agenda. Where it is a reset that comes after the acceptance of CLOSE, STATE <- DONE comes
first and the reset stays the next event (`State.defers`; log 18). -/
def step (s : State) : Host.Outcome State Fault Refusal :=
  match s.env.agenda with
  | [] => freeRun s
  | e :: rest => if s.defers e then .next (engineEvent s) else happens e (s.withAgenda rest)

/-! ### An instruction placed where the next step fetches it -/

/-- The engine stands at the given READ of a DECOMPRESS and the IN environment's next answers are `as`. -/
def State.atToken (s : State) (phase : Phase) (w : InWait) (as : List Answer) : State :=
  { s with
    regs := { s.regs with state := .busy, mode := .decompress, phase := phase, errCode := none }
    eng := { s.eng with pending := some (.inReq w), todo := none, next := 0#10, stack := [] }
    env := { s.env with agenda := [], inScript := as ++ s.env.inScript } }

/-- `s` with the table word `w` of `nbits` bits where `step` fetches its next instruction: a command word is the next host write
to CMD; the magic and the header tokens are the next answers of IN, with the engine at the READ for them (log 9). -/
def State.withFetchWord (s : State) (nbits w : Nat) : State :=
  if nbits = 8 ∨ nbits = 1 then s.atToken .headerIn .typeBit [{ eof := false, data := BitVec.ofNat 32 w }]
  else if nbits = 16 ∨ nbits = 10 then
    s.atToken .headerIn .typeBit
      [{ eof := false, data := BitVec.ofNat 32 (w / 512) }, { eof := false, data := BitVec.ofNat 32 (w % 512) }]
  else if BitVec.ofNat 32 w = Config.magic then
    s.atToken .magicIn .magicIn [{ eof := false, data := BitVec.ofNat 32 w }]
  else { s with env := { s.env with agenda := .hostWrite 0x0000#16 (BitVec.ofNat 32 w) :: s.env.agenda } }

end Sys2Proof.Machine
end

