-- ==== Sys2Proof/Machine/CodeTree.lean ====
section
/-!
DEFINITION. The CodeTree as the source has it (00_scope.md R20): a strict binary tree with symbols at its leaves, its codes
(42_code_table_gen.md R156), its header (30_encoding.md R112), and what it is for the NODE table to hold one (10_state.md R53,
R55).
-/

namespace Sys2Proof.Machine

/-- A strict binary tree with a symbol at each leaf (R20). -/
inductive CodeTree where
  | leaf (sym : Symbol)
  | node (l r : CodeTree)
  deriving DecidableEq, Repr

/-- The symbols of the leaves, left to right. -/
def CodeTree.symbols : CodeTree → List Symbol
  | .leaf sym => [sym]
  | .node l r => l.symbols ++ r.symbols

/-- The number of leaves (R12). -/
def CodeTree.leaves : CodeTree → Nat
  | .leaf _ => 1
  | .node l r => l.leaves + r.leaves

/-- The number of nodes, 2L - 1 (R12). -/
def CodeTree.size : CodeTree → Nat
  | .leaf _ => 1
  | .node l r => l.size + r.size + 1

/-- The depth of the deepest leaf; the root has depth 0 (10_state.md R50). -/
def CodeTree.depth : CodeTree → Nat
  | .leaf _ => 0
  | .node l r => 1 + max l.depth r.depth

/-- The header: `0` and the two subtrees, or `1` and the 9-bit symbol, most significant bit first (30_encoding.md R112). -/
def CodeTree.header : CodeTree → List Bool
  | .leaf sym => true :: bitView 9 sym
  | .node l r => false :: (l.header ++ r.header)

/-- The WRITEs of SERIALIZE (43_tree_serializer.md R166). -/
def CodeTree.writes : CodeTree → List OutTx
  | .leaf sym => [writeTx 1 1#1, writeTx 9 sym]
  | .node l r => writeTx 1 0#1 :: (l.writes ++ r.writes)

/-- Every leaf with its path from the root: 0 for a left edge, 1 for a right edge (42_code_table_gen.md R156). -/
def CodeTree.codes : CodeTree → List (Symbol × List Bool)
  | .leaf sym => [(sym, [])]
  | .node l r => l.codes.map (fun c => (c.1, false :: c.2)) ++ r.codes.map (fun c => (c.1, true :: c.2))

/-- The subtree a path leads to (45_decoder.md R211). -/
def CodeTree.follow : CodeTree → List Bool → Option CodeTree
  | t, [] => some t
  | .leaf _, _ :: _ => none
  | .node l _, false :: p => l.follow p
  | .node _ r, true :: p => r.follow p

/-- Every leaf holds a Symbol, 0 to 256 (30_encoding.md R114). -/
def CodeTree.symbolsOk (t : CodeTree) : Bool := t.symbols.all fun v => v.toNat ≤ 256

/-- NODE holds the tree `t` at slot `i`: a leaf with its symbol, or an internal node whose children are held at LEFT and RIGHT
(10_state.md R53, R55). -/
def State.holdsTree (s : State) : CodeTree → NodeIndex → Prop
  | .leaf sym, i => (s.nodeAt i).isLeaf = true ∧ (s.nodeAt i).symbol = sym
  | .node l r, i =>
    (s.nodeAt i).isLeaf = false ∧ s.holdsTree l (s.nodeAt i).left ∧ s.holdsTree r (s.nodeAt i).right

/-- NODE holds the tree `t` in pre-order from slot `k` on, as a parse numbers it: an internal node's left child is the next slot and
its right child the slot after the left subtree, and every weight is 0 (43_tree_serializer.md R172, R173). -/
def State.holdsPreorder (s : State) : CodeTree → Nat → Prop
  | .leaf sym, k => s.nodeAt (BitVec.ofNat 10 k) = Node.leaf sym 0#40
  | .node l r, k =>
    s.nodeAt (BitVec.ofNat 10 k) = Node.internal 0#40 (BitVec.ofNat 10 (k + 1)) (BitVec.ofNat 10 (k + 1 + l.size)) ∧
      s.holdsPreorder l (k + 1) ∧ s.holdsPreorder r (k + 1 + l.size)

end Sys2Proof.Machine
end

