-- ==== Sys2Proof/Safety.lean ====
section
/-!
DEFINITION. What claims about a run are stated in: the relation between STATUS and the engine's position (10_state.md R32, R33, R39,
R57), the legal transitions of STATE (R32), and runs of the engine's side.
-/

namespace Sys2Proof.Machine

/-- The phase in which an error is raised (60_exceptions.md R241). -/
def HuffError.phase : HuffError → Phase
  | .badMagic => .magicIn
  | .truncatedTree => .headerIn
  | .missingTerminator => .decode
  | .badSymbol => .headerIn
  | .treeTooLarge => .headerIn
  | .degenerateTree => .decode
  | .noCode => .encode

/-- The command that can raise an error (60_exceptions.md R241). -/
def HuffError.mode : HuffError → Mode
  | .badMagic => .decompress
  | .truncatedTree => .decompress
  | .missingTerminator => .decompress
  | .badSymbol => .decompress
  | .treeTooLarge => .decompress
  | .degenerateTree => .decompress
  | .noCode => .compress

/-- MODE and PHASE while an IN request is outstanding (44_encoder.md R185, 45_decoder.md R205). -/
def InWait.fits (w : InWait) (m : Mode) (p : Phase) : Bool :=
  match w with
  | .countByte => m = .compress && p = .count
  | .rewind => m = .compress && p = .rewind
  | .encodeByte => m = .compress && p = .encode
  | .magicIn => m = .decompress && p = .magicIn
  | .typeBit => m = .decompress && p = .headerIn
  | .symbolField => m = .decompress && p = .headerIn
  | .walkBit => m = .decompress && p = .decode

/-- MODE, PHASE and ENC_SYM while an OUT transaction is outstanding (44_encoder.md R185, 45_decoder.md R205). -/
def OutWait.fits (w : OutWait) (m : Mode) (p : Phase) (encSym : Symbol) : Bool :=
  match w with
  | .magicOut => m = .compress && p = .magicOut
  | .nodeBit => m = .compress && p = .headerOut
  | .nodeSymbol => m = .compress && p = .headerOut
  | .codeBit => m = .compress && (if encSym = Config.peof then p = .terminate else p = .encode)
  | .byteOut => m = .decompress && p = .decode
  | .close => p = .close

/-- The phase that follows `p` in a command that succeeds: COUNT, REWIND, BUILD, CODEGEN, MAGIC_OUT, HEADER_OUT, ENCODE,
TERMINATE, CLOSE (44_encoder.md R186), and MAGIC_IN, HEADER_IN, DECODE, CLOSE (45_decoder.md R206). -/
def Phase.following (p : Phase) (m : Mode) : Phase :=
  match m, p with
  | .compress, .count => .rewind
  | .compress, .rewind => .build
  | .compress, .build => .codegen
  | .compress, .codegen => .magicOut
  | .compress, .magicOut => .headerOut
  | .compress, .headerOut => .encode
  | .compress, .encode => .terminate
  | .compress, .terminate => .close
  | .decompress, .magicIn => .headerIn
  | .decompress, .headerIn => .decode
  | .decompress, .decode => .close
  | _, p => p

/-- MODE and PHASE before an internal event: before PHASE <- p the phase that `p` follows, and before COUNT's own, COUNT, which
acceptance wrote (44_encoder.md R185, 45_decoder.md R205; 46_control.md R226; 60_exceptions.md R241). -/
def Internal.fits (e : Internal) (m : Mode) (p : Phase) : Bool :=
  match e with
  | .clearFreq => m = .compress && p = .count
  | .countByte _ => m = .compress && p = .count
  | .build => m = .compress && p = .build
  | .codegen => m = .compress && p = .codegen
  | .enterPhase q => if q = .count then m = .compress && p = .count else q ≠ p && q = p.following m
  | .writeNode _ => m = .decompress && p = .headerIn
  | .link _ => m = .decompress && p = .headerIn
  | .finishParse => m = .decompress && p = .headerIn
  | .raise err => m = err.mode && p = err.phase
  | .finish => p = .close

/-- STATUS and the engine's position agree. IDLE: PHASE NONE, no error, no step to take. BUSY: no error yet, and exactly one of an
outstanding transaction and an internal event, each in its own phase and mode. DONE: PHASE CLOSE. ERROR: ERR_CODE names the error,
PHASE and MODE are those it is raised in (10_state.md R32, R33, R39, R57; 60_exceptions.md R241). -/
def State.coherent (s : State) : Bool :=
  match s.regs.state with
  | .idle => s.regs.phase = .none && s.regs.errCode = none && s.eng.pending = none && s.eng.todo = none
  | .busy =>
    s.regs.errCode = none &&
      (match s.eng.pending, s.eng.todo with
       | some (.inReq w), none => w.fits s.regs.mode s.regs.phase
       | some (.outReq w), none => w.fits s.regs.mode s.regs.phase s.eng.encSym
       | none, some e => e.fits s.regs.mode s.regs.phase
       | _, _ => false)
  | .done => s.regs.phase = .close && s.regs.errCode = none && s.eng.pending = none && s.eng.todo = none
  | .error =>
    (match s.regs.errCode with
     | some e => s.regs.phase = e.phase && s.regs.mode = e.mode
     | none => false) && s.eng.pending = none && s.eng.todo = none

/-- The transitions of STATE in one event, staying where it is included (10_state.md R32). -/
def RunState.mayBecome : RunState → RunState → Bool
  | .idle, .idle => true
  | .idle, .busy => true
  | .busy, .busy => true
  | .busy, .done => true
  | .busy, .error => true
  | .busy, .idle => false
  | .done, .done => true
  | .done, .busy => true
  | .done, .idle => true
  | .error, .error => true
  | .error, .busy => true
  | .error, .idle => true
  | _, _ => false

/-- The key (WEIGHT, index) of slot `i` is at most that of slot `j` (41_tree_builder.md R142). -/
def State.keyLe (s : State) (i j : NodeIndex) : Prop :=
  (s.nodeAt i).weight.toNat < (s.nodeAt j).weight.toNat ∨
    ((s.nodeAt i).weight.toNat = (s.nodeAt j).weight.toNat ∧ i.toNat ≤ j.toNat)

/-- `a` is the slot with the smallest key among those that `p` holds of (41_tree_builder.md R142). -/
def State.smallestKey (s : State) (p : NodeIndex → Prop) (a : NodeIndex) : Prop := p a ∧ ∀ i, p i → s.keyLe a i

/-- Slot `i` is in use below slot `n`, and no internal node from slot `first` on and below slot `n` has it as a child: it is not
yet merged when the node at `n` is made (41_tree_builder.md R143). -/
def State.unmerged (s : State) (first n : Nat) (i : NodeIndex) : Prop :=
  i.toNat < n ∧ ∀ m, first ≤ m → m < n →
    (s.nodeAt (BitVec.ofNat 10 m)).left ≠ i ∧ (s.nodeAt (BitVec.ofNat 10 m)).right ≠ i

/-- The slots of a parse's pending nodes: each waits for a child, and each was allocated before the ones above it, all before slot
`bound` (43_tree_serializer.md R172). -/
def parseStack : Nat → List Frame → Bool
  | _, [] => true
  | bound, .left i :: rest => decide (i.toNat < bound) && parseStack i.toNat rest
  | bound, .right i :: rest => decide (i.toNat < bound) && parseStack i.toNat rest
  | _, .visit _ :: _ => false

/-- NODE_COUNT is NEXT, at most NODE_CAP, and the pending nodes are slots below `bound` (43_tree_serializer.md R172, R176). -/
def State.slotsOk (s : State) (bound : Nat) : Bool :=
  decide (s.eng.next.toNat ≤ Config.nodeCap) && s.regs.nodeCount = s.eng.next && parseStack bound s.eng.stack

/-- Before the header, PHASE <- HEADER_IN included, NODE_COUNT is 0; while it is parsed the pending nodes are slots below the next free
one, or below the slot allocated last while that is still to be written, and a node that is returned is an allocated one
(43_tree_serializer.md R172, R174, R176). -/
def State.parseOk (s : State) : Bool :=
  match s.regs.state, s.eng.pending, s.eng.todo with
  | .busy, some (.inReq .magicIn), _ => s.regs.nodeCount = 0#10
  | .busy, none, some (.enterPhase .headerIn) => s.regs.nodeCount = 0#10
  | .busy, some (.inReq .typeBit), _ => s.slotsOk s.eng.next.toNat
  | .busy, some (.inReq .symbolField), _ => decide (1 ≤ s.eng.next.toNat) && s.slotsOk (s.eng.next.toNat - 1)
  | .busy, none, some (.writeNode _) => decide (1 ≤ s.eng.next.toNat) && s.slotsOk (s.eng.next.toNat - 1)
  | .busy, none, some (.link i) => decide (i.toNat < s.eng.next.toNat) && s.slotsOk s.eng.next.toNat
  | _, _, _ => true

/-- A READ answered with the value `v`. -/
def valueAnswer (v : Nat) : Answer := { eof := false, data := BitVec.ofNat 32 v }

/-- A READ answered EOF. -/
def eofAnswer : Answer := { eof := true, data := 0#32 }

/-- The WRITE(1) transactions of a code, in order (44_encoder.md R194). -/
def bitWrites (p : List Bool) : List OutTx := p.map fun b => writeTx 1 (BitVec.ofBool b)

/-- The answers `as` give READs of the widths of the WRITEs `ts`, in order, the values written; the bits of an answer above its
READ's width are anything (20_memory.md R81, R90). -/
def gives : List OutTx → List Answer → Bool
  | [], as => as.isEmpty
  | .close :: ts, as => gives ts as
  | .write _ _ :: _, [] => false
  | .write w v :: ts, a :: as => !a.eof && (a.data.setWidth w.toNat).setWidth 32 = v && gives ts as

/-- The plainest answers that give what was written: each value with nothing above its width. -/
def replay : List OutTx → List Answer
  | [] => []
  | .write _ v :: rest => { eof := false, data := v } :: replay rest
  | .close :: rest => replay rest

/-- `n` events of the engine's side in a row (20_memory.md R94). -/
def engineRun : Nat → State → State
  | 0, s => s
  | n + 1, s => engineRun n (engineEvent s)

end Sys2Proof.Machine
end

