-- ==== Sys2Proof/WellFormed.lean ====
section
/-!
DEFINITION. Which instructions are well formed: a leaf token's field must hold a Symbol, 0 to 256. The values 257 to 511 fit
the field "but are not Symbols" (30_encoding.md R114): no encoder writes one, and the parser that reads one raises BAD_SYMBOL.
-/

namespace Sys2Proof

/-- A value of the 9-bit field that is a Symbol (00_scope.md R20; 30_encoding.md R114). -/
def Symbol.isSymbol (s : Symbol) : Bool := s.toNat ≤ 256

/-- Commands and the two fixed tokens have nothing to check (30_encoding.md R103). -/
def Instr.wellFormed : Instr → Bool
  | .nop => true
  | .compress => true
  | .decompress => true
  | .clear => true
  | .magic => true
  | .treeInternal => true
  | .treeLeaf s => Symbol.isSymbol s

end Sys2Proof
end

