-- ==== Sys2Proof/Certificates/Slice0/Obligations.lean ====
section
/-!
DEFINITION. The statements for the provers. Each docstring names the rules of spec/ it formalises. A statement about
`engineEvent` is one about the engine's side of `step`: with an agenda event `.engine`, or with no agenda event and no whole wire
token ready, `step` is `engineEvent` (`Obligations.EngineTurnIsOneEngineEvent`).
-/

open Sys2Proof Sys2Proof.Machine

/-! ### Encodings -/

/-- The bits of every instruction, whatever follows them, decode on its port to that instruction and leave what follows
(30_encoding.md R101, R111 to R114). -/
def Obligations.DecodeOfEncodeIsTheInstruction : Prop :=
  ∀ (i : Instr) (rest : List Bool), decode i.port (encode i ++ rest) = .ok (i, rest)

/-- What a port's decoder accepts is the encoding of an instruction of that port: no bit of an accepted instruction is
ignored (30_encoding.md R101, R102, R111 to R114). -/
def Obligations.AcceptedBitsAreAnEncoding : Prop :=
  ∀ (p : Port) (bs : List Bool) (i : Instr) (rest : List Bool),
    decode p bs = .ok (i, rest) → i.port = p ∧ bs = encode i ++ rest

/-- 30_encoding.md R102 and 46_control.md R229: a word is illegal exactly if its OPCODE is 4 to 15 or a bit of RSVD is 1, which
leaves the four words 0 to 3; an illegal word the host writes to CMD sets CMD_ERR and has no other effect, in any state. -/
def Obligations.OnlyFourCommandWordsAreLegal : Prop :=
  ∀ (v : Word),
    ((∃ i, decodeCommand v = .ok i) ↔ v.toNat < 4) ∧
    ((∃ r, decodeCommand v = .error r) ↔ 4 ≤ (v.extractLsb' 0 4).toNat ∨ v.extractLsb' 4 28 ≠ 0#28) ∧
    (4 ≤ v.toNat → ∀ (s : State) (addr : RegAddr) (rest : List Event),
      s.env.agenda = .hostWrite addr v :: rest → addr.toNat < 4 →
      step s = .next { s with regs := { s.regs with cmdErr := true }, env := { s.env with agenda := rest } })

/-- Words written out from the spec decode to the instructions they stand for (30_encoding.md R101, R111, R112; V-C2 of
95_test_vectors.md). -/
def Obligations.SpecWordsDecodeToTheirInstructions : Prop :=
  decodeCommand 0x00000000#32 = .ok .nop ∧ decodeCommand 0x00000001#32 = .ok .compress ∧
  decodeCommand 0x00000002#32 = .ok .decompress ∧ decodeCommand 0x00000003#32 = .ok .clear ∧
  decodeMagic 0b11111010110011101000001000000001#32 = .ok .magic ∧
  decodeHeader [false] = .ok (.treeInternal, []) ∧
  decodeHeader [true, false, false, true, false, false, false, false, false, true] = .ok (.treeLeaf 65#9, []) ∧
  decodeHeader [true, true, false, false, false, false, false, false, false, false] = .ok (.treeLeaf 256#9, [])

/-! ### A step runs the decoded instruction -/

/-- When the next event is a host write to CMD of an instruction's word, the step is exec of that instruction in the state in
which the event has been taken from the agenda (20_memory.md R72, 46_control.md R225). -/
def Obligations.CommandWriteRunsTheDecodedInstruction : Prop :=
  ∀ (s : State) (addr : RegAddr) (v : Word) (rest : List Event) (i : Instr),
    s.env.agenda = .hostWrite addr v :: rest → addr.toNat < 4 → i.port = .command → bitView 32 v = encode i →
    step s = exec i (s.withAgenda rest)

/-- When no event of the agenda is left, the engine stands at the READ for a token and the next answers hold the token's bits,
the step is exec of that token in the state in which those answers have been given; that a ready token is one step is the
model's choice, log 10 (30_encoding.md R119, 43_tree_serializer.md R174, 45_decoder.md R207). -/
def Obligations.ReadyTokenIsRun : Prop :=
  ∀ (s : State) (a : Answer) (as : List Answer),
    s.env.agenda = [] → s.env.inScript = a :: as → a.eof = false →
    (s.awaits .magicIn = true → a.data = 0xFACE8201#32 → step s = exec .magic (s.dropAnswers 1)) ∧
    (s.awaits .typeBit = true → s.eng.next.toNat ≠ 513 → a.data.getLsbD 0 = false →
      step s = exec .treeInternal (s.dropAnswers 1)) ∧
    (s.awaits .typeBit = true → s.eng.next.toNat ≠ 513 → a.data.getLsbD 0 = true →
      ∀ (b : Answer) (bs : List Answer), as = b :: bs → b.eof = false →
        step s = exec (.treeLeaf (b.data.setWidth 9)) (s.dropAnswers 2))

/-- An engine turn of the agenda is one engine event; so is a step before a reset that waits for STATE <- DONE (log 18), and with the
agenda empty a step that finds no whole token ready: the agenda is the model's, log 1 (20_memory.md R94, R95). -/
def Obligations.EngineTurnIsOneEngineEvent : Prop :=
  ∀ (s : State),
    (∀ rest, s.env.agenda = .engine :: rest → step s = .next (engineEvent (s.withAgenda rest))) ∧
    (∀ rest, s.env.agenda = .reset :: rest → s.closing = true → step s = .next (engineEvent s)) ∧
    (s.env.agenda = [] → fetchToken s = none → step s = .next (engineEvent s))

/-- A token run whole is the engine events of its READs and of the write of its node, or of the error entry where it is in error, with no
event of another agent between them: the model's choice, log 10 (20_memory.md R94, 43_tree_serializer.md R174, 45_decoder.md R207). -/
def Obligations.TokenIsItsEngineEvents : Prop :=
  ∀ (s : State) (a : Answer) (as : List Answer), s.env.inScript = a :: as → a.eof = false →
    (s.awaits .magicIn = true → a.data = 0xFACE8201#32 → exec .magic (s.dropAnswers 1) = .next (engineRun 1 s)) ∧
    (s.awaits .typeBit = true → s.eng.next.toNat ≠ 513 → a.data.getLsbD 0 = false →
      exec .treeInternal (s.dropAnswers 1) = .next (engineRun 2 s)) ∧
    (s.awaits .typeBit = true → s.eng.next.toNat ≠ 513 → a.data.getLsbD 0 = true →
      ∀ (b : Answer) (bs : List Answer), as = b :: bs → b.eof = false →
        exec (.treeLeaf (b.data.setWidth 9)) (s.dropAnswers 2) = .next (engineRun 3 s))

/-! ### The commands -/

/-- 46_control.md R227: the word 0x00000000 is NOP, which is accepted in every state and changes nothing. -/
def Obligations.NopChangesNothing : Prop :=
  decodeCommand 0x00000000#32 = .ok .nop ∧ ∀ (s : State), exec .nop s = .next s

/-- 46_control.md R226 for COMPRESS: what acceptance writes and leaves; COUNT's own PHASE <- COUNT is next (40_freq_counter.md R131). The
agents around the block are untouched but for the numbers of the model's draws. -/
def Obligations.CompressIsAcceptedWhenNotBusy : Prop :=
  ∀ (s : State), s.regs.state ≠ .busy →
    ∃ t, exec .compress s = .next t ∧
      t.regs = { state := .busy, mode := .compress, cmdErr := s.regs.cmdErr, phase := .count, errCode := none,
                 irqEn := s.regs.irqEn, symCount := 0#32, encCount := 0#32, bitCount := 0#32, leafCount := 0#10,
                 nodeCount := 0#10, root := 0#10, treeDepth := 0#9 } ∧
      t.tables = s.tables ∧ t.irq = false ∧
      t.eng = { s.eng with pending := none, todo := some (.enterPhase .count) } ∧
      t.env = { s.env with draws := t.env.draws, staleDraw := t.env.staleDraw }

/-- 46_control.md R226 for DECOMPRESS; the READ(32) of the magic is issued (45_decoder.md R207). That it is outstanding as soon as
the CMD write event has happened is the model's choice, log 11. -/
def Obligations.DecompressIsAcceptedWhenNotBusy : Prop :=
  ∀ (s : State), s.regs.state ≠ .busy →
    ∃ t, exec .decompress s = .next t ∧
      t.regs = { state := .busy, mode := .decompress, cmdErr := s.regs.cmdErr, phase := .magicIn, errCode := none,
                 irqEn := s.regs.irqEn, symCount := 0#32, encCount := 0#32, bitCount := 0#32, leafCount := 0#10,
                 nodeCount := 0#10, root := 0#10, treeDepth := 0#9 } ∧
      t.tables = s.tables ∧ t.irq = false ∧
      t.eng = { s.eng with pending := some (.inReq .magicIn), todo := none } ∧
      t.env = { s.env with draws := t.env.draws, staleDraw := t.env.staleDraw }

/-- 46_control.md R228: the word 0x00000003 is CLEAR. In IDLE, DONE or ERROR it writes STATE, PHASE, ERR_CODE and CMD_ERR and
nothing else, and irq falls; in BUSY it is rejected (R230). -/
def Obligations.ClearIsAcceptedWhenNotBusy : Prop :=
  decodeCommand 0x00000003#32 = .ok .clear ∧
  ∀ (s : State),
    (s.regs.state ≠ .busy →
      ∃ t, exec .clear s = .next t ∧
        t = { s with regs := { s.regs with state := .idle, phase := .none, errCode := none, cmdErr := false } } ∧
        t.irq = false) ∧
    (s.regs.state = .busy → exec .clear s = .next { s with regs := { s.regs with cmdErr := true } })

/-- 46_control.md R230: COMPRESS, DECOMPRESS and CLEAR while BUSY set CMD_ERR and change nothing else. -/
def Obligations.BusyRejectsCommands : Prop :=
  ∀ (s : State) (i : Instr), s.regs.state = .busy → i = .compress ∨ i = .decompress ∨ i = .clear →
    exec i s = .next { s with regs := { s.regs with cmdErr := true } }

/-- 10_state.md R38: outside reset CMD_ERR is cleared only by an accepted CLEAR, and set only by a CMD write that is illegal or
rejected. 10_state.md R41, 46_control.md R232: IRQ_EN.EN changes only at a reset, which clears it, and at a host write to IRQ_EN,
which gives it bit 0 of the word. -/
def Obligations.CmdErrAndIrqEnChangeOnlyAtTheirEvents : Prop :=
  ∀ (s t : State), step s = .next t →
    (s.regs.cmdErr = true → t.regs.cmdErr = false →
      (∃ rest, s.env.agenda = .reset :: rest) ∨
      (∃ addr rest, s.env.agenda = .hostWrite addr 3#32 :: rest ∧ addr.toNat < 4 ∧ s.regs.state ≠ .busy)) ∧
    (s.regs.cmdErr = false → t.regs.cmdErr = true →
      ∃ addr v rest, s.env.agenda = .hostWrite addr v :: rest ∧ addr.toNat < 4 ∧
        (4 ≤ v.toNat ∨ (v ≠ 0#32 ∧ s.regs.state = .busy))) ∧
    (t.regs.irqEn ≠ s.regs.irqEn →
      (t.regs.irqEn = false ∧ ∃ rest, s.env.agenda = .reset :: rest) ∨
      (∃ addr v rest, s.env.agenda = .hostWrite addr v :: rest ∧ 8 ≤ addr.toNat ∧ addr.toNat < 12 ∧
        t.regs.irqEn = v.getLsbD 0))

/-! ### The wire tokens -/

/-- 45_decoder.md R207, the magic: 32 bits counted, and nothing else changes. 43_tree_serializer.md R174 with 00_scope.md R17: the event
after it is PHASE <- HEADER_IN, where PARSE starts with NEXT = 0 and its first READ(1); again nothing else changes. That the READ is
issued in the event before its answer is log 11. -/
def Obligations.MagicStartsTheParse : Prop :=
  ∀ (s : State), s.awaits .magicIn = true →
    ∃ t, exec .magic s = .next t ∧
      t = { s with
            regs := { s.regs with bitCount := s.regs.bitCount + 32#32 }
            eng := { s.eng with pending := none, todo := some (.enterPhase .headerIn) }
            env := { s.env with inTrace := s.env.inTrace ++ [.read 32 (some 0xFACE8201#32)] } } ∧
      engineEvent t =
        { t with
          regs := { t.regs with phase := .headerIn }
          eng := { t.eng with pending := some (.inReq .typeBit), todo := none, next := 0#10, stack := [] } }

/-- 43_tree_serializer.md R172, R173, R174 for an internal node: it takes the next slot, its left subtree is parsed next, and no
other entry of a table changes. -/
def Obligations.TreeInternalTakesTheNextSlot : Prop :=
  ∀ (s : State), s.awaits .typeBit = true → s.eng.next.toNat < 513 →
    ∃ t, exec .treeInternal s = .next t ∧
      t.regs = { s.regs with bitCount := s.regs.bitCount + 1#32, nodeCount := s.eng.next + 1#10 } ∧
      t.eng = { s.eng with pending := some (.inReq .typeBit), todo := none, next := s.eng.next + 1#10,
                           stack := .left s.eng.next :: s.eng.stack } ∧
      t.env = { s.env with inTrace := s.env.inTrace ++ [.read 1 (some 0#32)] } ∧
      t.nodeAt s.eng.next = { isLeaf := false, symbol := 0#9, weight := 0#40, left := 0#10, right := 0#10 } ∧
      (∀ j, j ≠ s.eng.next → t.nodeAt j = s.nodeAt j) ∧
      (∀ c, t.freqAt c = s.freqAt c) ∧ (∀ c, t.codeAt c = s.codeAt c)

/-- 43_tree_serializer.md R172 to R174, R180 for a leaf: it takes the next slot and holds the symbol with weight 0, and no other entry of
a table changes; then it is returned to the node on top of STACK, or the parse is complete when none waits. A node returned becomes, in
an event of its own (20_memory.md R94), the LEFT or RIGHT of the node on top: after LEFT its right subtree is parsed, after RIGHT that
node is returned in turn. Premise `parseOk`: `Obligations.ParseInvariantIsKept`. -/
def Obligations.TreeLeafTakesTheNextSlot : Prop :=
  (∀ (s : State) (v : Symbol), s.awaits .typeBit = true → s.eng.next.toNat < 513 → v.toNat ≤ 256 →
    ∃ t, exec (.treeLeaf v) s = .next t ∧
      t.regs = { s.regs with bitCount := s.regs.bitCount + 10#32, nodeCount := s.eng.next + 1#10,
                             leafCount := s.regs.leafCount + 1#10 } ∧
      t.eng = { s.eng with next := s.eng.next + 1#10, pending := none,
                           todo := if s.eng.stack = [] then some .finishParse else some (.link s.eng.next) } ∧
      t.env = { s.env with inTrace := s.env.inTrace ++ [.read 1 (some 1#32), .read 9 (some (v.setWidth 32))] } ∧
      t.nodeAt s.eng.next = { isLeaf := true, symbol := v, weight := 0#40, left := 0#10, right := 0#10 } ∧
      (∀ j, j ≠ s.eng.next → t.nodeAt j = s.nodeAt j) ∧
      (∀ c, t.freqAt c = s.freqAt c) ∧ (∀ c, t.codeAt c = s.codeAt c)) ∧
  (∀ (s : State) (i j : NodeIndex) (rest : List Frame), s.regs.state = .busy → s.eng.pending = none →
    s.eng.todo = some (.link i) → s.parseOk = true →
    let t := engineEvent s
    (s.eng.stack = .left j :: rest →
      t.nodeAt j = { s.nodeAt j with left := i } ∧
      t.eng = { s.eng with pending := some (.inReq .typeBit), todo := none, stack := .right j :: rest }) ∧
    (s.eng.stack = .right j :: rest →
      t.nodeAt j = { s.nodeAt j with right := i } ∧
      t.eng = { s.eng with stack := rest, todo := if rest = [] then some .finishParse else some (.link j) }) ∧
    (s.eng.stack = .left j :: rest ∨ s.eng.stack = .right j :: rest →
      (∀ k, k ≠ j → t.nodeAt k = s.nodeAt k) ∧ t.regs = s.regs ∧ t.env = s.env ∧
      (∀ c, t.freqAt c = s.freqAt c) ∧ (∀ c, t.codeAt c = s.codeAt c)))

/-- 43_tree_serializer.md R176: at NEXT = 513 either kind of node is TREE_TOO_LARGE; the type bit has counted, no slot is
allocated, no symbol is read, and no table changes. So it is of exec of a token, and so it is of the machine's own way there: the
READ(1) answered with a value, whichever bit it is, and the error entry, in which one answer has been taken. -/
def Obligations.FullTableIsTreeTooLarge : Prop :=
  ∀ (s : State) (v : Symbol), s.awaits .typeBit = true → s.eng.next.toNat = 513 →
    exec .treeInternal s = .next
      { s with
        regs := { s.regs with state := .error, errCode := some .treeTooLarge, bitCount := s.regs.bitCount + 1#32 }
        eng := { s.eng with pending := none, todo := none }
        env := { s.env with inTrace := s.env.inTrace ++ [.read 1 (some 0#32)] } } ∧
    exec (.treeLeaf v) s = .next
      { s with
        regs := { s.regs with state := .error, errCode := some .treeTooLarge, bitCount := s.regs.bitCount + 1#32 }
        eng := { s.eng with pending := none, todo := none }
        env := { s.env with inTrace := s.env.inTrace ++ [.read 1 (some 1#32)] } } ∧
    (∀ (a : Answer) (as : List Answer), s.env.inScript = a :: as → a.eof = false →
      engineRun 2 s =
        { s with
          regs := { s.regs with state := .error, errCode := some .treeTooLarge, bitCount := s.regs.bitCount + 1#32 }
          eng := { s.eng with pending := none, todo := none }
          env := { s.env with inScript := as
                              inTrace := s.env.inTrace ++ [.read 1 (some ((a.data.setWidth 1).setWidth 32))] } })

/-- 43_tree_serializer.md R178: a symbol of 257 to 511 is BAD_SYMBOL, PHASE kept; the slot has been counted in NODE_COUNT
and LEAF_COUNT and both READs in BIT_COUNT; no other slot of NODE changes. -/
def Obligations.SymbolAbove256IsBadSymbol : Prop :=
  ∀ (s : State) (v : Symbol), s.awaits .typeBit = true → s.eng.next.toNat < 513 → 256 < v.toNat →
    ∃ t, exec (.treeLeaf v) s = .next t ∧
      t.regs = { s.regs with state := .error, errCode := some .badSymbol, bitCount := s.regs.bitCount + 10#32,
                             nodeCount := s.eng.next + 1#10, leafCount := s.regs.leafCount + 1#10 } ∧
      t.eng = { s.eng with pending := none, todo := none, next := s.eng.next + 1#10 } ∧
      t.env = { s.env with inTrace := s.env.inTrace ++ [.read 1 (some 1#32), .read 9 (some (v.setWidth 32))] } ∧
      (∀ j, j ≠ s.eng.next → t.nodeAt j = s.nodeAt j) ∧
      (∀ c, t.freqAt c = s.freqAt c) ∧ (∀ c, t.codeAt c = s.codeAt c)

/-- A token where no READ is outstanding for it stops with the fault of that name (20_memory.md R83: UNSPECIFIED; 93 I7; log 5); and
no step presents one: every step of every state answers a next state. -/
def Obligations.TokenWithoutItsReadFaults : Prop :=
  (∀ (s : State) (v : Symbol),
    (s.awaits .magicIn = false → exec .magic s = .fault .noReadOutstanding) ∧
    (s.awaits .typeBit = false →
      exec .treeInternal s = .fault .noReadOutstanding ∧ exec (.treeLeaf v) s = .fault .noReadOutstanding)) ∧
  (∀ (s : State), ∃ t, step s = .next t)

/-- The frame of the wire tokens, in every state in which one gives a next state: FREQ, CODE, MODE, CMD_ERR, IRQ_EN, SYM_COUNT,
ENC_COUNT, ROOT and TREE_DEPTH are unchanged, no OUT transaction happens, and of NODE only the slot taken can change
(43_tree_serializer.md R174, 45_decoder.md R207). -/
def Obligations.TokensLeaveTheRest : Prop :=
  ∀ (s t : State) (i : Instr), i.port ≠ .command → exec i s = .next t →
    (∀ c, t.freqAt c = s.freqAt c) ∧ (∀ c, t.codeAt c = s.codeAt c) ∧
    (∀ j, j ≠ s.eng.next → t.nodeAt j = s.nodeAt j) ∧
    t.regs.mode = s.regs.mode ∧ t.regs.cmdErr = s.regs.cmdErr ∧ t.regs.irqEn = s.regs.irqEn ∧
    t.regs.symCount = s.regs.symCount ∧ t.regs.encCount = s.regs.encCount ∧
    t.regs.root = s.regs.root ∧ t.regs.treeDepth = s.regs.treeDepth ∧
    t.eng.active = s.eng.active ∧ t.eng.cur = s.eng.cur ∧ t.eng.encSym = s.eng.encSym ∧ t.eng.encPos = s.eng.encPos ∧
    t.env = { s.env with inTrace := t.env.inTrace }

/-! ### Errors, reset and the interrupt -/

/-- 60_exceptions.md R243: the error entry writes ERR_CODE and STATE in one event; PHASE, every counter, table and tree register
keep their values, nothing is outstanding, no channel transaction happens, and irq is IRQ_EN.EN. -/
def Obligations.ErrorEntryKeepsPhaseAndCounters : Prop :=
  ∀ (s : State) (e : HuffError), s.regs.state = .busy → s.eng.pending = none → s.eng.todo = some (.raise e) →
    ∃ t, engineEvent s = t ∧
      t = { s with regs := { s.regs with errCode := some e, state := .error }
                   eng := { s.eng with pending := none, todo := none } } ∧
      t.irq = s.regs.irqEn

/-- 60_exceptions.md R244 and 20_memory.md R86: no step that ends in ERROR makes an OUT transaction. The acceptance of CLOSE and STATE <-
DONE are two events (20_memory.md R94, 44_encoder.md R196, 45_decoder.md R216): after the first STATE is still BUSY and the second is the
engine's next. A host access can come between them (20_memory.md R95), a reset cannot, so that a command which a reset abandons leaves no
CLOSE (70_reset_and_hazards.md R271, R283): that reading, and that the two are separate steps, is log 18. -/
def Obligations.NoCloseOnError : Prop :=
  ∀ (s t : State), step s = .next t →
    (t.regs.state = .error → t.env.outTrace = s.env.outTrace) ∧
    (t.env.outTrace = s.env.outTrace ++ [.close] → t.regs.state = .busy ∧ t.eng.pending = none ∧ t.eng.todo = some .finish ∧
      (engineEvent t).regs.state = .done) ∧
    (s.closing = true →
      (t.closing = true ∧ t.env.outTrace = s.env.outTrace ∧ s.env.agenda ≠ [] ∧ ∀ rest, s.env.agenda ≠ .reset :: rest) ∨
      (t.regs.state = .done ∧ t.env.outTrace = s.env.outTrace))

/-- The end of input at each READ of a DECOMPRESS (43_tree_serializer.md R175, R177; 45_decoder.md R207, R211): the error of that
READ, nothing counted, PHASE kept. -/
def Obligations.EndOfInputIsTheErrorOfItsRead : Prop :=
  ∀ (s : State) (a : Answer) (as : List Answer) (w : InWait) (e : HuffError),
    s.regs.state = .busy → s.eng.pending = some (.inReq w) → s.env.inScript = a :: as → a.eof = true →
    (w = .magicIn ∧ e = .badMagic) ∨ (w = .typeBit ∧ e = .truncatedTree) ∨ (w = .symbolField ∧ e = .truncatedTree) ∨
      (w = .walkBit ∧ e = .missingTerminator) →
    (engineRun 2 s).regs = { s.regs with state := .error, errCode := some e } ∧
    (engineRun 2 s).tables = s.tables ∧
    (engineRun 2 s).env = { s.env with inScript := as, inTrace := (engineRun 2 s).env.inTrace } ∧
    (engineRun 2 s).eng = { s.eng with pending := none, todo := none }

/-- A first word other than the magic is BAD_MAGIC, the legacy magic included, and writes nothing to OUT (45_decoder.md R207,
R220; 30_encoding.md R118). -/
def Obligations.OtherFirstWordIsBadMagic : Prop :=
  ∀ (s : State) (a : Answer) (as : List Answer),
    s.regs.state = .busy → s.eng.pending = some (.inReq .magicIn) → s.env.inScript = a :: as → a.eof = false →
    a.data ≠ 0xFACE8201#32 →
    (engineRun 2 s).regs =
      { s.regs with state := .error, errCode := some .badMagic, bitCount := s.regs.bitCount + 32#32 } ∧
    (engineRun 2 s).tables = s.tables ∧ (engineRun 2 s).env.outTrace = s.env.outTrace ∧
    (engineRun 2 s).eng = { s.eng with pending := none, todo := none }

/-- 70_reset_and_hazards.md R270, R271 and 10_state.md R59: at an edge with rst = 1 every register and the engine's position take
their reset values in any state, the tables hold nothing a rule gives, and no channel transaction happens. An edge that comes after the
acceptance of CLOSE comes after STATE <- DONE as well, which is then the step before it (R271, R283; log 18). The reset values of the hidden
state but PENDING are the model's choice, log 3; the tables are one draw of free values that no earlier reset or command has had, log
2. -/
def Obligations.ResetTakesTheBlockToIdle : Prop :=
  ∀ (s : State) (rest : List Event), s.env.agenda = .reset :: rest →
    ∃ u t, (if s.closing then step s = .next u ∧ u.regs = { s.regs with state := .done } ∧ u.env = s.env else u = s) ∧
      step u = .next t ∧ t.regs = State.reset.regs ∧ t.eng = State.reset.eng ∧ t.irq = false ∧
      t.tables.freq = [] ∧ t.tables.code = [] ∧ t.tables.node = [] ∧
      t.tables.freqFill = .drawn s.env.draws ∧ t.tables.codeFill = .drawn s.env.draws ∧
      t.env = { s.env with agenda := rest, draws := s.env.draws + 1, staleDraw := s.env.draws }

/-- 10_state.md R59: the values the spec gives for reset, as the host reads them. -/
def Obligations.ResetValuesReadAsTheSpecSays : Prop :=
  State.reset.regs.state = .idle ∧ State.reset.regs.phase = .none ∧ State.reset.eng.pending = none ∧
  State.reset.irq = false ∧
  (∀ addr ∈ [0x0000#16, 0x0004#16, 0x0008#16, 0x0014#16, 0x0018#16, 0x001C#16, 0x0020#16, 0x0024#16, 0x0028#16, 0x002C#16],
    State.reset.readWord (regionOf addr) = 0#32) ∧
  State.reset.readWord (regionOf 0x000C#16) = 0xFACE8201#32 ∧
  State.reset.readWord (regionOf 0x0010#16) = 0x00200201#32

/-- 60_exceptions.md R247: irq is IRQ_EN.EN and (DONE or ERROR), whatever else the state is. -/
def Obligations.IrqIsALevelOfTheState : Prop :=
  ∀ (s : State), s.irq = true ↔ s.regs.irqEn = true ∧ (s.regs.state = .done ∨ s.regs.state = .error)

/-! ### The host register space -/

/-- 20_memory.md R71, R79: a host read gives the host the word and changes no register, table or engine state; while no command
runs a second read of any word gives what the first would have. -/
def Obligations.HostReadHasNoSideEffect : Prop :=
  ∀ (s : State) (addr : RegAddr) (rest : List Event), s.env.agenda = .hostRead addr :: rest →
    ∃ t, step s = .next t ∧ t.regs = s.regs ∧ t.tables = s.tables ∧ t.eng = s.eng ∧
      t.env = { s.env with agenda := rest, hostReads := s.env.hostReads ++ [(addr, s.readWord (regionOf addr))],
                           draws := t.env.draws } ∧
      (s.regs.state ≠ .busy → ∀ r, t.readWord r = s.readWord r)

/-- 20_memory.md R72, R73; 46_control.md R232: a host write to IRQ_EN sets EN to bit 0 of the word; a write to any other word but
CMD changes nothing. -/
def Obligations.HostWritesReachOnlyCmdAndIrqEn : Prop :=
  ∀ (s : State) (addr : RegAddr) (v : Word) (rest : List Event), s.env.agenda = .hostWrite addr v :: rest →
    (8 ≤ addr.toNat ∧ addr.toNat < 12 →
      step s = .next { s with regs := { s.regs with irqEn := v.getLsbD 0 }, env := { s.env with agenda := rest } }) ∧
    (4 ≤ addr.toNat ∧ addr.toNat < 8 ∨ 12 ≤ addr.toNat →
      step s = .next { s with env := { s.env with agenda := rest } })

/-- 20_memory.md R78: an access at a byte address reaches the word at `a & 0xFFFC`. -/
def Obligations.LowAddressBitsAreIgnored : Prop := ∀ (addr : RegAddr), regionOf addr = regionOf (addr &&& 0xFFFC#16)

/-- 10_state.md R35, R42, R43; 20_memory.md R73, R74: CMD reads 0, MAGIC and CONFIG read their constants and unmapped addresses
read 0, in every state. That CMD and unmapped words read 0 also while BUSY is DEDUCED, log 6. -/
def Obligations.FixedAndUnmappedWords : Prop :=
  ∀ (s : State) (addr : RegAddr),
    (addr.toNat < 4 → s.readWord (regionOf addr) = 0#32) ∧
    (12 ≤ addr.toNat ∧ addr.toNat < 16 → s.readWord (regionOf addr) = 0xFACE8201#32) ∧
    (16 ≤ addr.toNat ∧ addr.toNat < 20 → s.readWord (regionOf addr) = 0x00200201#32) ∧
    (0x0030 ≤ addr.toNat ∧ addr.toNat < 0x0400 ∨ 0x0C04 ≤ addr.toNat ∧ addr.toNat < 0x1000 ∨
      0x3020 ≤ addr.toNat ∧ addr.toNat < 0x4000 ∨ 0x6010 ≤ addr.toNat → s.readWord (regionOf addr) = 0#32)

/-- 10_state.md R36: the fields of STATUS when no command runs, with the numbers of the tables of R32, R33, R37 and R39. -/
def Obligations.StatusFieldsAreExactWhenNotBusy : Prop :=
  ∀ (s : State), s.regs.state ≠ .busy →
    let w := s.readWord (regionOf 0x0004#16)
    (s.regs.state, w.extractLsb' 0 2) ∈ [(RunState.idle, 0#2), (.done, 2#2), (.error, 3#2)] ∧
    (s.regs.mode, w.extractLsb' 2 1) ∈ [(Mode.compress, 0#1), (.decompress, 1#1)] ∧
    w.getLsbD 3 = s.regs.cmdErr ∧
    (s.regs.phase, w.extractLsb' 4 4) ∈
      [(Phase.none, 0#4), (.count, 1#4), (.rewind, 2#4), (.build, 3#4), (.codegen, 4#4), (.magicOut, 5#4),
       (.headerOut, 6#4), (.encode, 7#4), (.terminate, 8#4), (.close, 9#4), (.magicIn, 10#4), (.headerIn, 11#4),
       (.decode, 12#4)] ∧
    (s.regs.errCode, w.extractLsb' 8 4) ∈
      [(none, 0#4), (some HuffError.badMagic, 1#4), (some .truncatedTree, 2#4), (some .missingTerminator, 3#4),
       (some .badSymbol, 4#4), (some .treeTooLarge, 5#4), (some .degenerateTree, 6#4), (some .noCode, 7#4)] ∧
    w.extractLsb' 12 20 = 0#20

/-- 10_state.md R41: IRQ_EN reads EN in bit 0 and 0 above, in every state. R58: while BUSY, STATE reads 1, MODE and CMD_ERR read
exactly, PHASE reads one of the running command's phases, ERR_CODE reads 0, and IRQ_EN, MAGIC and CONFIG read their values. -/
def Obligations.StatusWhileBusy : Prop :=
  ∀ (s : State),
    s.readWord (regionOf 0x0008#16) = BitVec.ofNat 32 s.regs.irqEn.toNat ∧
    (s.regs.state = .busy →
      let w := s.readWord (regionOf 0x0004#16)
      (w.extractLsb' 0 2).toNat = 1 ∧ (s.regs.mode, w.extractLsb' 2 1) ∈ [(Mode.compress, 0#1), (.decompress, 1#1)] ∧
      w.getLsbD 3 = s.regs.cmdErr ∧
      (s.regs.mode = .compress → 1 ≤ (w.extractLsb' 4 4).toNat ∧ (w.extractLsb' 4 4).toNat ≤ 9) ∧
      (s.regs.mode = .decompress → 9 ≤ (w.extractLsb' 4 4).toNat ∧ (w.extractLsb' 4 4).toNat ≤ 12) ∧
      w.extractLsb' 8 24 = 0#24 ∧
      s.readWord (regionOf 0x000C#16) = 0xFACE8201#32 ∧ s.readWord (regionOf 0x0010#16) = 0x00200201#32)

/-- 20_memory.md R75 and 10_state.md R44 to R50: the FREQ window, the counters and the tree registers when no command runs. -/
def Obligations.CountersAndFreqAreReadable : Prop :=
  ∀ (s : State), s.regs.state ≠ .busy →
    (∀ c, c < 256 → s.readWord (regionOf (BitVec.ofNat 16 (0x0400 + 4 * c))) = s.freqAt c) ∧
    s.readWord (regionOf 0x0014#16) = s.regs.symCount ∧ s.readWord (regionOf 0x0018#16) = s.regs.encCount ∧
    s.readWord (regionOf 0x001C#16) = s.regs.bitCount ∧
    s.readWord (regionOf 0x0020#16) = s.regs.leafCount.setWidth 32 ∧
    s.readWord (regionOf 0x0024#16) = s.regs.nodeCount.setWidth 32 ∧
    s.readWord (regionOf 0x0028#16) = s.regs.root.setWidth 32 ∧
    s.readWord (regionOf 0x002C#16) = s.regs.treeDepth.setWidth 32

/-- 20_memory.md R76: CODE_LEN has PRESENT in bit 31 and LEN in bits [8:0]; bit 31-k of CODE_BITS word w is code bit 32w+k, and 0
at and above LEN. -/
def Obligations.CodeWindows : Prop :=
  ∀ (s : State) (c : Nat), s.regs.state ≠ .busy → c < 257 →
    (let w := s.readWord (regionOf (BitVec.ofNat 16 (0x0800 + 4 * c)))
     w.getLsbD 31 = (s.codeAt c).present ∧ w.extractLsb' 0 9 = (s.codeAt c).len ∧ w.extractLsb' 9 22 = 0#22) ∧
    (∀ w k, w < 8 → k < 32 →
      (s.readWord (regionOf (BitVec.ofNat 16 (0x1000 + 32 * c + 4 * w)))).getLsbD (31 - k) =
        (decide (32 * w + k < (s.codeAt c).len.toNat) && (s.codeAt c).bits.getLsbD (32 * w + k)))

/-- 20_memory.md R77 and 10_state.md R54: the four words of a NODE slot in use. -/
def Obligations.NodeWindow : Prop :=
  ∀ (s : State) (i : Nat), s.regs.state ≠ .busy → i < 513 → i < s.regs.nodeCount.toNat →
    let n := s.nodeAt (BitVec.ofNat 10 i)
    let w := fun k => s.readWord (regionOf (BitVec.ofNat 16 (0x4000 + 16 * i + 4 * k)))
    (w 0).extractLsb' 0 10 = n.left ∧ (w 0).extractLsb' 10 6 = 0#6 ∧ (w 0).extractLsb' 16 10 = n.right ∧
    (w 0).extractLsb' 26 5 = 0#5 ∧ (w 0).getLsbD 31 = n.isLeaf ∧
    (w 1).extractLsb' 0 9 = n.symbol ∧ (w 1).extractLsb' 9 23 = 0#23 ∧
    w 2 = n.weight.extractLsb' 0 32 ∧ (w 3).extractLsb' 0 8 = n.weight.extractLsb' 32 8 ∧ (w 3).extractLsb' 8 24 = 0#24

/-! ### COMPRESS, phase by phase -/

/-- 40_freq_counter.md R131 to R134, R136 and 44_encoder.md R188: the COUNT phase, from its PHASE <- COUNT, over any byte string,
whatever the answers hold above bit 7. FREQ[c] is the number of bytes of value c, saturated; SYM_COUNT is their number modulo 2^32; raw
READs do not count in BIT_COUNT; the IN transactions are one READ(8) per byte and the one that returned EOF; then PHASE is REWIND and the one
RESET is issued.
The events are the two phase changes, the clearing, one per READ and one per byte, in which FREQ and SYM_COUNT go up (20_memory.md R94; log
11). -/
def Obligations.CountPhaseCountsEveryByte : Prop :=
  ∀ (s : State) (bs : List Byte) (q : List Answer) (a : Answer) (as : List Answer),
    s.regs.state = .busy → s.eng.pending = none → s.eng.todo = some (.enterPhase .count) →
    s.env.inScript = q ++ a :: as → gives (bs.map (writeTx 8)) q = true → a.eof = true →
    let t := engineRun (2 * bs.length + 4) s
    (∀ c : Byte, (t.freqAt c.toNat).toNat = min (bs.count c) (2 ^ 32 - 1)) ∧
    t.regs = { s.regs with symCount := s.regs.symCount + BitVec.ofNat 32 bs.length, phase := .rewind } ∧
    t.eng = { s.eng with pending := some (.inReq .rewind), todo := none } ∧
    t.tables.code = s.tables.code ∧ t.tables.codeFill = s.tables.codeFill ∧ t.tables.node = s.tables.node ∧
    t.env = { s.env with inScript := as
                         inTrace := s.env.inTrace ++ (bs.map fun b => .read 8 (some (b.setWidth 32))) ++ [.read 8 none] }

/-- 41_tree_builder.md R141, R144, R145: BUILD makes one leaf per byte value that occurs, ascending, then PEOF's; then L - 1
internal nodes; the counts and the root are those of L. No register but these and TREE_DEPTH changes, of the engine only
ACTIVE and its position, and FREQ and CODE are unchanged; PHASE <- CODEGEN is next (42_code_table_gen.md R157). -/
def Obligations.BuildPlacesLeavesAndCounts : Prop :=
  ∀ (s : State), s.regs.state = .busy → s.eng.pending = none → s.eng.todo = some .build →
    let t := engineEvent s
    let occ := (List.range 256).filter fun c => s.freqAt c ≠ 0#32
    t.regs.leafCount.toNat = occ.length + 1 ∧ t.regs.nodeCount.toNat = 2 * occ.length + 1 ∧
    t.regs.root.toNat = 2 * occ.length ∧
    (∀ k c, occ[k]? = some c →
      t.nodeAt (BitVec.ofNat 10 k) =
        { isLeaf := true, symbol := BitVec.ofNat 9 c, weight := (s.freqAt c).setWidth 40, left := 0#10, right := 0#10 }) ∧
    t.nodeAt (BitVec.ofNat 10 occ.length) =
      { isLeaf := true, symbol := 256#9, weight := 1#40, left := 0#10, right := 0#10 } ∧
    (∀ c, t.freqAt c = s.freqAt c) ∧ (∀ c, t.codeAt c = s.codeAt c) ∧
    t.regs = { s.regs with leafCount := t.regs.leafCount, nodeCount := t.regs.nodeCount,
                           root := t.regs.root, treeDepth := t.regs.treeDepth } ∧
    t.eng = { s.eng with active := t.eng.active, pending := none, todo := some (.enterPhase .codegen) } ∧ t.env = s.env

/-- 41_tree_builder.md R142, R143: a merge takes from ACTIVE the slot with the smallest key (lower weight first, then lower index) and
then the smallest of those left; the node it makes at NODE_COUNT has the first as LEFT, the second as RIGHT and the sum of their
weights, joins ACTIVE, and nothing else changes. After BUILD every internal node is made so from the slots not yet merged before
it. -/
def Obligations.MergePicksTheSmallestKey : Prop :=
  (∀ (s : State), 2 ≤ s.eng.active.length → s.regs.nodeCount.toNat < 513 →
    ∃ a b, s.smallestKey (· ∈ s.eng.active) a ∧ s.smallestKey (· ∈ s.eng.active.erase a) b ∧
      let t := merge s
      t.nodeAt s.regs.nodeCount =
        { isLeaf := false, symbol := 0#9, weight := (s.nodeAt a).weight + (s.nodeAt b).weight, left := a, right := b } ∧
      (∀ j, j ≠ s.regs.nodeCount → t.nodeAt j = s.nodeAt j) ∧ (∀ c, t.freqAt c = s.freqAt c) ∧ (∀ c, t.codeAt c = s.codeAt c) ∧
      t.regs = { s.regs with nodeCount := s.regs.nodeCount + 1#10 } ∧
      t.eng = { s.eng with active := (s.eng.active.erase a).erase b ++ [s.regs.nodeCount] } ∧ t.env = s.env) ∧
  (∀ (s : State), s.regs.state = .busy → s.eng.pending = none → s.eng.todo = some .build →
    let t := engineEvent s
    ∀ n, t.regs.leafCount.toNat ≤ n → n < t.regs.nodeCount.toNat →
      let x := t.nodeAt (BitVec.ofNat 10 n)
      t.smallestKey (t.unmerged t.regs.leafCount.toNat n) x.left ∧
      t.smallestKey (fun i => t.unmerged t.regs.leafCount.toNat n i ∧ i ≠ x.left) x.right)

/-- 41_tree_builder.md R143, R151 and 10_state.md R55: after BUILD every internal node joins two nodes with lower indices, and its
weight is the exact sum of theirs; the root's weight is 1 plus the sum of FREQ. -/
def Obligations.BuildWeightsAreExactSums : Prop :=
  ∀ (s : State), s.regs.state = .busy → s.eng.pending = none → s.eng.todo = some .build →
    let t := engineEvent s
    (∀ n, t.regs.leafCount.toNat ≤ n → n < t.regs.nodeCount.toNat →
      let x := t.nodeAt (BitVec.ofNat 10 n)
      x.isLeaf = false ∧ x.symbol = 0#9 ∧ x.left.toNat < n ∧ x.right.toNat < n ∧ x.left ≠ x.right ∧
      x.weight.toNat = (t.nodeAt x.left).weight.toNat + (t.nodeAt x.right).weight.toNat) ∧
    (t.nodeAt t.regs.root).weight.toNat = 1 + ((List.range 256).map fun c => (s.freqAt c).toNat).sum

/-- 10_state.md R55, 41_tree_builder.md R146: after BUILD, NODE holds at ROOT a strict binary tree with exactly one leaf for each
byte value that occurs and one for PEOF, and TREE_DEPTH is its depth. -/
def Obligations.BuildMakesATreeOfTheOccurringSymbols : Prop :=
  ∀ (s : State), s.regs.state = .busy → s.eng.pending = none → s.eng.todo = some .build →
    let t := engineEvent s
    ∃ tr : CodeTree, t.holdsTree tr t.regs.root ∧
      tr.symbols.Perm (((List.range 256).filter fun c => s.freqAt c ≠ 0#32).map (BitVec.ofNat 9) ++ [256#9]) ∧
      t.regs.treeDepth.toNat = tr.depth ∧ tr.depth ≤ 256

/-- 42_code_table_gen.md R156, R157, R159: CODEGEN gives each leaf's symbol its path, as PRESENT, LEN and BITS, and leaves every
other symbol absent; no register changes (R155), and PHASE <- MAGIC_OUT is next (44_encoder.md R189). -/
def Obligations.CodegenRecordsEveryPath : Prop :=
  ∀ (s : State) (tr : CodeTree), s.regs.state = .busy → s.eng.pending = none → s.eng.todo = some .codegen →
    s.holdsTree tr s.regs.root → tr.depth ≤ 256 → tr.symbolsOk = true → tr.symbols.Nodup →
    let t := engineEvent s
    (∀ c ∈ tr.codes, (t.codeAt c.1.toNat).present = true ∧ (t.codeAt c.1.toNat).path = c.2 ∧
      ∀ j, c.2.length ≤ j → (t.codeAt c.1.toNat).bit j = false) ∧
    (∀ v : Symbol, v.toNat ≤ 256 → v ∉ tr.symbols →
      t.codeAt v.toNat = { present := false, len := 0#9, bits := 0#256 }) ∧
    t.regs = s.regs ∧
    t.eng = { s.eng with pending := none, todo := some (.enterPhase .magicOut) } ∧
    t.tables.freq = s.tables.freq ∧ t.tables.freqFill = s.tables.freqFill ∧ t.tables.node = s.tables.node ∧ t.env = s.env

/-- The spec's own inference R160 of 42_code_table_gen.md, from R156 and 10_state.md R55: after CODEGEN no present symbol's code
is a prefix of another's. -/
def Obligations.CodesArePrefixFree : Prop :=
  ∀ (s : State) (tr : CodeTree), s.regs.state = .busy → s.eng.pending = none → s.eng.todo = some .codegen →
    s.holdsTree tr s.regs.root → tr.depth ≤ 256 → tr.symbolsOk = true → tr.symbols.Nodup →
    let t := engineEvent s
    ∀ u v : Symbol, u.toNat ≤ 256 → v.toNat ≤ 256 → u ≠ v →
      (t.codeAt u.toNat).present = true → (t.codeAt v.toNat).present = true →
      ¬ (t.codeAt u.toNat).path <+: (t.codeAt v.toNat).path

/-- 43_tree_serializer.md R166, R167; 30_encoding.md R112, R115: SERIALIZE of any tree held at ROOT. The WRITEs are the pre-order
ones, 3L - 1 of them and 11L - 1 bits, and in the bit view they are the header; PHASE stays till the last of them, and the event after
it is PHASE <- ENCODE, which reads its first byte (44_encoder.md R191). No table changes. -/
def Obligations.SerializeWritesTheHeader : Prop :=
  ∀ (s : State) (tr : CodeTree), s.regs.state = .busy → s.eng.pending = some (.outReq .nodeBit) →
    s.eng.stack = [.visit s.regs.root] → s.holdsTree tr s.regs.root → 3 * tr.leaves - 1 ≤ s.env.outCredit →
    let u := engineRun (3 * tr.leaves - 1) s
    let t := engineEvent u
    u.regs.phase = s.regs.phase ∧ u.eng.pending = none ∧ u.eng.todo = some (.enterPhase .encode) ∧
    t.env = { s.env with outTrace := s.env.outTrace ++ tr.writes, outCredit := s.env.outCredit - (3 * tr.leaves - 1) } ∧
    outStream tr.writes = tr.header ∧ tr.header.length = 11 * tr.leaves - 1 ∧
    t.regs = { s.regs with phase := .encode, bitCount := s.regs.bitCount + BitVec.ofNat 32 (11 * tr.leaves - 1) } ∧
    t.eng = { s.eng with stack := [], pending := some (.inReq .encodeByte), todo := none } ∧ t.tables = s.tables

/-- 44_encoder.md R191, R192, R194: a byte of pass 2 with a code. Its code's bits are written one per WRITE(1), first bit first,
and then ENC_COUNT goes up by one and the next byte is read. How many events this takes is log 11. -/
def Obligations.EncodeWritesTheCodeOfAByte : Prop :=
  ∀ (s : State) (x : Answer) (b : Byte) (as : List Answer), s.regs.state = .busy →
    s.eng.pending = some (.inReq .encodeByte) → s.env.inScript = x :: as → x.field 8 = some b →
    (s.codeAt b.toNat).present = true →
    (s.codeAt b.toNat).len.toNat ≤ s.env.outCredit →
    let c := s.codeAt b.toNat
    let t := engineRun (c.len.toNat + 1) s
    t.env = { s.env with inScript := as, outTrace := s.env.outTrace ++ bitWrites c.path,
                         outCredit := s.env.outCredit - c.len.toNat,
                         inTrace := s.env.inTrace ++ [.read 8 (some (b.setWidth 32))] } ∧
    t.regs = { s.regs with encCount := s.regs.encCount + 1#32, bitCount := s.regs.bitCount + BitVec.ofNat 32 c.len.toNat } ∧
    t.eng = { s.eng with encSym := b.setWidth 9, encPos := c.len.toNat, pending := some (.inReq .encodeByte), todo := none } ∧
    t.tables = s.tables

/-- 44_encoder.md R193: a byte of pass 2 with no code ends the command in NO_CODE; nothing is written for it and ENC_COUNT stays
at the bytes encoded before it. -/
def Obligations.ByteWithoutCodeIsNoCode : Prop :=
  ∀ (s : State) (x : Answer) (b : Byte) (as : List Answer), s.regs.state = .busy →
    s.eng.pending = some (.inReq .encodeByte) → s.env.inScript = x :: as → x.field 8 = some b →
    (s.codeAt b.toNat).present = false →
    (engineRun 2 s).regs = { s.regs with state := .error, errCode := some .noCode } ∧
    (engineRun 2 s).env = { s.env with inScript := as, inTrace := s.env.inTrace ++ [.read 8 (some (b.setWidth 32))] } ∧
    (engineRun 2 s).eng = { s.eng with pending := none, todo := none } ∧ (engineRun 2 s).tables = s.tables

/-- 44_encoder.md R186, R195, R196: the event after the EOF of pass 2 is PHASE <- TERMINATE, an empty PEOF code included, and the PEOF
code is written; then PHASE <- CLOSE, CLOSE, and STATE is DONE with PHASE CLOSE. -/
def Obligations.TerminatorCloseAndDone : Prop :=
  ∀ (s : State) (a : Answer) (as : List Answer), s.regs.state = .busy → s.eng.pending = some (.inReq .encodeByte) →
    s.env.inScript = a :: as → a.eof = true → (s.codeAt 256).len.toNat < s.env.outCredit →
    let c := s.codeAt 256
    let t := engineRun (c.len.toNat + 5) s
    (engineRun 1 s).regs = s.regs ∧ (engineRun 2 s).regs = { s.regs with phase := .terminate } ∧
    (engineRun (c.len.toNat + 2) s).regs.phase = .terminate ∧
    (engineRun (c.len.toNat + 3) s).regs.phase = .close ∧
    (engineRun (c.len.toNat + 3) s).eng.pending = some (.outReq .close) ∧
    t.env = { s.env with inScript := as, outTrace := s.env.outTrace ++ bitWrites c.path ++ [.close],
                         outCredit := s.env.outCredit - (c.len.toNat + 1),
                         inTrace := s.env.inTrace ++ [.read 8 none] } ∧
    t.regs = { s.regs with state := .done, phase := .close,
                           bitCount := s.regs.bitCount + BitVec.ofNat 32 c.len.toNat } ∧
    t.eng.pending = none ∧ t.eng.todo = none ∧ t.tables = s.tables

/-! ### DECOMPRESS, phase by phase -/

/-- 43_tree_serializer.md R172 to R174, R180, R182: PARSE of the header of any tree of Symbols that fits NODE, whatever follows it
and whatever the answers hold above their widths. It reads exactly the header, NODE holds the tree at slot 0 and in
pre-order from there (an internal node i has LEFT = i + 1 and as RIGHT the slot after its left subtree), so no slot of it is shared; the counts, ROOT
and TREE_DEPTH are the tree's, and PHASE <- DECODE is next (45_decoder.md R206, R209). The events are one
per READ, one for each write of NODE[i] and for each write of a LEFT or RIGHT (20_memory.md R94), and one that sets ROOT and TREE_DEPTH
at the end (log 11). -/
def Obligations.ParseRebuildsTheTree : Prop :=
  ∀ (s : State) (tr : CodeTree) (q as : List Answer), s.regs.state = .busy → s.eng.pending = some (.inReq .typeBit) →
    s.eng.next = 0#10 → s.eng.stack = [] → tr.symbolsOk = true → tr.size ≤ 513 →
    s.env.inScript = q ++ as → gives tr.writes q = true →
    let t := engineRun (q.length + 2 * tr.size) s
    t.holdsTree tr 0#10 ∧ t.holdsPreorder tr 0 ∧ t.env.inScript = as ∧
    inStream t.env.inTrace = inStream s.env.inTrace ++ tr.header ∧
    t.env.outTrace = s.env.outTrace ∧
    t.regs.nodeCount.toNat = tr.size ∧ t.regs.leafCount = s.regs.leafCount + BitVec.ofNat 10 tr.leaves ∧
    t.regs.bitCount = s.regs.bitCount + BitVec.ofNat 32 tr.header.length ∧
    t.regs.root = 0#10 ∧ t.regs.treeDepth.toNat = tr.depth ∧
    t.regs.phase = s.regs.phase ∧ t.eng.pending = none ∧ t.eng.todo = some (.enterPhase .decode) ∧
    (∀ n, n < tr.size → (t.nodeAt (BitVec.ofNat 10 n)).weight = 0#40) ∧
    (∀ c, t.freqAt c = s.freqAt c) ∧ (∀ c, t.codeAt c = s.codeAt c)

/-- 45_decoder.md R205, R206, R209 to R211: the event after the end of the parse is PHASE <- DECODE, whatever the root is. With an
internal root the walk starts there, a PEOF root goes straight to PHASE <- CLOSE with no READ, and any other leaf root is DEGENERATE_TREE
in phase DECODE with no READ. That the root is tested in the event PHASE <- DECODE is log 11. -/
def Obligations.DecodeIsEnteredByTheRoot : Prop :=
  ∀ (s : State), s.regs.state = .busy → s.eng.pending = none →
    (s.eng.todo = some .finishParse →
      (engineEvent s).regs = { s.regs with root := 0#10, treeDepth := (engineEvent s).regs.treeDepth } ∧
      (engineEvent s).eng = { s.eng with pending := none, todo := some (.enterPhase .decode) } ∧
      (engineEvent s).tables = s.tables ∧ (engineEvent s).env = s.env) ∧
    (s.eng.todo = some (.enterPhase .decode) →
      ((s.nodeAt s.regs.root).isLeaf = false →
        engineEvent s =
          { s with regs := { s.regs with phase := .decode }
                   eng := { s.eng with pending := some (.inReq .walkBit), todo := none, cur := s.regs.root } }) ∧
      ((s.nodeAt s.regs.root).isLeaf = true → (s.nodeAt s.regs.root).symbol = 256#9 →
        engineEvent s = { s with regs := { s.regs with phase := .decode }
                                 eng := { s.eng with pending := none, todo := some (.enterPhase .close) } } ∧
        engineRun 2 s = { s with regs := { s.regs with phase := .close }
                                 eng := { s.eng with pending := some (.outReq .close), todo := none } }) ∧
      ((s.nodeAt s.regs.root).isLeaf = true → (s.nodeAt s.regs.root).symbol ≠ 256#9 →
        engineRun 2 s = { s with regs := { s.regs with phase := .decode, state := .error, errCode := some .degenerateTree }
                                 eng := { s.eng with pending := none, todo := none } }))

/-- 45_decoder.md R211 to R213: the walk from the root along the path of a leaf of the tree. A byte leaf's byte is written,
SYM_COUNT goes up by one and the walk is back at the root; the PEOF leaf ends the walk with nothing written, and the event after its
last bit is PHASE <- CLOSE. How many events this takes is log 11. -/
def Obligations.WalkDecodesACode : Prop :=
  ∀ (s : State) (tr : CodeTree) (sym : Symbol) (p : List Bool) (q as : List Answer),
    s.regs.state = .busy → s.eng.pending = some (.inReq .walkBit) → s.eng.cur = s.regs.root →
    s.holdsTree tr s.regs.root → (sym, p) ∈ tr.codes → p ≠ [] → s.env.inScript = q ++ as →
    gives (bitWrites p) q = true →
    (sym ≠ 256#9 → 0 < s.env.outCredit →
      let t := engineRun (p.length + 1) s
      t.env = { s.env with inScript := as, inTrace := t.env.inTrace, outCredit := s.env.outCredit - 1,
                           outTrace := s.env.outTrace ++ [writeTx 8 sym] } ∧
      t.regs = { s.regs with bitCount := s.regs.bitCount + BitVec.ofNat 32 p.length,
                             symCount := s.regs.symCount + 1#32 } ∧
      t.eng = { s.eng with pending := some (.inReq .walkBit), todo := none, cur := s.regs.root } ∧ t.tables = s.tables ∧
      inStream t.env.inTrace = inStream s.env.inTrace ++ p) ∧
    (sym = 256#9 →
      let t := engineRun (p.length + 1) s
      (engineRun p.length s).regs.phase = s.regs.phase ∧
      t.env = { s.env with inScript := as, inTrace := t.env.inTrace } ∧
      t.regs = { s.regs with bitCount := s.regs.bitCount + BitVec.ofNat 32 p.length, phase := .close } ∧
      t.eng.pending = some (.outReq .close) ∧ t.eng.todo = none ∧ t.tables = s.tables ∧
      inStream t.env.inTrace = inStream s.env.inTrace ++ p)

/-! ### Whole commands -/

/-- The spec's own inference R197 of 44_encoder.md, from R185 to R196: a COMPRESS of any byte string, given to it in both
passes, ends in DONE. The tree in NODE has one leaf for each byte value of the string and one for PEOF; OUT is the magic, the
tree's header, the codes of the bytes in order, the code of PEOF and CLOSE; IN is one READ(8) per byte and the one that
returned EOF, twice, with the one RESET between (44_encoder.md R188); and the counters are those of the string and the
stream. -/
def Obligations.CompressWritesTheWholeStream : Prop :=
  ∀ (s0 s : State) (bs : List Byte) (q1 q2 : List Answer) (a r b : Answer) (as : List Answer), s0.regs.state ≠ .busy →
    exec .compress s0 = .next s → s.env.inScript = q1 ++ a :: r :: (q2 ++ b :: as) →
    gives (bs.map (writeTx 8)) q1 = true → gives (bs.map (writeTx 8)) q2 = true → a.eof = true → b.eof = true →
    1030 + 256 * bs.length ≤ s.env.outCredit →
    ∃ (n : Nat) (tr : CodeTree),
      let t := engineRun n s
      t.regs.state = .done ∧ t.regs.phase = .close ∧ t.regs.errCode = none ∧
      tr.symbols.Perm (((List.range 256).filter fun c => BitVec.ofNat 8 c ∈ bs).map (BitVec.ofNat 9) ++ [256#9]) ∧
      t.holdsTree tr t.regs.root ∧ (∀ c ∈ tr.codes, (t.codeAt c.1.toNat).path = c.2) ∧
      t.env.outTrace = s.env.outTrace ++ [writeTx 32 0xFACE8201#32] ++ tr.writes ++
        (bs.flatMap fun x => bitWrites (t.codeAt x.toNat).path) ++ bitWrites (t.codeAt 256).path ++ [.close] ∧
      t.regs.symCount = BitVec.ofNat 32 bs.length ∧ t.regs.encCount = BitVec.ofNat 32 bs.length ∧
      t.regs.bitCount = BitVec.ofNat 32 (32 + (11 * tr.leaves - 1) + (bs.map fun x => (t.codeAt x.toNat).len.toNat).sum +
        (t.codeAt 256).len.toNat) ∧
      t.env.inTrace = s.env.inTrace ++ (bs.map fun x => .read 8 (some (x.setWidth 32))) ++ [.read 8 none, .reset] ++
        (bs.map fun x => .read 8 (some (x.setWidth 32))) ++ [.read 8 none] ∧
      t.env.inScript = as

/-- The spec's own inference R219 of 45_decoder.md, the round trip: a COMPRESS of any byte string ends in DONE, and a DECOMPRESS
that is given what it wrote, whatever follows, ends in DONE, writes the same bytes in order and then CLOSE, and has read exactly
the stream's bits. -/
def Obligations.RoundTrip : Prop :=
  ∀ (s0 s : State) (bs : List Byte) (q1 q2 : List Answer) (a r b : Answer) (as : List Answer), s0.regs.state ≠ .busy →
    exec .compress s0 = .next s → s.env.inScript = q1 ++ a :: r :: (q2 ++ b :: as) →
    gives (bs.map (writeTx 8)) q1 = true → gives (bs.map (writeTx 8)) q2 = true → a.eof = true → b.eof = true →
    1030 + 256 * bs.length ≤ s.env.outCredit →
    ∃ (n : Nat) (w : List OutTx), (engineRun n s).regs.state = .done ∧ (engineRun n s).env.outTrace = s.env.outTrace ++ w ∧
      ∀ (u0 u : State) (q rest : List Answer), u0.regs.state ≠ .busy → exec .decompress u0 = .next u →
        u.env.inScript = q ++ rest → gives w q = true → bs.length < u.env.outCredit →
        ∃ m, let v := engineRun m u
          v.regs.state = .done ∧ v.env.outTrace = u.env.outTrace ++ bs.map (writeTx 8) ++ [.close] ∧
          v.regs.symCount = BitVec.ofNat 32 bs.length ∧ v.env.inScript = rest ∧
          inStream v.env.inTrace = inStream u.env.inTrace ++ outStream w

/-! ### Whole-machine rules -/

/-- 60_exceptions.md R257 and 10_state.md R57: in IDLE, DONE and ERROR the engine takes no step; while a transaction is
outstanding and the environment does not complete it, nothing changes. -/
def Obligations.EngineWaits : Prop :=
  ∀ (s : State),
    (s.regs.state ≠ .busy → engineEvent s = s) ∧
    (∀ w, s.eng.pending = some (.inReq w) → s.env.inScript = [] → engineEvent s = s) ∧
    (∀ w, s.eng.pending = some (.outReq w) → s.env.outCredit = 0 → engineEvent s = s)

/-- 10_state.md R32: the transitions of STATE. A reset goes to IDLE; where it waits for STATE <- DONE (log 18), that is the step and STATE
is DONE. Without a reset IDLE goes to BUSY, BUSY to DONE or ERROR, DONE and ERROR to BUSY or IDLE, and no other transition exists.
00_scope.md R17: while a command runs PHASE changes only in the event PHASE <- p, which writes p, no other register and no table, and makes
no transaction. 44_encoder.md R186, 45_decoder.md R206: PHASE then goes to the next phase of that command, so none is skipped, from every
state in which STATUS and the engine agree (`Obligations.StatusAgreesWithTheEngine`). -/
def Obligations.OnlyTheListedStateTransitions : Prop :=
  ∀ (s t : State), step s = .next t →
    ((∃ rest, s.env.agenda = .reset :: rest) → t.regs.state = if s.closing then .done else .idle) ∧
    ((∀ rest, s.env.agenda ≠ .reset :: rest) → s.regs.state.mayBecome t.regs.state = true) ∧
    ((∀ rest, s.env.agenda ≠ .reset :: rest) → s.regs.state = .busy → t.regs.phase ≠ s.regs.phase →
      s.eng.pending = none ∧ s.eng.todo = some (.enterPhase t.regs.phase) ∧
      t.regs = { s.regs with phase := t.regs.phase } ∧ t.tables = s.tables ∧
      t.env.inTrace = s.env.inTrace ∧ t.env.outTrace = s.env.outTrace ∧ t.env.inScript = s.env.inScript) ∧
    ((∀ rest, s.env.agenda ≠ .reset :: rest) → s.coherent = true → s.regs.state = .busy →
      t.regs.phase = s.regs.phase ∨ t.regs.phase = s.regs.phase.following s.regs.mode)

/-- 42_code_table_gen.md R162, 10_state.md R51, R55; 20_memory.md R99: without a reset, FREQ changes only in COUNT, CODE only in
CODEGEN, and NODE only in BUILD and HEADER_IN, each in an internal event of its own and in none of a transaction (20_memory.md R94), but
that the slot a leaf's type bit allocates loses its content there (log 2); a host read or write changes none of them, wherever the engine
stands. -/
def Obligations.TablesChangeOnlyInTheirPhases : Prop :=
  ∀ (s t : State), step s = .next t → (∀ rest, s.env.agenda ≠ .reset :: rest) →
    (¬ (s.regs.state = .busy ∧ s.eng.pending = none ∧
        (s.eng.todo = some .clearFreq ∨ ∃ b, s.eng.todo = some (.countByte b))) →
      t.tables.freq = s.tables.freq ∧ t.tables.freqFill = s.tables.freqFill) ∧
    (¬ (s.regs.state = .busy ∧ s.eng.pending = none ∧ s.eng.todo = some .codegen) →
      t.tables.code = s.tables.code ∧ t.tables.codeFill = s.tables.codeFill) ∧
    (¬ (s.regs.state = .busy ∧ (s.eng.pending = some (.inReq .typeBit) ∨
        s.eng.pending = none ∧ (s.eng.todo = some .build ∨ (∃ n, s.eng.todo = some (.writeNode n)) ∨
          ∃ i, s.eng.todo = some (.link i)))) →
      t.tables.node = s.tables.node) ∧
    ((∃ addr rest, s.env.agenda = .hostRead addr :: rest) ∨ (∃ addr v rest, s.env.agenda = .hostWrite addr v :: rest) →
      t.tables = s.tables)

/-- STATUS and the engine's position agree after every step from every state in which they agree: at most one transaction is
outstanding, it is one of the phase PHASE names, ERR_CODE is 0 unless STATE is ERROR, and in ERROR, PHASE and MODE are those of
the error (10_state.md R32, R33, R39, R57; 60_exceptions.md R241). -/
def Obligations.StatusAgreesWithTheEngine : Prop :=
  ∀ (s t : State), s.coherent = true → step s = .next t → t.coherent = true

/-- Every step keeps the tables in canonical form: indices strictly rising and inside the table (10_state.md R51 to R53). Both are the
model's: the sparse form is log 2, and that a write outside a table does nothing, from which the bound follows in states no run
reaches, is log 16. -/
def Obligations.TablesStayCanonical : Prop :=
  ∀ (s t : State), s.tables.wf = true → step s = .next t → t.tables.wf = true

/-- Every step keeps the parse's invariant: NODE_COUNT is NEXT, at most 513, and the pending nodes are allocated slots
(43_tree_serializer.md R172, R174, R176). -/
def Obligations.ParseInvariantIsKept : Prop :=
  ∀ (s t : State), s.parseOk = true → step s = .next t → t.parseOk = true

/-- The three invariants above hold at reset (10_state.md R59). -/
def Obligations.InvariantsHoldAtReset : Prop :=
  State.reset.coherent = true ∧ State.reset.tables.wf = true ∧ State.reset.parseOk = true
end

