-- ==== Sys2Proof/Laws/Decode.lean ====
section
/-!
SUPPORT. The bit view and its inverse, and what each port's decoder accepts (20_memory.md R90; 30_encoding.md R101, R102, R111, R112).
-/

namespace Sys2Proof

theorem length_bitView (w : Nat) {n} (v : BitVec n) : (bitView w v).length = w := by simp [bitView]

theorem ofBits_append (a b : List Bool) : ofBits (a ++ b) = ofBits a * 2 ^ b.length + ofBits b := by
  have key : ∀ (b : List Bool) (x : Nat), b.foldl (fun acc c => 2 * acc + c.toNat) x = x * 2 ^ b.length + ofBits b := by
    intro b
    induction b with
    | nil => intro x; simp [ofBits]
    | cons c r ih =>
      intro x
      simp only [ofBits, List.foldl_cons, List.length_cons] at *
      rw [ih, ih (2 * 0 + c.toNat)]; ring
  unfold ofBits
  rw [List.foldl_append, key b]; rfl

theorem bitView_succ (w : Nat) {n} (v : BitVec n) : bitView (w + 1) v = v.getLsbD w :: bitView w v := by
  simp only [bitView, List.range_succ_eq_map, List.map_cons, List.map_map]
  congr 1
  apply List.map_congr_left
  intro k _
  simp only [Function.comp]
  congr 1
  omega

theorem ofBits_bitView (w : Nat) {n} (v : BitVec n) : ofBits (bitView w v) = v.toNat % 2 ^ w := by
  induction w with
  | zero => simp [bitView, ofBits, Nat.mod_one]
  | succ w ih =>
    rw [bitView_succ, ← List.singleton_append, ofBits_append, ih, length_bitView]
    have h1 : ofBits [v.getLsbD w] = (v.getLsbD w).toNat := by simp [ofBits]
    rw [h1, Nat.mod_pow_succ, BitVec.getLsbD, Nat.testBit, Nat.shiftRight_eq_div_pow]
    have : (1 &&& v.toNat / 2 ^ w != 0).toNat = v.toNat / 2 ^ w % 2 := by
      rw [Nat.one_and_eq_mod_two]
      rcases Nat.mod_two_eq_zero_or_one (v.toNat / 2 ^ w) with h | h <;> simp [h]
    rw [this]; ring

theorem ofBits_lt (bs : List Bool) : ofBits bs < 2 ^ bs.length := by
  induction bs using List.reverseRecOn with
  | nil => simp [ofBits]
  | append_singleton l b ih =>
    rw [ofBits_append]
    have : ofBits [b] < 2 := by cases b <;> decide
    simp only [List.length_append, List.length_singleton, pow_succ, pow_zero, one_mul]; omega

/-- Bits are the bit view of their own number. -/
theorem bitView_ofBits (bs : List Bool) {n : Nat} (h : bs.length ≤ n) :
    bitView bs.length (BitVec.ofNat n (ofBits bs)) = bs := by
  induction bs with
  | nil => rfl
  | cons b r ih =>
    simp only [List.length_cons] at h
    rw [List.length_cons, bitView_succ]
    have e : ofBits (b :: r) = b.toNat * 2 ^ r.length + ofBits r := by
      rw [← List.singleton_append, ofBits_append]; simp [ofBits]
    have lt := ofBits_lt r
    have p1 : 2 ^ (r.length + 1) ≤ 2 ^ n := Nat.pow_le_pow_right (by omega) h
    have hb : b.toNat < 2 := by cases b <;> decide
    congr 1
    · rw [BitVec.getLsbD_ofNat, e]
      have : r.length < n := by omega
      simp only [this, decide_true, Bool.true_and]
      rw [Nat.testBit, Nat.shiftRight_eq_div_pow, Nat.mul_comm, Nat.mul_add_div (by positivity), Nat.div_eq_of_lt lt]
      cases b <;> rfl
    · have : bitView r.length (BitVec.ofNat n (ofBits (b :: r))) = bitView r.length (BitVec.ofNat n (ofBits r)) := by
        unfold bitView
        apply List.map_congr_left
        intro k hk
        have hk' := List.mem_range.1 hk
        rw [BitVec.getLsbD_ofNat, BitVec.getLsbD_ofNat, e]
        congr 1
        rw [Nat.mul_comm, Nat.testBit_two_pow_mul_add _ lt]
        simp [show r.length - 1 - k < r.length by omega]
      rw [this]; exact ih (by omega)

theorem bitView_ofNat_ofBits {bs : List Bool} {n : Nat} (h : bs.length = n) :
    bitView n (BitVec.ofNat n (ofBits bs)) = bs := by
  subst h; exact bitView_ofBits bs le_rfl

theorem ofNat_ofBits_bitView {n : Nat} (v : BitVec n) : BitVec.ofNat n (ofBits (bitView n v)) = v := by
  rw [ofBits_bitView]; apply BitVec.eq_of_toNat_eq; simp

theorem decode_command (v : Word) (rest : List Bool) :
    decode .command (bitView 32 v ++ rest) = (decodeCommand v).map (·, rest) := by
  simp only [decode]
  have hl := length_bitView 32 v
  rw [if_neg (by simp [hl]), List.take_left' hl, List.drop_left' hl, ofNat_ofBits_bitView]

theorem decode_magic (v : Word) (rest : List Bool) :
    decode .magic (bitView 32 v ++ rest) = (decodeMagic v).map (·, rest) := by
  simp only [decode]
  have hl := length_bitView 32 v
  rw [if_neg (by simp [hl]), List.take_left' hl, List.drop_left' hl, ofNat_ofBits_bitView]

theorem decode_leaf (s : Symbol) (rest : List Bool) :
    decodeHeader (true :: (bitView 9 s ++ rest)) = .ok (.treeLeaf s, rest) := by
  simp only [decodeHeader]
  have hl := length_bitView 9 s
  rw [if_neg (by simp [hl]), List.take_left' hl, List.drop_left' hl, ofNat_ofBits_bitView]

theorem decodeCommand_ok {v : Word} {i : Instr} (h : decodeCommand v = .ok i) :
    i.port = .command ∧ bitView 32 v = encode i ∧ v.toNat < 4 := by
  unfold decodeCommand at h
  split at h
  · cases h
  · rename_i hr
    have hr : v.toNat / 16 = 0 := by
      have := congrArg BitVec.toNat (not_not.1 hr)
      simp [BitVec.extractLsb', Nat.shiftRight_eq_div_pow] at this
      have := v.isLt
      omega
    have hv : v.toNat < 16 := by omega
    have ho : (v.extractLsb' 0 4).toNat = v.toNat := by
      simp [BitVec.extractLsb']; omega
    rw [ho] at h
    have e : v = BitVec.ofNat 32 v.toNat := by simp
    generalize v.toNat = n at h hv e
    subst e
    split at h
    all_goals first | (cases h; refine ⟨rfl, rfl, by decide⟩) | cases h

theorem decodeMagic_ok {v : Word} {i : Instr} (h : decodeMagic v = .ok i) :
    i.port = .magic ∧ bitView 32 v = encode i := by
  unfold decodeMagic at h
  split at h
  · cases h; subst_vars; exact ⟨rfl, rfl⟩
  · cases h

theorem decodeCommand_cases {v : Word} {i : Instr} (h : decodeCommand v = .ok i) :
    (i = .nop ∧ v = 0#32) ∨ (i = .compress ∧ v = 1#32) ∨ (i = .decompress ∧ v = 2#32) ∨ (i = .clear ∧ v = 3#32) := by
  unfold decodeCommand at h
  have key : v.extractLsb' 4 28 = 0#28 → v.toNat < 16 := by
    intro h
    rw [← BitVec.toNat_inj] at h
    simp [BitVec.extractLsb', Nat.shiftRight_eq_div_pow] at h
    have := v.isLt
    omega
  have ho : (v.extractLsb' 0 4).toNat = v.toNat % 16 := by simp [BitVec.extractLsb']
  split at h
  · cases h
  · rename_i hr
    have hl := key (not_not.1 hr)
    have hv : v = BitVec.ofNat 32 v.toNat := by simp
    rw [ho, Nat.mod_eq_of_lt hl] at h
    rw [hv]
    split at h <;> rename_i he <;> (try cases h) <;> simp [he]

end Sys2Proof
end

