-- ==== Sys2Proof/Laws/State.lean ====
section
/-!
SUPPORT. One lemma per part of the state per update: what each named operation writes and what it leaves (all by `rfl`, tagged
for simp), so that no later proof unfolds a record update.
-/

namespace Sys2Proof.Machine

variable (s : State)

/-! ### Whole-part updates -/

@[simp] theorem State.setCmdErr_regs : (s.setCmdErr).regs = { s.regs with cmdErr := true } := rfl
@[simp] theorem State.setCmdErr_tables : (s.setCmdErr).tables = s.tables := rfl
@[simp] theorem State.setCmdErr_eng : (s.setCmdErr).eng = s.eng := rfl
@[simp] theorem State.setCmdErr_env : (s.setCmdErr).env = s.env := rfl

@[simp] theorem State.setPhase_regs (p : Phase) : (s.setPhase p).regs = { s.regs with phase := p } := rfl
@[simp] theorem State.setPhase_tables (p : Phase) : (s.setPhase p).tables = s.tables := rfl
@[simp] theorem State.setPhase_eng (p : Phase) : (s.setPhase p).eng = s.eng := rfl
@[simp] theorem State.setPhase_env (p : Phase) : (s.setPhase p).env = s.env := rfl

@[simp] theorem State.await_regs (o : Outstanding) : (s.await o).regs = s.regs := rfl
@[simp] theorem State.await_tables (o : Outstanding) : (s.await o).tables = s.tables := rfl
@[simp] theorem State.await_eng (o : Outstanding) : (s.await o).eng = { s.eng with pending := some o, todo := none } := rfl
@[simp] theorem State.await_env (o : Outstanding) : (s.await o).env = s.env := rfl

@[simp] theorem State.plan_regs (e : Internal) : (s.plan e).regs = s.regs := rfl
@[simp] theorem State.plan_tables (e : Internal) : (s.plan e).tables = s.tables := rfl
@[simp] theorem State.plan_eng (e : Internal) : (s.plan e).eng = { s.eng with pending := none, todo := some e } := rfl
@[simp] theorem State.plan_env (e : Internal) : (s.plan e).env = s.env := rfl

@[simp] theorem State.halt_regs : (s.halt).regs = s.regs := rfl
@[simp] theorem State.halt_tables : (s.halt).tables = s.tables := rfl
@[simp] theorem State.halt_eng : (s.halt).eng = { s.eng with pending := none, todo := none } := rfl
@[simp] theorem State.halt_env : (s.halt).env = s.env := rfl

@[simp] theorem State.countBits_regs (w : Nat) : (s.countBits w).regs = { s.regs with bitCount := s.regs.bitCount + BitVec.ofNat 32 w } := rfl
@[simp] theorem State.countBits_tables (w : Nat) : (s.countBits w).tables = s.tables := rfl
@[simp] theorem State.countBits_eng (w : Nat) : (s.countBits w).eng = s.eng := rfl
@[simp] theorem State.countBits_env (w : Nat) : (s.countBits w).env = s.env := rfl

@[simp] theorem State.countSym_regs : (s.countSym).regs = { s.regs with symCount := s.regs.symCount + 1#32 } := rfl
@[simp] theorem State.countSym_tables : (s.countSym).tables = s.tables := rfl
@[simp] theorem State.countSym_eng : (s.countSym).eng = s.eng := rfl
@[simp] theorem State.countSym_env : (s.countSym).env = s.env := rfl

@[simp] theorem State.countEnc_regs : (s.countEnc).regs = { s.regs with encCount := s.regs.encCount + 1#32 } := rfl
@[simp] theorem State.countEnc_tables : (s.countEnc).tables = s.tables := rfl
@[simp] theorem State.countEnc_eng : (s.countEnc).eng = s.eng := rfl
@[simp] theorem State.countEnc_env : (s.countEnc).env = s.env := rfl

@[simp] theorem State.recordIn_regs (t : InTx) : (s.recordIn t).regs = s.regs := rfl
@[simp] theorem State.recordIn_tables (t : InTx) : (s.recordIn t).tables = s.tables := rfl
@[simp] theorem State.recordIn_eng (t : InTx) : (s.recordIn t).eng = s.eng := rfl
@[simp] theorem State.recordIn_env (t : InTx) : (s.recordIn t).env = { s.env with inTrace := s.env.inTrace ++ [t] } := rfl

@[simp] theorem State.recordOut_regs (t : OutTx) : (s.recordOut t).regs = s.regs := rfl
@[simp] theorem State.recordOut_tables (t : OutTx) : (s.recordOut t).tables = s.tables := rfl
@[simp] theorem State.recordOut_eng (t : OutTx) : (s.recordOut t).eng = s.eng := rfl
@[simp] theorem State.recordOut_env (t : OutTx) : (s.recordOut t).env = { s.env with outTrace := s.env.outTrace ++ [t] } := rfl

@[simp] theorem State.readRaw_regs {w : Nat} (r : Option (BitVec w)) : (s.readRaw r).regs = s.regs := rfl
@[simp] theorem State.readRaw_tables {w : Nat} (r : Option (BitVec w)) : (s.readRaw r).tables = s.tables := rfl
@[simp] theorem State.readRaw_eng {w : Nat} (r : Option (BitVec w)) : (s.readRaw r).eng = s.eng := rfl
@[simp] theorem State.readRaw_env {w : Nat} (r : Option (BitVec w)) : (s.readRaw r).env = { s.env with inTrace := s.env.inTrace ++ [readTx r] } := rfl

@[simp] theorem State.clearFreq_regs : (s.clearFreq).regs = s.regs := rfl
@[simp] theorem State.clearFreq_tables : (s.clearFreq).tables = { s.tables with freq := [], freqFill := .cleared } := rfl
@[simp] theorem State.clearFreq_eng : (s.clearFreq).eng = s.eng := rfl
@[simp] theorem State.clearFreq_env : (s.clearFreq).env = s.env := rfl

@[simp] theorem State.clearCode_regs : (s.clearCode).regs = s.regs := rfl
@[simp] theorem State.clearCode_tables : (s.clearCode).tables = { s.tables with code := [], codeFill := .cleared } := rfl
@[simp] theorem State.clearCode_eng : (s.clearCode).eng = s.eng := rfl
@[simp] theorem State.clearCode_env : (s.clearCode).env = s.env := rfl

@[simp] theorem State.forgetNode_regs (i : NodeIndex) : (s.forgetNode i).regs = s.regs := rfl
@[simp] theorem State.forgetNode_tables (i : NodeIndex) : (s.forgetNode i).tables = { s.tables with node := erase i.toNat s.tables.node } := rfl
@[simp] theorem State.forgetNode_eng (i : NodeIndex) : (s.forgetNode i).eng = s.eng := rfl
@[simp] theorem State.forgetNode_env (i : NodeIndex) : (s.forgetNode i).env = s.env := rfl

@[simp] theorem State.moveTo_regs (i : NodeIndex) : (s.moveTo i).regs = s.regs := rfl
@[simp] theorem State.moveTo_tables (i : NodeIndex) : (s.moveTo i).tables = s.tables := rfl
@[simp] theorem State.moveTo_eng (i : NodeIndex) : (s.moveTo i).eng = { s.eng with cur := i } := rfl
@[simp] theorem State.moveTo_env (i : NodeIndex) : (s.moveTo i).env = s.env := rfl

@[simp] theorem State.toIdle_regs : (s.toIdle).regs = { s.regs with state := .idle, phase := .none, errCode := none, cmdErr := false } := rfl
@[simp] theorem State.toIdle_tables : (s.toIdle).tables = s.tables := rfl
@[simp] theorem State.toIdle_eng : (s.toIdle).eng = s.eng := rfl
@[simp] theorem State.toIdle_env : (s.toIdle).env = s.env := rfl

@[simp] theorem State.errorEntry_regs (e : HuffError) : (s.errorEntry e).regs = { s.regs with errCode := some e, state := .error } := rfl
@[simp] theorem State.errorEntry_tables (e : HuffError) : (s.errorEntry e).tables = s.tables := rfl
@[simp] theorem State.errorEntry_eng (e : HuffError) : (s.errorEntry e).eng = { s.eng with pending := none, todo := none } := rfl
@[simp] theorem State.errorEntry_env (e : HuffError) : (s.errorEntry e).env = s.env := rfl

@[simp] theorem State.dropAnswers_regs (n : Nat) : (s.dropAnswers n).regs = s.regs := rfl
@[simp] theorem State.dropAnswers_tables (n : Nat) : (s.dropAnswers n).tables = s.tables := rfl
@[simp] theorem State.dropAnswers_eng (n : Nat) : (s.dropAnswers n).eng = s.eng := rfl
@[simp] theorem State.dropAnswers_env (n : Nat) : (s.dropAnswers n).env = { s.env with inScript := s.env.inScript.drop n } := rfl

@[simp] theorem State.spendCredit_regs : (s.spendCredit).regs = s.regs := rfl
@[simp] theorem State.spendCredit_tables : (s.spendCredit).tables = s.tables := rfl
@[simp] theorem State.spendCredit_eng : (s.spendCredit).eng = s.eng := rfl
@[simp] theorem State.spendCredit_env : (s.spendCredit).env = { s.env with outCredit := s.env.outCredit - 1 } := rfl

@[simp] theorem State.withAgenda_regs (es : List Event) : (s.withAgenda es).regs = s.regs := rfl
@[simp] theorem State.withAgenda_tables (es : List Event) : (s.withAgenda es).tables = s.tables := rfl
@[simp] theorem State.withAgenda_eng (es : List Event) : (s.withAgenda es).eng = s.eng := rfl
@[simp] theorem State.withAgenda_env (es : List Event) : (s.withAgenda es).env = { s.env with agenda := es } := rfl

@[simp] theorem State.applyReset_regs : (s.applyReset).regs = Regs.reset := rfl
@[simp] theorem State.applyReset_tables : (s.applyReset).tables = Tables.unspecified s.env.draws := rfl
@[simp] theorem State.applyReset_eng : (s.applyReset).eng = Engine.reset := rfl
@[simp] theorem State.applyReset_env : (s.applyReset).env = { s.env with draws := s.env.draws + 1, staleDraw := s.env.draws } := rfl

@[simp] theorem State.begin_regs (m : Mode) (p : Phase) : (s.begin m p).regs = 
    { s.regs with state := .busy, mode := m, errCode := none, phase := p,
                  symCount := 0#32, encCount := 0#32, bitCount := 0#32,
                  leafCount := 0#10, nodeCount := 0#10, root := 0#10, treeDepth := 0#9 } := rfl
@[simp] theorem State.begin_tables (m : Mode) (p : Phase) : (s.begin m p).tables = s.tables := rfl
@[simp] theorem State.begin_eng (m : Mode) (p : Phase) : (s.begin m p).eng = s.eng := rfl
@[simp] theorem State.begin_env (m : Mode) (p : Phase) : (s.begin m p).env = { s.env with draws := s.env.draws + 1, staleDraw := s.env.draws } := rfl

/-! ### Table writes -/

@[simp] theorem State.setFreq_regs (i : Nat) (v : Word) : (s.setFreq i v).regs = s.regs := by unfold State.setFreq; split <;> rfl
@[simp] theorem State.setFreq_eng (i : Nat) (v : Word) : (s.setFreq i v).eng = s.eng := by unfold State.setFreq; split <;> rfl
@[simp] theorem State.setFreq_env (i : Nat) (v : Word) : (s.setFreq i v).env = s.env := by unfold State.setFreq; split <;> rfl

@[simp] theorem State.setCode_regs (i : Nat) (c : CodeEntry) : (s.setCode i c).regs = s.regs := by unfold State.setCode; split <;> rfl
@[simp] theorem State.setCode_eng (i : Nat) (c : CodeEntry) : (s.setCode i c).eng = s.eng := by unfold State.setCode; split <;> rfl
@[simp] theorem State.setCode_env (i : Nat) (c : CodeEntry) : (s.setCode i c).env = s.env := by unfold State.setCode; split <;> rfl

@[simp] theorem State.setNode_regs (i : NodeIndex) (n : Node) : (s.setNode i n).regs = s.regs := by unfold State.setNode; split <;> rfl
@[simp] theorem State.setNode_eng (i : NodeIndex) (n : Node) : (s.setNode i n).eng = s.eng := by unfold State.setNode; split <;> rfl
@[simp] theorem State.setNode_env (i : NodeIndex) (n : Node) : (s.setNode i n).env = s.env := by unfold State.setNode; split <;> rfl

@[simp] theorem State.setFreq_freqFill (i : Nat) (v : Word) : (s.setFreq i v).tables.freqFill = s.tables.freqFill := by
  unfold State.setFreq; split <;> rfl
@[simp] theorem State.setFreq_code (i : Nat) (v : Word) : (s.setFreq i v).tables.code = s.tables.code := by
  unfold State.setFreq; split <;> rfl
@[simp] theorem State.setFreq_codeFill (i : Nat) (v : Word) : (s.setFreq i v).tables.codeFill = s.tables.codeFill := by
  unfold State.setFreq; split <;> rfl
@[simp] theorem State.setFreq_node (i : Nat) (v : Word) : (s.setFreq i v).tables.node = s.tables.node := by
  unfold State.setFreq; split <;> rfl

@[simp] theorem State.setCode_freq (i : Nat) (c : CodeEntry) : (s.setCode i c).tables.freq = s.tables.freq := by
  unfold State.setCode; split <;> rfl
@[simp] theorem State.setCode_freqFill (i : Nat) (c : CodeEntry) : (s.setCode i c).tables.freqFill = s.tables.freqFill := by
  unfold State.setCode; split <;> rfl
@[simp] theorem State.setCode_codeFill (i : Nat) (c : CodeEntry) : (s.setCode i c).tables.codeFill = s.tables.codeFill := by
  unfold State.setCode; split <;> rfl
@[simp] theorem State.setCode_node (i : Nat) (c : CodeEntry) : (s.setCode i c).tables.node = s.tables.node := by
  unfold State.setCode; split <;> rfl

@[simp] theorem State.setNode_freq (i : NodeIndex) (n : Node) : (s.setNode i n).tables.freq = s.tables.freq := by
  unfold State.setNode; split <;> rfl
@[simp] theorem State.setNode_freqFill (i : NodeIndex) (n : Node) : (s.setNode i n).tables.freqFill = s.tables.freqFill := by
  unfold State.setNode; split <;> rfl
@[simp] theorem State.setNode_code (i : NodeIndex) (n : Node) : (s.setNode i n).tables.code = s.tables.code := by
  unfold State.setNode; split <;> rfl
@[simp] theorem State.setNode_codeFill (i : NodeIndex) (n : Node) : (s.setNode i n).tables.codeFill = s.tables.codeFill := by
  unfold State.setNode; split <;> rfl

/-! ### A compressed-side READ -/

@[simp] theorem readTx_none (w : Nat) : readTx (none : Option (BitVec w)) = .read (BitVec.ofNat 6 w) none := rfl

@[simp] theorem readTx_some {w : Nat} (v : BitVec w) : readTx (some v) = .read (BitVec.ofNat 6 w) (some (v.setWidth 32)) := rfl

@[simp] theorem State.readCoded_none (w : Nat) :
    s.readCoded (none : Option (BitVec w)) = s.recordIn (.read (BitVec.ofNat 6 w) none) := rfl

@[simp] theorem State.readCoded_some {w : Nat} (v : BitVec w) :
    s.readCoded (some v) = (s.recordIn (.read (BitVec.ofNat 6 w) (some (v.setWidth 32)))).countBits w := rfl

/-! ### Reading a table depends on that table only -/

@[simp] theorem State.setCmdErr_nodeAt (k : NodeIndex) : (s.setCmdErr).nodeAt k = s.nodeAt k := rfl
@[simp] theorem State.setPhase_nodeAt (p : Phase) (k : NodeIndex) : (s.setPhase p).nodeAt k = s.nodeAt k := rfl
@[simp] theorem State.await_nodeAt (o : Outstanding) (k : NodeIndex) : (s.await o).nodeAt k = s.nodeAt k := rfl
@[simp] theorem State.plan_nodeAt (e : Internal) (k : NodeIndex) : (s.plan e).nodeAt k = s.nodeAt k := rfl
@[simp] theorem State.halt_nodeAt (k : NodeIndex) : (s.halt).nodeAt k = s.nodeAt k := rfl
@[simp] theorem State.countBits_nodeAt (w : Nat) (k : NodeIndex) : (s.countBits w).nodeAt k = s.nodeAt k := rfl
@[simp] theorem State.countSym_nodeAt (k : NodeIndex) : (s.countSym).nodeAt k = s.nodeAt k := rfl
@[simp] theorem State.countEnc_nodeAt (k : NodeIndex) : (s.countEnc).nodeAt k = s.nodeAt k := rfl
@[simp] theorem State.recordIn_nodeAt (t : InTx) (k : NodeIndex) : (s.recordIn t).nodeAt k = s.nodeAt k := rfl
@[simp] theorem State.recordOut_nodeAt (t : OutTx) (k : NodeIndex) : (s.recordOut t).nodeAt k = s.nodeAt k := rfl
@[simp] theorem State.readRaw_nodeAt {w : Nat} (r : Option (BitVec w)) (k : NodeIndex) : (s.readRaw r).nodeAt k = s.nodeAt k := rfl
@[simp] theorem State.moveTo_nodeAt (i : NodeIndex) (k : NodeIndex) : (s.moveTo i).nodeAt k = s.nodeAt k := rfl
@[simp] theorem State.toIdle_nodeAt (k : NodeIndex) : (s.toIdle).nodeAt k = s.nodeAt k := rfl
@[simp] theorem State.errorEntry_nodeAt (e : HuffError) (k : NodeIndex) : (s.errorEntry e).nodeAt k = s.nodeAt k := rfl
@[simp] theorem State.dropAnswers_nodeAt (n : Nat) (k : NodeIndex) : (s.dropAnswers n).nodeAt k = s.nodeAt k := rfl
@[simp] theorem State.spendCredit_nodeAt (k : NodeIndex) : (s.spendCredit).nodeAt k = s.nodeAt k := rfl
@[simp] theorem State.withAgenda_nodeAt (es : List Event) (k : NodeIndex) : (s.withAgenda es).nodeAt k = s.nodeAt k := rfl
@[simp] theorem State.clearFreq_nodeAt (k : NodeIndex) : (s.clearFreq).nodeAt k = s.nodeAt k := rfl
@[simp] theorem State.clearCode_nodeAt (k : NodeIndex) : (s.clearCode).nodeAt k = s.nodeAt k := rfl

@[simp] theorem State.setCmdErr_codeAt (k : Nat) : (s.setCmdErr).codeAt k = s.codeAt k := rfl
@[simp] theorem State.setPhase_codeAt (p : Phase) (k : Nat) : (s.setPhase p).codeAt k = s.codeAt k := rfl
@[simp] theorem State.await_codeAt (o : Outstanding) (k : Nat) : (s.await o).codeAt k = s.codeAt k := rfl
@[simp] theorem State.plan_codeAt (e : Internal) (k : Nat) : (s.plan e).codeAt k = s.codeAt k := rfl
@[simp] theorem State.halt_codeAt (k : Nat) : (s.halt).codeAt k = s.codeAt k := rfl
@[simp] theorem State.countBits_codeAt (w : Nat) (k : Nat) : (s.countBits w).codeAt k = s.codeAt k := rfl
@[simp] theorem State.countSym_codeAt (k : Nat) : (s.countSym).codeAt k = s.codeAt k := rfl
@[simp] theorem State.countEnc_codeAt (k : Nat) : (s.countEnc).codeAt k = s.codeAt k := rfl
@[simp] theorem State.recordIn_codeAt (t : InTx) (k : Nat) : (s.recordIn t).codeAt k = s.codeAt k := rfl
@[simp] theorem State.recordOut_codeAt (t : OutTx) (k : Nat) : (s.recordOut t).codeAt k = s.codeAt k := rfl
@[simp] theorem State.readRaw_codeAt {w : Nat} (r : Option (BitVec w)) (k : Nat) : (s.readRaw r).codeAt k = s.codeAt k := rfl
@[simp] theorem State.moveTo_codeAt (i : NodeIndex) (k : Nat) : (s.moveTo i).codeAt k = s.codeAt k := rfl
@[simp] theorem State.toIdle_codeAt (k : Nat) : (s.toIdle).codeAt k = s.codeAt k := rfl
@[simp] theorem State.errorEntry_codeAt (e : HuffError) (k : Nat) : (s.errorEntry e).codeAt k = s.codeAt k := rfl
@[simp] theorem State.dropAnswers_codeAt (n : Nat) (k : Nat) : (s.dropAnswers n).codeAt k = s.codeAt k := rfl
@[simp] theorem State.spendCredit_codeAt (k : Nat) : (s.spendCredit).codeAt k = s.codeAt k := rfl
@[simp] theorem State.withAgenda_codeAt (es : List Event) (k : Nat) : (s.withAgenda es).codeAt k = s.codeAt k := rfl
@[simp] theorem State.clearFreq_codeAt (k : Nat) : (s.clearFreq).codeAt k = s.codeAt k := rfl
@[simp] theorem State.forgetNode_codeAt (j : NodeIndex) (k : Nat) : (s.forgetNode j).codeAt k = s.codeAt k := rfl

@[simp] theorem State.setCmdErr_freqAt (k : Nat) : (s.setCmdErr).freqAt k = s.freqAt k := rfl
@[simp] theorem State.setPhase_freqAt (p : Phase) (k : Nat) : (s.setPhase p).freqAt k = s.freqAt k := rfl
@[simp] theorem State.await_freqAt (o : Outstanding) (k : Nat) : (s.await o).freqAt k = s.freqAt k := rfl
@[simp] theorem State.plan_freqAt (e : Internal) (k : Nat) : (s.plan e).freqAt k = s.freqAt k := rfl
@[simp] theorem State.halt_freqAt (k : Nat) : (s.halt).freqAt k = s.freqAt k := rfl
@[simp] theorem State.countBits_freqAt (w : Nat) (k : Nat) : (s.countBits w).freqAt k = s.freqAt k := rfl
@[simp] theorem State.countSym_freqAt (k : Nat) : (s.countSym).freqAt k = s.freqAt k := rfl
@[simp] theorem State.countEnc_freqAt (k : Nat) : (s.countEnc).freqAt k = s.freqAt k := rfl
@[simp] theorem State.recordIn_freqAt (t : InTx) (k : Nat) : (s.recordIn t).freqAt k = s.freqAt k := rfl
@[simp] theorem State.recordOut_freqAt (t : OutTx) (k : Nat) : (s.recordOut t).freqAt k = s.freqAt k := rfl
@[simp] theorem State.readRaw_freqAt {w : Nat} (r : Option (BitVec w)) (k : Nat) : (s.readRaw r).freqAt k = s.freqAt k := rfl
@[simp] theorem State.moveTo_freqAt (i : NodeIndex) (k : Nat) : (s.moveTo i).freqAt k = s.freqAt k := rfl
@[simp] theorem State.toIdle_freqAt (k : Nat) : (s.toIdle).freqAt k = s.freqAt k := rfl
@[simp] theorem State.errorEntry_freqAt (e : HuffError) (k : Nat) : (s.errorEntry e).freqAt k = s.freqAt k := rfl
@[simp] theorem State.dropAnswers_freqAt (n : Nat) (k : Nat) : (s.dropAnswers n).freqAt k = s.freqAt k := rfl
@[simp] theorem State.spendCredit_freqAt (k : Nat) : (s.spendCredit).freqAt k = s.freqAt k := rfl
@[simp] theorem State.withAgenda_freqAt (es : List Event) (k : Nat) : (s.withAgenda es).freqAt k = s.freqAt k := rfl
@[simp] theorem State.clearCode_freqAt (k : Nat) : (s.clearCode).freqAt k = s.freqAt k := rfl
@[simp] theorem State.forgetNode_freqAt (j : NodeIndex) (k : Nat) : (s.forgetNode j).freqAt k = s.freqAt k := rfl

@[simp] theorem State.setFreq_nodeAt (i : Nat) (v : Word) (k : NodeIndex) : (s.setFreq i v).nodeAt k = s.nodeAt k := by
  unfold State.setFreq; split <;> rfl
@[simp] theorem State.setCode_nodeAt (i : Nat) (c : CodeEntry) (k : NodeIndex) : (s.setCode i c).nodeAt k = s.nodeAt k := by
  unfold State.setCode; split <;> rfl
@[simp] theorem State.setFreq_codeAt (i : Nat) (v : Word) (k : Nat) : (s.setFreq i v).codeAt k = s.codeAt k := by
  unfold State.setFreq; split <;> rfl
@[simp] theorem State.setNode_codeAt (i : NodeIndex) (n : Node) (k : Nat) : (s.setNode i n).codeAt k = s.codeAt k := by
  unfold State.setNode; split <;> rfl
@[simp] theorem State.setCode_freqAt (i : Nat) (c : CodeEntry) (k : Nat) : (s.setCode i c).freqAt k = s.freqAt k := by
  unfold State.setCode; split <;> rfl
@[simp] theorem State.setNode_freqAt (i : NodeIndex) (n : Node) (k : Nat) : (s.setNode i n).freqAt k = s.freqAt k := by
  unfold State.setNode; split <;> rfl

theorem State.nodeAt_congr {s t : State} (hn : t.tables.node = s.tables.node)
    (hd : t.env.staleDraw = s.env.staleDraw) (i : NodeIndex) : t.nodeAt i = s.nodeAt i := by
  simp [State.nodeAt, State.staleNode, hn, hd]

theorem State.codeAt_congr {s t : State} (hc : t.tables.code = s.tables.code)
    (hf : t.tables.codeFill = s.tables.codeFill) (i : Nat) : t.codeAt i = s.codeAt i := by
  simp [State.codeAt, hc, hf]

theorem State.freqAt_congr {s t : State} (hc : t.tables.freq = s.tables.freq)
    (hf : t.tables.freqFill = s.tables.freqFill) (i : Nat) : t.freqAt i = s.freqAt i := by
  simp [State.freqAt, hc, hf]

end Sys2Proof.Machine
end

