-- ==== Sys2Proof/Laws/Tables.lean ====
section
/-!
SUPPORT. The sparse tables: a read after a write, and that every write keeps the canonical form.
-/

namespace Sys2Proof.Machine

variable {α : Type}

@[simp] theorem lookup_insert_self (i : Nat) (v : α) (t : List (Nat × α)) : lookup i (insert i v t) = some v := by
  induction t with
  | nil => simp [insert, lookup]
  | cons e rest ih =>
    obtain ⟨j, w⟩ := e
    simp only [insert]
    split
    · simp [lookup]
    · split
      · simp [lookup]
      · simp_all [lookup]

theorem lookup_insert_of_ne {i k : Nat} (h : k ≠ i) (v : α) (t : List (Nat × α)) :
    lookup k (insert i v t) = lookup k t := by
  induction t with
  | nil => simp [insert, lookup, h]
  | cons e rest ih =>
    obtain ⟨j, w⟩ := e
    simp only [insert]
    split
    · simp [lookup, h]
    · split
      · subst_vars; simp [lookup, h]
      · simp [lookup, ih]

theorem lookup_erase_of_ne {i k : Nat} (h : k ≠ i) (t : List (Nat × α)) : lookup k (erase i t) = lookup k t := by
  induction t with
  | nil => rfl
  | cons e rest ih =>
    obtain ⟨j, w⟩ := e
    simp only [erase]
    split
    · subst_vars; simp [lookup, h]
    · simp [lookup, ih]

/-- Every entry of an inserted list is the new one or an old one. -/
theorem mem_insert {i : Nat} {v : α} {t : List (Nat × α)} {e : Nat × α} (h : e ∈ insert i v t) : e = (i, v) ∨ e ∈ t := by
  induction t with
  | nil => simpa [insert] using h
  | cons x rest ih =>
    obtain ⟨j, w⟩ := x
    simp only [insert] at h
    split at h
    · simpa using h
    · split at h
      · rcases List.mem_cons.1 h with h | h
        · exact .inl h
        · exact .inr (List.mem_cons_of_mem _ h)
      · rcases List.mem_cons.1 h with h | h
        · exact .inr (by simp [h])
        · exact (ih h).imp id (List.mem_cons_of_mem _)

theorem erase_sublist (i : Nat) (t : List (Nat × α)) : (erase i t).Sublist t := by
  induction t with
  | nil => exact List.Sublist.slnil
  | cons x rest ih =>
    obtain ⟨j, w⟩ := x
    simp only [erase]
    split
    · exact List.sublist_cons_self _ _
    · exact ih.cons_cons _

theorem canonical_iff {n : Nat} {t : List (Nat × α)} :
    canonical n t = true ↔ t.Pairwise (fun a b => a.1 < b.1) ∧ ∀ e ∈ t, e.1 < n := by
  simp [canonical, List.pairwise_map]

theorem insert_pairwise {i : Nat} {v : α} {t : List (Nat × α)} (h : t.Pairwise fun a b => a.1 < b.1) :
    (insert i v t).Pairwise fun a b => a.1 < b.1 := by
  induction t with
  | nil => simp [insert]
  | cons x rest ih =>
    obtain ⟨j, w⟩ := x
    obtain ⟨hx, hr⟩ := List.pairwise_cons.1 h
    simp only [insert]
    split
    · rename_i hij
      refine List.pairwise_cons.2 ⟨fun e he => ?_, h⟩
      rcases List.mem_cons.1 he with rfl | he
      · exact hij
      · exact lt_trans hij (hx e he)
    · split
      · subst_vars; exact List.pairwise_cons.2 ⟨hx, hr⟩
      · refine List.pairwise_cons.2 ⟨fun e he => ?_, ih hr⟩
        rcases mem_insert he with rfl | he
        · simp only; omega
        · exact hx e he

/-- A write to an index the table has keeps the canonical form. -/
theorem canonical_insert {n i : Nat} {v : α} {t : List (Nat × α)} (hi : i < n) (h : canonical n t = true) :
    canonical n (insert i v t) = true := by
  rw [canonical_iff] at h ⊢
  refine ⟨insert_pairwise h.1, fun e he => ?_⟩
  rcases mem_insert he with rfl | he
  · exact hi
  · exact h.2 e he

theorem canonical_erase {n i : Nat} {t : List (Nat × α)} (h : canonical n t = true) : canonical n (erase i t) = true := by
  rw [canonical_iff] at h ⊢
  exact ⟨h.1.sublist (erase_sublist i t), fun e he => h.2 e ((erase_sublist i t).mem he)⟩

@[simp] theorem canonical_nil (n : Nat) : canonical n ([] : List (Nat × α)) = true := rfl

theorem Tables.wf_iff {t : Tables} : t.wf = true ↔
    canonical Config.numBytes t.freq = true ∧ canonical Config.numSymbols t.code = true ∧
      canonical Config.nodeCap t.node = true := by
  simp [Tables.wf, and_assoc]

theorem State.setFreq_wf {s : State} (h : s.tables.wf = true) (i : Nat) (v : Word) : (s.setFreq i v).tables.wf = true := by
  unfold State.setFreq
  split
  · rw [Tables.wf_iff] at h ⊢; exact ⟨canonical_insert ‹_› h.1, h.2⟩
  · exact h

theorem State.setCode_wf {s : State} (h : s.tables.wf = true) (i : Nat) (c : CodeEntry) :
    (s.setCode i c).tables.wf = true := by
  unfold State.setCode
  split
  · rw [Tables.wf_iff] at h ⊢; exact ⟨h.1, canonical_insert ‹_› h.2.1, h.2.2⟩
  · exact h

theorem State.setNode_wf {s : State} (h : s.tables.wf = true) (i : NodeIndex) (n : Node) :
    (s.setNode i n).tables.wf = true := by
  unfold State.setNode
  split
  · rw [Tables.wf_iff] at h ⊢; exact ⟨h.1, h.2.1, canonical_insert ‹_› h.2.2⟩
  · exact h

theorem State.forgetNode_wf {s : State} (h : s.tables.wf = true) (i : NodeIndex) : (s.forgetNode i).tables.wf = true := by
  rw [Tables.wf_iff] at h ⊢
  exact ⟨h.1, h.2.1, canonical_erase h.2.2⟩

theorem State.clearFreq_wf {s : State} (h : s.tables.wf = true) : s.clearFreq.tables.wf = true := by
  rw [Tables.wf_iff] at h ⊢
  exact ⟨rfl, h.2⟩

theorem State.clearCode_wf {s : State} (h : s.tables.wf = true) : s.clearCode.tables.wf = true := by
  rw [Tables.wf_iff] at h ⊢
  exact ⟨h.1, rfl, h.2.2⟩

/-! ### A read after a write -/

theorem State.setNode_nodeAt_self (s : State) {i : NodeIndex} (h : i.toNat < Config.nodeCap) (n : Node) :
    (s.setNode i n).nodeAt i = n := by
  simp [State.setNode, h, State.nodeAt]

theorem State.setNode_nodeAt_of_ne (s : State) {i k : NodeIndex} (h : k ≠ i) (n : Node) :
    (s.setNode i n).nodeAt k = s.nodeAt k := by
  have hk : k.toNat ≠ i.toNat := fun e => h (BitVec.eq_of_toNat_eq e)
  unfold State.setNode
  split
  · simp [State.nodeAt, lookup_insert_of_ne hk, State.staleNode]
  · rfl

theorem State.forgetNode_nodeAt_of_ne (s : State) {i k : NodeIndex} (h : k ≠ i) :
    (s.forgetNode i).nodeAt k = s.nodeAt k := by
  have hk : k.toNat ≠ i.toNat := fun e => h (BitVec.eq_of_toNat_eq e)
  simp [State.nodeAt, State.forgetNode, lookup_erase_of_ne hk, State.staleNode]

theorem State.setCode_codeAt_self (s : State) {i : Nat} (h : i < Config.numSymbols) (c : CodeEntry) :
    (s.setCode i c).codeAt i = c := by
  simp [State.setCode, h, State.codeAt]

theorem State.setCode_codeAt_of_ne (s : State) {i k : Nat} (h : k ≠ i) (c : CodeEntry) :
    (s.setCode i c).codeAt k = s.codeAt k := by
  unfold State.setCode
  split
  · simp [State.codeAt, lookup_insert_of_ne h]
  · rfl

theorem State.setFreq_freqAt_self (s : State) {i : Nat} (h : i < Config.numBytes) (v : Word) :
    (s.setFreq i v).freqAt i = v := by
  simp [State.setFreq, h, State.freqAt]

theorem State.setFreq_freqAt_of_ne (s : State) {i k : Nat} (h : k ≠ i) (v : Word) :
    (s.setFreq i v).freqAt k = s.freqAt k := by
  unfold State.setFreq
  split
  · simp [State.freqAt, lookup_insert_of_ne h]
  · rfl

@[simp] theorem State.clearFreq_freqAt (s : State) (i : Nat) : s.clearFreq.freqAt i = 0#32 := rfl

@[simp] theorem State.clearCode_codeAt (s : State) (i : Nat) : s.clearCode.codeAt i = CodeEntry.absent := rfl

end Sys2Proof.Machine
end

