-- ==== Sys2Proof/Laws/Step.lean ====
section
/-!
SUPPORT. What a step, a host write, an engine event and a token can do, each said once, and the address map by byte address.
-/

namespace Sys2Proof.Machine

/-- CLOSE has been accepted and STATE <- DONE is next. -/
theorem closing_iff {s : State} :
    s.closing = true ↔ s.regs.state = .busy ∧ s.eng.pending = none ∧ s.eng.todo = some .finish := by
  simp [State.closing, State.busy, and_assoc]

/-- Only a reset can be deferred. -/
theorem step_cons {s : State} {e : Event} {rest : List Event} (h : s.env.agenda = e :: rest) (he : e ≠ .reset) :
    step s = happens e (s.withAgenda rest) := by
  simp [step, h, State.defers, he]

/-- A reset that is not deferred happens. -/
theorem step_reset {s : State} {rest : List Event} (h : s.env.agenda = .reset :: rest) (hc : s.closing = false) :
    step s = .next (s.withAgenda rest).applyReset := by
  simp [step, h, State.defers, hc, happens]

/-- Before a reset that is deferred the engine's event happens. -/
theorem step_deferred {s : State} {rest : List Event} (h : s.env.agenda = .reset :: rest) (hc : s.closing = true) :
    step s = .next (engineEvent s) := by
  simp [step, h, State.defers, hc]

/-- What a step can do: reset, a host access, one engine event, or a wire token taken whole. -/
theorem step_cases {s t : State} (h : step s = .next t) :
    (∃ rest, (s.env.agenda = .reset :: rest ∧ s.closing = false) ∧ t = (s.withAgenda rest).applyReset) ∨
    (∃ addr rest, s.env.agenda = .hostRead addr :: rest ∧ t = hostRead addr (s.withAgenda rest)) ∨
    (∃ addr v rest, s.env.agenda = .hostWrite addr v :: rest ∧ hostWrite addr v (s.withAgenda rest) = .next t) ∨
    (∃ rest, s.env.agenda = .engine :: rest ∧ t = engineEvent (s.withAgenda rest)) ∨
    ((s.env.agenda = [] ∨ ∃ rest, s.env.agenda = .reset :: rest ∧ s.closing = true) ∧ t = engineEvent s) ∨
    (s.env.agenda = [] ∧ ∃ i n, fetchToken s = some (i, n) ∧ exec i (s.dropAnswers n) = .next t) := by
  cases ha : s.env.agenda with
  | nil =>
    simp only [step, ha, freeRun] at h
    split at h
    · rename_i i n hf; exact .inr (.inr (.inr (.inr (.inr ⟨rfl, i, n, hf, h⟩))))
    · cases h; exact .inr (.inr (.inr (.inr (.inl ⟨.inl rfl, rfl⟩))))
  | cons e rest =>
    cases e with
    | hostRead addr => rw [step_cons ha nofun] at h; cases h; exact .inr (.inl ⟨_, _, rfl, rfl⟩)
    | hostWrite addr v => rw [step_cons ha nofun] at h; exact .inr (.inr (.inl ⟨_, _, _, rfl, h⟩))
    | engine => rw [step_cons ha nofun] at h; cases h; exact .inr (.inr (.inr (.inl ⟨_, rfl, rfl⟩)))
    | reset =>
      cases hc : s.closing with
      | false => rw [step_reset ha hc] at h; cases h; exact .inl ⟨_, ⟨rfl, rfl⟩, rfl⟩
      | true => rw [step_deferred ha hc] at h; cases h; exact .inr (.inr (.inr (.inr (.inl ⟨.inr ⟨_, rfl, rfl⟩, rfl⟩))))

theorem regionOf_low {addr : RegAddr} (h : addr.toNat < 0x30) : regionOf addr = registerRegion (addr.toNat / 4) := by
  unfold regionOf wordBase
  rw [if_pos (by omega), Nat.mul_div_cancel_left _ (by omega)]

theorem regionOf_high {addr : RegAddr} (h : 0x30 ≤ addr.toNat) : regionOf addr = windowRegion (wordBase addr) := by
  unfold regionOf
  rw [if_neg (by unfold wordBase; omega)]

theorem windowRegion_ne_cmd (a : Nat) : windowRegion a ≠ .cmd := by
  unfold windowRegion
  split
  · nofun
  split
  · nofun
  split
  · nofun
  split <;> nofun

theorem windowRegion_ne_irqEn (a : Nat) : windowRegion a ≠ .irqEn := by
  unfold windowRegion
  split
  · nofun
  split
  · nofun
  split
  · nofun
  split <;> nofun

theorem regionOf_cmd {addr : RegAddr} : regionOf addr = .cmd ↔ addr.toNat < 4 := by
  rcases Nat.lt_or_ge addr.toNat 0x30 with h | h
  · rw [regionOf_low h]
    have : addr.toNat / 4 < 12 := by omega
    have e : addr.toNat < 4 ↔ addr.toNat / 4 = 0 := by omega
    rw [e]
    interval_cases addr.toNat / 4 <;> decide
  · rw [regionOf_high h]
    exact ⟨fun e => absurd e (windowRegion_ne_cmd _), fun e => by omega⟩

theorem regionOf_irqEn {addr : RegAddr} : regionOf addr = .irqEn ↔ 8 ≤ addr.toNat ∧ addr.toNat < 12 := by
  rcases Nat.lt_or_ge addr.toNat 0x30 with h | h
  · rw [regionOf_low h]
    have : addr.toNat / 4 < 12 := by omega
    have e : (8 ≤ addr.toNat ∧ addr.toNat < 12) ↔ addr.toNat / 4 = 2 := by omega
    rw [e]
    interval_cases addr.toNat / 4 <;> decide
  · rw [regionOf_high h]
    exact ⟨fun e => absurd e (windowRegion_ne_irqEn _), fun e => by omega⟩

/-- What a host write can do. -/
theorem hostWrite_cases {s t : State} {addr : RegAddr} {v : Word} (h : hostWrite addr v s = .next t) :
    (¬ addr.toNat < 4 ∧ t = writeRegister addr v s) ∨
    (addr.toNat < 4 ∧ (∃ r, decodeCommand v = .error r) ∧ t = s.setCmdErr) ∨
    (addr.toNat < 4 ∧ v = 0#32 ∧ t = s) ∨
    (addr.toNat < 4 ∧ (v = 1#32 ∨ v = 2#32 ∨ v = 3#32) ∧ s.regs.state = .busy ∧ t = s.setCmdErr) ∨
    (addr.toNat < 4 ∧ v = 1#32 ∧ s.regs.state ≠ .busy ∧ t = (s.begin .compress .count).plan (.enterPhase .count)) ∨
    (addr.toNat < 4 ∧ v = 2#32 ∧ s.regs.state ≠ .busy ∧ t = (s.begin .decompress .magicIn).await (.inReq .magicIn)) ∨
    (addr.toNat < 4 ∧ v = 3#32 ∧ s.regs.state ≠ .busy ∧ t = s.toIdle) := by
  unfold hostWrite commandWord at h
  by_cases ha : addr.toNat < 4
  · rw [regionOf_cmd.2 ha] at h
    simp only at h
    split at h
    · rename_i i hi
      rcases decodeCommand_cases hi with ⟨rfl, rfl⟩ | ⟨rfl, rfl⟩ | ⟨rfl, rfl⟩ | ⟨rfl, rfl⟩
      · cases h; simp [ha]
      all_goals
        simp only [exec, execCompress, execDecompress, execClear, State.busy, decide_eq_true_eq] at h
        split at h <;> cases h <;> simp [*, rejectCommand]
    · rename_i r hr
      cases h
      exact .inr (.inl ⟨ha, ⟨_, hr⟩, rfl⟩)
  · have : regionOf addr ≠ .cmd := fun e => ha (regionOf_cmd.1 e)
    split at h
    · cases h; exact .inl ⟨ha, rfl⟩
    · split at * <;> simp_all

/-- What a token taken whole can be. -/
theorem fetchToken_cases {s : State} {i : Instr} {n : Nat} (h : fetchToken s = some (i, n)) :
    (i = .magic ∧ n = 1 ∧ s.awaits .magicIn = true) ∨
    (i = .treeInternal ∧ n = 1 ∧ s.awaits .typeBit = true ∧ s.eng.next.toNat ≠ 513) ∨
    (∃ v, i = .treeLeaf v ∧ n = 2 ∧ s.awaits .typeBit = true ∧ s.eng.next.toNat ≠ 513) := by
  have hd : ∀ {bs : List Bool} {j : Instr}, decode .header bs = .ok (j, []) →
      (bs = [false] ∧ j = .treeInternal) ∨ (∃ v, bs.length = 10 ∧ j = .treeLeaf v) := by
    intro bs j hj
    match bs with
    | [] => cases hj
    | false :: r => cases hj; simp
    | true :: r =>
      simp only [decode, decodeHeader] at hj
      split at hj
      · cases hj
      · simp only [Except.ok.injEq, Prod.mk.injEq, List.drop_eq_nil_iff] at hj
        exact .inr ⟨_, by simp; omega, hj.1.symm⟩
  have ht : ∀ {p ws as}, tokenIn p ws as = some (i, n) → ∃ bs, answerBits ws as = some bs ∧ decode p bs = .ok (i, []) ∧
      n = ws.length := by
    intro p ws as h
    unfold tokenIn at h
    split at h
    · cases h
    · split at h
      · rename_i hd; cases h; exact ⟨_, by assumption, hd, rfl⟩
      · cases h
  have hlen : ∀ ws as bs, answerBits ws as = some bs → bs.length = ws.sum := by
    intro ws
    induction ws with
    | nil => intro as bs h; simp [answerBits] at h; simp [h]
    | cons w ws ih =>
      intro as bs h
      cases as with
      | nil => simp [answerBits] at h
      | cons a as =>
        simp only [answerBits] at h
        split at h
        · cases h
        · simp only [Option.map_eq_some_iff] at h
          obtain ⟨r, hr, rfl⟩ := h
          simp [ih _ _ hr, bitView]
  unfold fetchToken at h
  split at h
  · rename_i ha
    obtain ⟨bs, hb, hdec, rfl⟩ := ht h
    simp only [decode] at hdec
    split at hdec
    · cases hdec
    · unfold decodeMagic at hdec
      split at hdec
      · simp [Except.map] at hdec; exact .inl ⟨hdec.1.symm, rfl, ha⟩
      · simp [Except.map] at hdec
  · split at h
    · rename_i hc
      rw [Bool.and_eq_true] at hc
      have hc : s.awaits .typeBit = true ∧ s.eng.next.toNat ≠ 513 := ⟨hc.1, of_decide_eq_true hc.2⟩
      split at h
      · rename_i t ht1
        cases h
        obtain ⟨bs, hb, hdec, rfl⟩ := ht ht1
        have := hlen _ _ _ hb
        rcases hd hdec with ⟨rfl, rfl⟩ | ⟨v, hl, rfl⟩
        · exact .inr (.inl ⟨rfl, rfl, hc⟩)
        · simp at this; omega
      · obtain ⟨bs, hb, hdec, rfl⟩ := ht h
        have := hlen _ _ _ hb
        rcases hd hdec with ⟨rfl, rfl⟩ | ⟨v, hl, rfl⟩
        · simp at this
        · exact .inr (.inr ⟨v, rfl, rfl, hc⟩)
    · cases h

/-- What an engine event can do. -/
theorem engineEvent_cases (s : State) :
    engineEvent s = s ∨
    (s.regs.state = .busy ∧ ∃ w a as, s.eng.pending = some (.inReq w) ∧ s.env.inScript = a :: as ∧
      engineEvent s = answered w a (s.dropAnswers 1)) ∨
    (s.regs.state = .busy ∧ ∃ w, s.eng.pending = some (.outReq w) ∧ s.env.outCredit ≠ 0 ∧
      engineEvent s = outAccepted w s.spendCredit) ∨
    (s.regs.state = .busy ∧ ∃ e, s.eng.pending = none ∧ s.eng.todo = some e ∧ engineEvent s = internalEvent e s) := by
  unfold engineEvent
  split
  · exact .inl rfl
  · rename_i hb
    have hb : s.regs.state = .busy := not_not.1 hb
    split
    · rename_i w hp
      split
      · exact .inl rfl
      · rename_i a as hs
        exact .inr (.inl ⟨hb, w, a, as, hp, hs, rfl⟩)
    · rename_i w hp
      split
      · exact .inl rfl
      · exact .inr (.inr (.inl ⟨hb, w, hp, by assumption, rfl⟩))
    · rename_i hp
      split
      · rename_i e he
        exact .inr (.inr (.inr ⟨hb, e, hp, he, rfl⟩))
      · exact .inl rfl

theorem engineEvent_in {s : State} {w : InWait} {a : Answer} {as : List Answer} (hb : s.regs.state = .busy)
    (hp : s.eng.pending = some (.inReq w)) (hs : s.env.inScript = a :: as) :
    engineEvent s = answered w a (s.dropAnswers 1) := by
  simp [engineEvent, hb, hp, hs]

theorem engineEvent_out {s : State} {w : OutWait} (hb : s.regs.state = .busy)
    (hp : s.eng.pending = some (.outReq w)) (hc : s.env.outCredit ≠ 0) :
    engineEvent s = outAccepted w s.spendCredit := by
  simp [engineEvent, hb, hp, hc]

theorem engineEvent_internal {s : State} {e : Internal} (hb : s.regs.state = .busy)
    (hp : s.eng.pending = none) (ht : s.eng.todo = some e) : engineEvent s = internalEvent e s := by
  simp [engineEvent, hb, hp, ht]

/-- PHASE <- p: PHASE is written, and the phase begins. -/
theorem engineEvent_enter {s : State} {p : Phase} (hb : s.regs.state = .busy)
    (hp : s.eng.pending = none) (ht : s.eng.todo = some (.enterPhase p)) : engineEvent s = beginPhase p (s.setPhase p) :=
  engineEvent_internal hb hp ht

end Sys2Proof.Machine
end

