-- ==== Sys2Proof/Laws/Engine.lean ====
section
/-!
SUPPORT. What the phases' shared operations can do: which parts of the state each one writes, and that the tables stay
canonical.
-/

namespace Sys2Proof.Machine

/-- `t` is `s` with other NODE entries, and canonical tables stayed canonical. -/
def NodeFrame (s t : State) : Prop :=
  (∃ l, t.tables = { s.tables with node := l }) ∧ t.env = s.env ∧ (s.tables.wf = true → t.tables.wf = true)

theorem NodeFrame.refl (s : State) : NodeFrame s s := ⟨⟨_, rfl⟩, rfl, id⟩

theorem NodeFrame.trans {s t u : State} (h : NodeFrame s t) (k : NodeFrame t u) : NodeFrame s u := by
  obtain ⟨⟨l, hl⟩, he, hw⟩ := h
  obtain ⟨⟨m, hm⟩, hf, hx⟩ := k
  exact ⟨⟨m, by rw [hm, hl]⟩, hf.trans he, fun w => hx (hw w)⟩

theorem NodeFrame.freqAt {s t : State} (h : NodeFrame s t) (c : Nat) : t.freqAt c = s.freqAt c := by
  obtain ⟨⟨l, hl⟩, _⟩ := h
  exact State.freqAt_congr (by rw [hl]) (by rw [hl]) c

theorem NodeFrame.codeAt {s t : State} (h : NodeFrame s t) (c : Nat) : t.codeAt c = s.codeAt c := by
  obtain ⟨⟨l, hl⟩, _⟩ := h
  exact State.codeAt_congr (by rw [hl]) (by rw [hl]) c

theorem NodeFrame.setNode (s : State) (i : NodeIndex) (n : Node) : NodeFrame s (s.setNode i n) := by
  refine ⟨?_, by simp, fun w => State.setNode_wf w i n⟩
  unfold State.setNode
  split
  · exact ⟨_, rfl⟩
  · exact ⟨s.tables.node, rfl⟩

/-! ### BUILD -/

@[simp] theorem addNode_regs (n : Node) (s : State) :
    (addNode n s).regs = { s.regs with nodeCount := s.regs.nodeCount + 1#10 } := by simp [addNode]

@[simp] theorem addNode_eng (n : Node) (s : State) :
    (addNode n s).eng = { s.eng with active := s.eng.active ++ [s.regs.nodeCount] } := by simp [addNode]

theorem addNode_frame (n : Node) (s : State) : NodeFrame s (addNode n s) := NodeFrame.setNode s _ n

/-- `t` is `s` but for NODE, NODE_COUNT and ACTIVE. -/
def TreeFrame (s t : State) : Prop :=
  NodeFrame s t ∧ (∃ k, t.regs = { s.regs with nodeCount := k }) ∧ ∃ l, t.eng = { s.eng with active := l }

theorem TreeFrame.refl (s : State) : TreeFrame s s := ⟨NodeFrame.refl s, ⟨_, rfl⟩, _, rfl⟩

theorem TreeFrame.trans {s t u : State} (h : TreeFrame s t) (k : TreeFrame t u) : TreeFrame s u := by
  obtain ⟨hn, ⟨a, ha⟩, b, hb⟩ := h
  obtain ⟨kn, ⟨c, hc⟩, d, hd⟩ := k
  exact ⟨hn.trans kn, ⟨c, by rw [hc, ha]⟩, d, by rw [hd, hb]⟩

theorem addNode_tree (n : Node) (s : State) : TreeFrame s (addNode n s) := ⟨addNode_frame n s, ⟨_, addNode_regs n s⟩, _, addNode_eng n s⟩

theorem emptyTree_tree (s : State) : TreeFrame s (emptyTree s) := ⟨⟨⟨_, rfl⟩, rfl, id⟩, ⟨_, rfl⟩, _, rfl⟩

theorem merge_tree (s : State) : TreeFrame s (merge s) := by
  unfold merge
  split
  · exact TreeFrame.refl s
  · simp only
    split
    · exact TreeFrame.refl s
    · refine TreeFrame.trans (t := { s with eng := { s.eng with active := _ } }) ?_ (addNode_tree _ _)
      exact ⟨⟨⟨_, rfl⟩, rfl, id⟩, ⟨_, rfl⟩, _, rfl⟩

theorem mergeTimes_tree (k : Nat) : ∀ s, TreeFrame s (mergeTimes k s) := by
  induction k with
  | zero => exact TreeFrame.refl
  | succ k ih => exact fun s => (merge_tree s).trans (ih _)

theorem addNodes_tree (f : Nat → Node) (l : List Nat) : ∀ s, TreeFrame s (l.foldl (fun t c => addNode (f c) t) s) := by
  induction l with
  | nil => exact TreeFrame.refl
  | cons c l ih => exact fun s => (addNode_tree _ s).trans (ih _)

/-- BUILD writes NODE, the counts, ROOT, TREE_DEPTH and ACTIVE, and nothing else. -/
theorem buildTree_frame (s : State) :
    NodeFrame s (buildTree s) ∧
    (∃ a b c d, (buildTree s).regs = { s.regs with leafCount := a, nodeCount := b, root := c, treeDepth := d }) ∧
    ∃ l, (buildTree s).eng = { s.eng with active := l } := by
  have h1 : TreeFrame s (addNode (Node.leaf Config.peof Config.peofWeight)
      ((occurring s).foldl (fun t c => addNode (byteLeaf s c) t) (emptyTree s))) :=
    ((emptyTree_tree s).trans (addNodes_tree _ _ _)).trans (addNode_tree _ _)
  have h2 := mergeTimes_tree ((placeLeaves s).eng.active.length - 1) (placeLeaves s)
  obtain ⟨⟨⟨l1, ht1⟩, he1, hw1⟩, ⟨k1, hr1⟩, a1, hg1⟩ := h1
  obtain ⟨⟨⟨l2, ht2⟩, he2, hw2⟩, ⟨k2, hr2⟩, a2, hg2⟩ := h2
  refine ⟨⟨⟨l2, ?_⟩, ?_, ?_⟩, ?_, ?_⟩
  · show (mergeTimes _ (placeLeaves s)).tables = _
    rw [ht2]
    show ({ (placeLeaves s).tables with node := l2 } : Tables) = _
    simp only [placeLeaves, ht1]
  · exact he2.trans he1
  · exact fun w => hw2 (hw1 w)
  · obtain ⟨c, d, e⟩ : ∃ c d, (buildTree s).regs =
        { (mergeTimes ((placeLeaves s).eng.active.length - 1) (placeLeaves s)).regs with root := c, treeDepth := d } :=
      ⟨_, _, rfl⟩
    refine ⟨(placeLeaves s).regs.leafCount, k2, c, d, ?_⟩
    rw [e, hr2]
    simp only [placeLeaves, hr1]
  · refine ⟨a2, ?_⟩
    show (mergeTimes _ (placeLeaves s)).eng = _
    rw [hg2]
    simp only [placeLeaves, hg1]

/-- ROOT and TREE_DEPTH are all that `setRoot` writes (10_state.md R49, R50). -/
theorem setRoot_frame (r : NodeIndex) (s : State) :
    setRoot r s = { s with regs := { s.regs with root := r, treeDepth := (setRoot r s).regs.treeDepth } } := rfl

@[simp] theorem setRoot_nodeAt (r : NodeIndex) (s : State) (i : NodeIndex) : (setRoot r s).nodeAt i = s.nodeAt i := rfl
@[simp] theorem setRoot_tables (r : NodeIndex) (s : State) : (setRoot r s).tables = s.tables := rfl
@[simp] theorem setRoot_eng (r : NodeIndex) (s : State) : (setRoot r s).eng = s.eng := rfl
@[simp] theorem setRoot_env (r : NodeIndex) (s : State) : (setRoot r s).env = s.env := rfl

/-! ### CODEGEN -/

/-- The walk writes CODE and nothing else. -/
theorem walk_frame (fuel : Nat) : ∀ (i : NodeIndex) (p : List Bool) (s : State),
    (∃ l, walk fuel i p s = { s with tables := { s.tables with code := l } }) ∧
    (s.tables.wf = true → (walk fuel i p s).tables.wf = true) := by
  induction fuel with
  | zero => exact fun _ _ s => ⟨⟨s.tables.code, rfl⟩, id⟩
  | succ fuel ih =>
    intro i p s
    unfold walk
    split
    · refine ⟨?_, fun w => State.setCode_wf w _ _⟩
      unfold State.setCode
      split
      · exact ⟨_, rfl⟩
      · exact ⟨s.tables.code, rfl⟩
    · obtain ⟨⟨l, hl⟩, hw⟩ := ih (s.nodeAt i).left (p ++ [false]) s
      obtain ⟨⟨m, hm⟩, hx⟩ := ih (s.nodeAt i).right (p ++ [true]) (walk fuel (s.nodeAt i).left (p ++ [false]) s)
      exact ⟨⟨m, by rw [hm, hl]⟩, fun w => hx (hw w)⟩

/-! ### PARSE -/

/-- Returning a node only says what the engine does next. -/
theorem returnNode_eq (i : NodeIndex) (s : State) :
    returnNode i s = s.plan (if s.eng.stack = [] then .finishParse else .link i) := by
  unfold returnNode
  split <;> rename_i h <;> simp [h]

/-- The write of NODE[i] writes that slot and the engine's position. -/
theorem writeNodeEvent_frame (n : Node) (s : State) :
    NodeFrame s (writeNodeEvent n s) ∧ (writeNodeEvent n s).regs = s.regs ∧
    (writeNodeEvent n s).eng =
      (if n.isLeaf then { s.eng with pending := none, todo := some (if s.eng.stack = [] then .finishParse else .link s.lastSlot) }
       else { s.eng with stack := .left s.lastSlot :: s.eng.stack, pending := some (.inReq .typeBit), todo := none }) ∧
    ∀ j, (writeNodeEvent n s).nodeAt j = (s.setNode s.lastSlot n).nodeAt j := by
  have h := NodeFrame.setNode s s.lastSlot n
  unfold writeNodeEvent
  split
  · rw [returnNode_eq]
    exact ⟨h, by simp, by simp, fun _ => rfl⟩
  · exact ⟨h, by simp, by simp, fun _ => rfl⟩

/-- A link to the left child of `j`: that field is written, and the right subtree of `j` is parsed next. -/
theorem linkEvent_left {s : State} {j : NodeIndex} {rest : List Frame} (i : NodeIndex) (h : s.eng.stack = .left j :: rest) :
    linkEvent i s =
      { setLeft j i s with eng := { s.eng with stack := .right j :: rest, pending := some (.inReq .typeBit), todo := none } } := by
  unfold linkEvent
  rw [h]
  simp [setLeft]

/-- A link to the right child of `j`: that field is written, and `j` is returned. -/
theorem linkEvent_right {s : State} {j : NodeIndex} {rest : List Frame} (i : NodeIndex) (h : s.eng.stack = .right j :: rest) :
    linkEvent i s =
      { setRight j i s with
        eng := { s.eng with stack := rest, pending := none, todo := some (if rest = [] then .finishParse else .link j) } } := by
  unfold linkEvent
  rw [h]
  simp only [returnNode_eq, State.plan]
  simp [setRight]

/-- A link writes NODE and the engine's position, and nothing else. -/
theorem linkEvent_frame (i : NodeIndex) (s : State) : NodeFrame s (linkEvent i s) ∧ (linkEvent i s).regs = s.regs := by
  unfold linkEvent
  split
  · exact ⟨NodeFrame.setNode s _ _, by simp [setLeft]⟩
  · rw [returnNode_eq]; exact ⟨NodeFrame.setNode s _ _, by simp [setRight]⟩
  · rw [returnNode_eq]; exact ⟨⟨⟨_, rfl⟩, rfl, id⟩, rfl⟩

end Sys2Proof.Machine
end

