-- ==== Sys2Proof/Laws/Trees.lean ====
section
/-!
SUPPORT. The CodeTree of the source: its counts, its codes, its header, and the NODE slots that hold it.
-/

namespace Sys2Proof.Machine

/-! ### Counts -/

theorem leaves_pos (tr : CodeTree) : 1 ≤ tr.leaves := by induction tr <;> simp [CodeTree.leaves]; omega

theorem size_pos (tr : CodeTree) : 1 ≤ tr.size := by cases tr <;> simp [CodeTree.size]

theorem size_leaves (tr : CodeTree) : tr.size + 1 = 2 * tr.leaves := by
  induction tr with
  | leaf => rfl
  | node l r ihl ihr => simp only [CodeTree.size, CodeTree.leaves]; omega

theorem leaves_symbols (tr : CodeTree) : tr.symbols.length = tr.leaves := by
  induction tr with
  | leaf => rfl
  | node l r ihl ihr => simp [CodeTree.symbols, CodeTree.leaves, ihl, ihr]

theorem depth_leaves (tr : CodeTree) : tr.depth + 1 ≤ tr.leaves := by
  induction tr with
  | leaf => simp [CodeTree.depth, CodeTree.leaves]
  | node l r ihl ihr => have := leaves_pos l; have := leaves_pos r; simp only [CodeTree.depth, CodeTree.leaves]; omega

/-- A tree of depth d has at least 2d + 1 nodes. -/
theorem depth_size (tr : CodeTree) : 2 * tr.depth + 1 ≤ tr.size := by
  induction tr with
  | leaf => simp [CodeTree.depth, CodeTree.size]
  | node l r ihl ihr => have := size_pos l; have := size_pos r; simp only [CodeTree.depth, CodeTree.size]; omega

theorem writes_len (tr : CodeTree) : tr.writes.length = 3 * tr.leaves - 1 := by
  induction tr with
  | leaf => rfl
  | node l r ihl ihr => have := leaves_pos l; have := leaves_pos r; simp [CodeTree.writes, CodeTree.leaves, ihl, ihr]; omega

theorem header_len (tr : CodeTree) : tr.header.length = 11 * tr.leaves - 1 := by
  induction tr with
  | leaf s => simp [CodeTree.header, CodeTree.leaves, length_bitView]
  | node l r ihl ihr => have := leaves_pos l; have := leaves_pos r; simp [CodeTree.header, CodeTree.leaves, ihl, ihr]; omega

/-! ### A tree in NODE -/

/-- A tree is held wherever NODE reads the same. -/
theorem holds_congr {s t : State} (hn : ∀ i, t.nodeAt i = s.nodeAt i) (tr : CodeTree) : ∀ i, t.holdsTree tr i ↔ s.holdsTree tr i := by
  induction tr with
  | leaf sym => intro i; simp [State.holdsTree, hn]
  | node l r ihl ihr => intro i; simp [State.holdsTree, hn, ihl, ihr]

/-- A tree held below slot `n` is held by every state with the same slots below `n`. -/
theorem holds_below {s t : State} {n : Nat} (hsame : ∀ i : NodeIndex, i.toNat < n → t.nodeAt i = s.nodeAt i)
    (hdown : ∀ i : NodeIndex, i.toNat < n → (s.nodeAt i).isLeaf = false → (s.nodeAt i).left.toNat < n ∧ (s.nodeAt i).right.toNat < n) (tr : CodeTree) :
    ∀ i : NodeIndex, i.toNat < n → s.holdsTree tr i → t.holdsTree tr i := by
  induction tr with
  | leaf sym => intro i hi h; simp only [State.holdsTree] at h ⊢; rw [hsame i hi]; exact h
  | node l r ihl ihr =>
    intro i hi h
    simp only [State.holdsTree] at h ⊢
    rw [hsame i hi]
    obtain ⟨h1, h2⟩ := hdown i hi h.1
    exact ⟨h.1, ihl _ h1 h.2.1, ihr _ h2 h.2.2⟩

/-- `depthBelow` of a slot that holds a tree is the depth of the tree. -/
theorem holds_depth {s : State} (tr : CodeTree) : ∀ (fuel) (i), s.holdsTree tr i → tr.depth < fuel → depthBelow s fuel i = tr.depth := by
  induction tr with
  | leaf sym => intro fuel i hh hf; cases fuel with
    | zero => omega
    | succ f => simp [depthBelow, hh.1, CodeTree.depth]
  | node l r ihl ihr =>
    intro fuel i hh hf
    simp only [CodeTree.depth] at hf ⊢
    cases fuel with
    | zero => omega
    | succ f =>
      simp only [depthBelow, hh.1]
      rw [ihl f _ hh.2.1 (by omega), ihr f _ hh.2.2 (by omega)]; simp

/-! ### Codes -/

theorem codes_symbols (tr : CodeTree) : ∀ c ∈ tr.codes, c.1 ∈ tr.symbols := by
  induction tr with
  | leaf s => simp [CodeTree.codes, CodeTree.symbols]
  | node l r ihl ihr =>
    intro c hc
    simp only [CodeTree.codes, List.mem_append, List.mem_map] at hc
    simp only [CodeTree.symbols, List.mem_append]
    rcases hc with ⟨d, hd, rfl⟩ | ⟨d, hd, rfl⟩
    · exact .inl (ihl d hd)
    · exact .inr (ihr d hd)

theorem codes_depth (tr : CodeTree) : ∀ c ∈ tr.codes, c.2.length ≤ tr.depth := by
  induction tr with
  | leaf s => simp [CodeTree.codes]
  | node l r ihl ihr =>
    intro c hc
    simp only [CodeTree.codes, List.mem_append, List.mem_map] at hc
    simp only [CodeTree.depth]
    rcases hc with ⟨d, hd, rfl⟩ | ⟨d, hd, rfl⟩
    · have := ihl d hd; simp; omega
    · have := ihr d hd; simp; omega

theorem symbols_codes (tr : CodeTree) : ∀ v ∈ tr.symbols, ∃ p, (v, p) ∈ tr.codes := by
  induction tr with
  | leaf s => simp [CodeTree.codes, CodeTree.symbols]
  | node l r ihl ihr =>
    intro v hv
    simp only [CodeTree.symbols, List.mem_append] at hv
    rcases hv with hv | hv
    · obtain ⟨p, hp⟩ := ihl v hv; exact ⟨false :: p, by simp only [CodeTree.codes, List.mem_append, List.mem_map]; exact .inl ⟨_, hp, rfl⟩⟩
    · obtain ⟨p, hp⟩ := ihr v hv; exact ⟨true :: p, by simp only [CodeTree.codes, List.mem_append, List.mem_map]; exact .inr ⟨_, hp, rfl⟩⟩

/-- No code of a tree is a prefix of the code of another symbol (42_code_table_gen.md R160). -/
theorem codes_free (tr : CodeTree) (hnd : tr.symbols.Nodup) : ∀ c ∈ tr.codes, ∀ d ∈ tr.codes, c.1 ≠ d.1 → ¬ c.2 <+: d.2 := by
  induction tr with
  | leaf s => intro c hc d hd hne; simp [CodeTree.codes] at hc hd; simp [hc, hd] at hne
  | node l r ihl ihr =>
    intro c hc d hd hne
    simp only [CodeTree.symbols, List.nodup_append'] at hnd
    simp only [CodeTree.codes, List.mem_append, List.mem_map] at hc hd
    rcases hc with ⟨c, hc, rfl⟩ | ⟨c, hc, rfl⟩ <;> rcases hd with ⟨d, hd, rfl⟩ | ⟨d, hd, rfl⟩
    · simpa [List.cons_prefix_cons] using ihl hnd.1 c hc d hd hne
    · simp [List.cons_prefix_cons]
    · simp [List.cons_prefix_cons]
    · simpa [List.cons_prefix_cons] using ihr hnd.2.1 c hc d hd hne

/-- Bit `j` of the BITS field of a path (10_state.md R52). -/
theorem pathBits_getLsbD (p : List Bool) (h : p.length ≤ 256) (j : Nat) : (pathBits p).getLsbD j = p.getD j false := by
  have hl : p.reverse.length ≤ 256 := by simpa
  have h1 := bitView_ofBits p.reverse hl
  by_cases hj : j < p.length
  · have h2 : (bitView p.reverse.length (BitVec.ofNat 256 (ofBits p.reverse)))[p.length - 1 - j]? = p.reverse[p.length - 1 - j]? := by rw [h1]
    simp only [bitView, List.length_reverse, List.getElem?_map] at h2
    rw [List.getElem?_range (by omega), List.getElem?_reverse (by omega)] at h2
    have e : p.length - 1 - (p.length - 1 - j) = j := by omega
    simp only [Option.map_some, e] at h2
    rw [List.getD_eq_getElem?_getD, ← h2]; rfl
  · rw [List.getD_eq_default _ _ (by omega)]
    unfold pathBits
    rw [BitVec.getLsbD_ofNat]
    have := ofBits_lt p.reverse
    rw [List.length_reverse] at this
    rw [Nat.testBit_lt_two_pow (lt_of_lt_of_le this (Nat.pow_le_pow_right (by omega) (by omega)))]
    simp

/-- The code of the entry of a path is the path. -/
theorem pathEntry_path (p : List Bool) (h : p.length ≤ 256) : (pathEntry p).path = p := by
  have hl : (pathEntry p).len.toNat = p.length := by simp [pathEntry]; omega
  apply List.ext_getElem
  · simp [CodeEntry.path, hl]
  · intro n h1 h2
    simp only [CodeEntry.path, List.getElem_map, List.getElem_range, CodeEntry.bit]
    rw [show (pathEntry p).bits = pathBits p from rfl, pathBits_getLsbD p h]
    simp [h2]

theorem walk_nodeAt (fuel i p) (s : State) (j) : (walk fuel i p s).nodeAt j = s.nodeAt j := by
  obtain ⟨⟨l, h⟩, -⟩ := walk_frame fuel i p s
  rw [h]; rfl

/-- The walk leaves the codes of symbols that are not in the tree. -/
theorem walk_other (tr : CodeTree) : ∀ (fuel : Nat) (i : NodeIndex) (p : List Bool) (s : State), s.holdsTree tr i → tr.depth < fuel →
    ∀ v : Symbol, v ∉ tr.symbols → (walk fuel i p s).codeAt v.toNat = s.codeAt v.toNat := by
  induction tr with
  | leaf sym =>
    intro fuel i p s hh hf v hv
    obtain ⟨fuel, rfl⟩ : ∃ k, fuel = k + 1 := ⟨fuel - 1, by omega⟩
    simp only [walk, hh.1, hh.2, if_true]
    refine State.setCode_codeAt_of_ne _ (fun h => hv ?_) _
    simp [CodeTree.symbols, BitVec.eq_of_toNat_eq h]
  | node l r ihl ihr =>
    intro fuel i p s hh hf v hv
    obtain ⟨fuel, rfl⟩ : ∃ k, fuel = k + 1 := ⟨fuel - 1, by omega⟩
    simp only [CodeTree.depth, CodeTree.symbols, List.mem_append, not_or] at hf hv
    simp only [walk, hh.1]
    rw [if_neg (by simp), ihr fuel _ _ _ ((holds_congr (walk_nodeAt _ _ _ _) _ _).2 hh.2.2) (by omega) v hv.2, ihl fuel _ _ _ hh.2.1 (by omega) v hv.1]

/-- The walk records for each leaf its path from the root. -/
theorem walk_code (tr : CodeTree) : ∀ (fuel : Nat) (i : NodeIndex) (p : List Bool) (s : State), s.holdsTree tr i → tr.depth < fuel →
    tr.symbols.Nodup → (∀ v ∈ tr.symbols, v.toNat ≤ 256) →
    ∀ c ∈ tr.codes, (walk fuel i p s).codeAt c.1.toNat = pathEntry (p ++ c.2) := by
  induction tr with
  | leaf sym =>
    intro fuel i p s hh hf hnd hok c hc
    obtain ⟨fuel, rfl⟩ : ∃ k, fuel = k + 1 := ⟨fuel - 1, by omega⟩
    simp only [CodeTree.codes, List.mem_singleton] at hc
    subst hc
    simp only [walk, hh.1, hh.2, if_true]
    rw [State.setCode_codeAt_self]
    · simp
    · have := hok sym (by simp [CodeTree.symbols]); simp [Config.numSymbols]; omega
  | node l r ihl ihr =>
    intro fuel i p s hh hf hnd hok c hc
    obtain ⟨fuel, rfl⟩ : ∃ k, fuel = k + 1 := ⟨fuel - 1, by omega⟩
    simp only [CodeTree.depth, CodeTree.symbols] at hf hnd hok
    rw [List.nodup_append'] at hnd
    simp only [walk, hh.1]
    rw [if_neg (by simp)]
    simp only [CodeTree.codes, List.mem_append, List.mem_map] at hc
    have hr := (holds_congr (walk_nodeAt fuel (s.nodeAt i).left (p ++ [false]) s) r _).2 hh.2.2
    rcases hc with ⟨d, hd, rfl⟩ | ⟨d, hd, rfl⟩
    · rw [walk_other r fuel _ _ _ hr (by omega)]
      · rw [ihl fuel _ _ _ hh.2.1 (by omega) hnd.1 (fun v hv => hok v (by simp [hv])) d hd]; simp
      · exact fun h => hnd.2.2 (codes_symbols l d hd) h
    · rw [ihr fuel _ _ _ hr (by omega) hnd.2.1 (fun v hv => hok v (by simp [hv])) d hd]; simp

/-! ### Streams -/

theorem outStream_append (a b) : outStream (a ++ b) = outStream a ++ outStream b := by simp [outStream]

theorem inStream_append (a b) : inStream (a ++ b) = inStream a ++ inStream b := by simp [inStream]

theorem outStream_bits (p : List Bool) : outStream (bitWrites p) = p := by
  induction p with
  | nil => rfl
  | cons b p ih =>
    simp only [bitWrites, outStream, List.map_cons, List.flatMap_cons] at ih ⊢
    rw [ih]; cases b <;> rfl

/-- The WRITEs of a header in the bit view are the header (30_encoding.md R112). -/
theorem outStream_writes (tr : CodeTree) : outStream tr.writes = tr.header := by
  have hb : ∀ (w : Nat) {n} (v : BitVec n), w ≤ 32 → (writeTx w v).bits = bitView w v := by
    intro w n v hw
    simp only [writeTx, OutTx.bits, bitView, show (BitVec.ofNat 6 w).toNat = w by rw [BitVec.toNat_ofNat]; omega]
    apply List.map_congr_left
    intro k hk
    have := List.mem_range.1 hk
    rw [BitVec.getLsbD_setWidth, BitVec.getLsbD_setWidth, decide_eq_true (by omega), decide_eq_true (by omega)]; simp
  induction tr with
  | leaf sym => 
    simp only [outStream, CodeTree.writes, CodeTree.header, List.flatMap_cons, List.flatMap_nil]
    rw [hb 1 _ (by omega), hb 9 _ (by omega)]
    rw [show bitView 1 1#1 = [true] by decide]; simp
  | node l r ihl ihr =>
    simp only [outStream] at ihl ihr
    simp only [outStream, CodeTree.writes, CodeTree.header, List.flatMap_cons, List.flatMap_append, ihl, ihr]
    rw [hb 1 _ (by omega), show bitView 1 0#1 = [false] by decide]; simp

theorem replay_append (a b) : replay (a ++ b) = replay a ++ replay b := by
  induction a with
  | nil => rfl
  | cons x a ih => cases x <;> simp [replay, ih]

/-- The plainest answers give what was written, if its values have nothing above their widths. -/
theorem gives_replay (ts : List OutTx) (h : ∀ w v, OutTx.write w v ∈ ts → (v.setWidth w.toNat).setWidth 32 = v) :
    gives ts (replay ts) = true := by
  induction ts with
  | nil => rfl
  | cons t ts ih =>
    have ih := ih fun w v hm => h w v (List.mem_cons_of_mem _ hm)
    cases t with
    | close => exact ih
    | write w v => simp [gives, replay, ih, h w v (List.mem_cons_self ..)]

/-- An answer that gives a WRITE of width at most 32, and the rest. -/
theorem gives_cons {w n : Nat} (hw : w ≤ 32) (v : BitVec n) (ts : List OutTx) (q : List Answer) :
    gives (writeTx w v :: ts) q = true ↔ ∃ a as, q = a :: as ∧ a.field w = some (v.setWidth w) ∧ gives ts as = true := by
  have hn : (BitVec.ofNat 6 w).toNat = w := by rw [BitVec.toNat_ofNat]; omega
  cases q with
  | nil => simp [gives, writeTx]
  | cons a as =>
    have hinj : ∀ x y : BitVec w, x.setWidth 32 = y.setWidth 32 ↔ x = y := fun x y =>
      ⟨fun h => BitVec.eq_of_toNat_eq (by
        have := congrArg BitVec.toNat h
        have l1 := x.isLt; have l2 := y.isLt
        have : 2 ^ w ≤ 2 ^ 32 := Nat.pow_le_pow_right (by omega) hw
        simp only [BitVec.toNat_setWidth] at *
        rwa [Nat.mod_eq_of_lt (by omega), Nat.mod_eq_of_lt (by omega)] at *), fun h => by rw [h]⟩
    have hs : ∀ d : Word, (d.setWidth (BitVec.ofNat 6 w).toNat).setWidth 32 = (d.setWidth w).setWidth 32 := fun d => by rw [hn]
    simp only [gives, writeTx, hs, Bool.and_eq_true, Bool.not_eq_true', decide_eq_true_eq, hinj, Answer.field]
    constructor
    · rintro ⟨⟨h1, h2⟩, h3⟩; exact ⟨a, as, rfl, by simp [h1, h2], h3⟩
    · rintro ⟨a', as', e, h2, h3⟩
      obtain ⟨rfl, rfl⟩ := List.cons.inj e
      split at h2
      · exact absurd h2 (by simp)
      · exact ⟨⟨by simpa using ‹¬ a.eof = true›, Option.some.inj h2⟩, h3⟩

/-- Answers to two lists of WRITEs one after the other. -/
theorem gives_append (ts us : List OutTx) (q : List Answer) :
    gives (ts ++ us) q = true ↔ ∃ a b, q = a ++ b ∧ gives ts a = true ∧ gives us b = true := by
  induction ts generalizing q with
  | nil =>
    constructor
    · exact fun h => ⟨[], q, rfl, rfl, h⟩
    · rintro ⟨a, b, rfl, ha, hb⟩
      rw [List.isEmpty_iff.1 ha]; exact hb
  | cons t ts ih =>
    cases t with
    | close => exact ih q
    | write w v =>
      cases q with
      | nil =>
        simp only [List.cons_append, gives, Bool.false_eq_true, false_iff]
        rintro ⟨a, b, e, ha, hb⟩
        obtain ⟨rfl, rfl⟩ := List.append_eq_nil_iff.1 e.symm
        exact absurd ha (by simp [gives])
      | cons x q =>
        simp only [List.cons_append, gives, Bool.and_eq_true, ih]
        constructor
        · rintro ⟨h, a, b, rfl, ha, hb⟩; exact ⟨x :: a, b, rfl, by simp only [gives, Bool.and_eq_true]; exact ⟨h, ha⟩, hb⟩
        · rintro ⟨a, b, e, ha, hb⟩
          cases a with
          | nil => exact absurd ha (by simp [gives])
          | cons y a =>
            obtain ⟨rfl, rfl⟩ := List.cons.inj e
            simp only [gives, Bool.and_eq_true] at ha
            exact ⟨ha.1, a, b, rfl, ha.2, hb⟩

/-- One answer per WRITE. -/
theorem gives_length {ts : List OutTx} {q : List Answer} (h : gives ts q = true) (hc : OutTx.close ∉ ts) : q.length = ts.length := by
  induction ts generalizing q with
  | nil => rw [List.isEmpty_iff.1 h]; rfl
  | cons t ts ih =>
    cases t with
    | close => exact absurd (List.mem_cons_self ..) hc
    | write w v =>
      cases q with
      | nil => exact absurd h (by simp [gives])
      | cons a q =>
        simp only [gives, Bool.and_eq_true] at h
        simp [ih h.2 fun hm => hc (List.mem_cons_of_mem _ hm)]

end Sys2Proof.Machine
end

