-- ==== Sys2Proof/Laws/Build.lean ====
section
/-!
SUPPORT. BUILD: the leaves, the merges, and the tree they leave (41_tree_builder.md R141 to R147).
-/

namespace Sys2Proof.Machine

theorem ofNat10 {a b : Nat} (ha : a < 1024) (hb : b < 1024) (h : a ≠ b) : BitVec.ofNat 10 a ≠ BitVec.ofNat 10 b := by
  intro e; have := congrArg BitVec.toNat e; simp at this; omega

theorem ofNat_succ (k : Nat) : BitVec.ofNat 10 k + 1#10 = BitVec.ofNat 10 (k + 1) := by rw [BitVec.ofNat_add]

theorem toNat10 (i : NodeIndex) : BitVec.ofNat 10 i.toNat = i := by simp

theorem State.keyLe.trans {s : State} {i j k : NodeIndex} (h : s.keyLe i j) (g : s.keyLe j k) : s.keyLe i k := by
  simp only [State.keyLe] at *; omega

/-- `lightest` picks the smallest key among its candidates (41_tree_builder.md R142). -/
theorem lightest_smallest (s : State) : ∀ (rest : List NodeIndex) (a : NodeIndex),
    s.smallestKey (· ∈ a :: rest) (lightest s a rest) := by
  intro rest
  induction rest with
  | nil => intro a; simp [lightest, State.smallestKey, State.keyLe]
  | cons x xs ih =>
    intro a
    obtain ⟨h1, h2⟩ := ih (if lighter s x a then x else a)
    have e : lightest s a (x :: xs) = lightest s (if lighter s x a then x else a) xs := rfl
    rw [e]
    have hb := h2 _ List.mem_cons_self
    refine ⟨?_, fun i hi => ?_⟩
    · rcases List.mem_cons.1 h1 with h | h
      · rw [h]; split <;> simp
      · simp [h]
    · rcases List.mem_cons.1 hi with rfl | hi
      · refine hb.trans ?_
        split
        · rename_i hl; simp only [lighter, Bool.or_eq_true, Bool.and_eq_true, decide_eq_true_eq] at hl
          simp only [State.keyLe]; omega
        · exact .inr ⟨rfl, Nat.le_refl _⟩
      · rcases List.mem_cons.1 hi with rfl | hi
        · refine hb.trans ?_
          split
          · exact .inr ⟨rfl, Nat.le_refl _⟩
          · rename_i hl; simp only [lighter, Bool.or_eq_true, Bool.and_eq_true, decide_eq_true_eq] at hl
            simp only [State.keyLe]; omega
        · exact h2 i (List.mem_cons_of_mem _ hi)

/-- All a merge step does: it takes the smallest key out of ACTIVE, then the smallest of those left, and adds the node that joins
them, the first to the left. -/
theorem merge_eq (s : State) (h : 2 ≤ s.eng.active.length) :
    ∃ a b, s.smallestKey (· ∈ s.eng.active) a ∧ s.smallestKey (· ∈ s.eng.active.erase a) b ∧
      merge s = addNode (joined s a b) { s with eng := { s.eng with active := (s.eng.active.erase a).erase b } } := by
  unfold merge
  split
  · rename_i e; simp [e] at h
  · rename_i x xs e
    simp only
    have ha := lightest_smallest s xs x
    split
    · rename_i e2
      have := List.length_erase_of_mem ha.1
      rw [e2] at this; rw [e] at h; simp at this h; omega
    · rename_i y ys e2
      rw [e]
      exact ⟨lightest s x xs, lightest s y ys, ha, by rw [e2]; exact lightest_smallest s ys y, by rw [e2]⟩

/-- What is below slot `n` and not yet merged depends on the nodes below `n` only. -/
theorem unmerged_congr {s t : State} {first N n : Nat} (hN : N ≤ 1024) (hn : n ≤ N)
    (h : ∀ i : NodeIndex, i.toNat < N → t.nodeAt i = s.nodeAt i) (i : NodeIndex) :
    t.unmerged first n i ↔ s.unmerged first n i := by
  have : ∀ m, m < n → t.nodeAt (BitVec.ofNat 10 m) = s.nodeAt (BitVec.ofNat 10 m) := fun m hm => h _ (by simp; omega)
  constructor
  · exact fun ⟨a, b⟩ => ⟨a, fun m h1 h2 => by rw [← this m h2]; exact b m h1 h2⟩
  · exact fun ⟨a, b⟩ => ⟨a, fun m h1 h2 => by rw [this m h2]; exact b m h1 h2⟩

/-- The smallest key among slots below `N` depends on the nodes below `N` only. -/
theorem smallestKey_congr {s t : State} {N : Nat} (h : ∀ i : NodeIndex, i.toNat < N → t.nodeAt i = s.nodeAt i)
    {p q : NodeIndex → Prop} (hpq : ∀ i, q i ↔ p i) (hp : ∀ i, p i → i.toNat < N) (a : NodeIndex) (hs : s.smallestKey p a) :
    t.smallestKey q a :=
  ⟨(hpq a).2 hs.1, fun i hi => by
    have hi := (hpq i).1 hi
    have := hs.2 i hi
    simp only [State.keyLe] at *
    rw [h a (hp a hs.1), h i (hp i hi)]; exact this⟩

/-- `s` is the state after `j` merges of the `L` leaves that `s0` holds, of total weight `W` and symbols `syms`. -/
structure MInv (L W : Nat) (syms : List Symbol) (s0 s : State) (j : Nat) : Prop where
  cnt : s.regs.nodeCount = BitVec.ofNat 10 (L + j)
  len : s.eng.active.length + j = L
  nodup : s.eng.active.Nodup
  lt : ∀ i ∈ s.eng.active, i.toNat < L + j
  old : ∀ k, k < L → s.nodeAt (BitVec.ofNat 10 k) = s0.nodeAt (BitVec.ofNat 10 k)
  internal : ∀ n, L ≤ n → n < L + j → 
      let x := s.nodeAt (BitVec.ofNat 10 n)
      x.isLeaf = false ∧ x.symbol = 0#9 ∧ x.left.toNat < n ∧ x.right.toNat < n ∧ x.left ≠ x.right ∧
      x.weight.toNat = (s.nodeAt x.left).weight.toNat + (s.nodeAt x.right).weight.toNat
  sum : (s.eng.active.map (fun i => (s.nodeAt i).weight.toNat)).sum = W
  forest : ∃ f : NodeIndex → CodeTree, (∀ i ∈ s.eng.active, s.holdsTree (f i) i ) ∧ (s.eng.active.flatMap (fun i => (f i).symbols)).Perm syms
  act : ∀ i, i ∈ s.eng.active ↔ s.unmerged L (L + j) i
  picks : ∀ n, L ≤ n → n < L + j →
      let x := s.nodeAt (BitVec.ofNat 10 n)
      s.smallestKey (s.unmerged L n) x.left ∧ s.smallestKey (fun i => s.unmerged L n i ∧ i ≠ x.left) x.right
  last : s.eng.active.getLast? = some (BitVec.ofNat 10 (L + j - 1))

/-- One merge. -/
theorem MInv.step {L W syms s0 s j} (hi : MInv L W syms s0 s j) (hj : j + 1 < L) (hL : L ≤ 257) (hW : W < 2 ^ 40)
    (hleaf : ∀ k, k < L → (s0.nodeAt (BitVec.ofNat 10 k)).isLeaf = true) : MInv L W syms s0 (merge s) (j + 1) := by
  obtain ⟨a, b, hka, hkb, he⟩ := merge_eq s (by have := hi.len; omega)
  obtain ⟨rest, hrst⟩ : ∃ rest, rest = (s.eng.active.erase a).erase b := ⟨_, rfl⟩
  have hperm : s.eng.active.Perm (a :: b :: rest) := by
    rw [hrst]; exact (List.perm_cons_erase hka.1).trans ((List.perm_cons_erase hkb.1).cons _)
  rw [← hrst] at he
  have hn : (BitVec.ofNat 10 (L + j)).toNat = L + j := by simp; omega
  have hnd := (hperm.nodup_iff).1 hi.nodup
  have ha : a ∈ s.eng.active := hperm.symm.subset (by simp)
  have hb : b ∈ s.eng.active := hperm.symm.subset (by simp)
  have hrest : ∀ i ∈ rest, i ∈ s.eng.active := fun i h => hperm.symm.subset (by simp [h])
  have hsame : ∀ i : NodeIndex, i.toNat < L + j → (merge s).nodeAt i = s.nodeAt i := by
    intro i h
    rw [he]
    have hne : i ≠ s.regs.nodeCount := by rw [hi.cnt]; intro e; rw [e, hn] at h; omega
    exact State.setNode_nodeAt_of_ne _ hne _
  have hnew : (merge s).nodeAt (BitVec.ofNat 10 (L + j)) = joined s a b := by
    rw [he, ← hi.cnt]
    exact State.setNode_nodeAt_self _ (by rw [hi.cnt, hn]; show L + j < 513; omega) _
  have hact : (merge s).eng.active = rest ++ [BitVec.ofNat 10 (L + j)] := by
    rw [he, addNode_eng]; show rest ++ [s.regs.nodeCount] = _; rw [hi.cnt]
  have hsum : (s.nodeAt a).weight.toNat + ((s.nodeAt b).weight.toNat + (rest.map (fun i => (s.nodeAt i).weight.toNat)).sum) = W := by
    rw [← hi.sum, (hperm.map _).sum_eq]; simp
  have hjw : (joined s a b).weight.toNat = (s.nodeAt a).weight.toNat + (s.nodeAt b).weight.toNat := by
    simp only [joined, Node.internal]; rw [BitVec.toNat_add]; omega
  have hdown : ∀ i : NodeIndex, i.toNat < L + j → (s.nodeAt i).isLeaf = false → (s.nodeAt i).left.toNat < L + j ∧ (s.nodeAt i).right.toNat < L + j := by
    intro i h1 h2
    rcases Nat.lt_or_ge i.toNat L with h | h
    · have := hi.old _ h; rw [toNat10] at this; rw [this] at h2
      have := hleaf _ h; rw [toNat10] at this; rw [this] at h2; cases h2
    · have := hi.internal _ h h1; rw [toNat10] at this; simp only at this; omega
  refine ⟨?_, ?_, ?_, ?_, ?_, ?_, ?_, ?_, ?_, ?_, ?_⟩
  · rw [he, addNode_regs]; show s.regs.nodeCount + 1#10 = _; rw [hi.cnt, ofNat_succ]; rfl
  · rw [hact]; have := hperm.length_eq; have := hi.len; simp at *; omega
  · rw [hact, List.nodup_append']
    simp only [List.nodup_cons] at hnd
    refine ⟨hnd.2.2, by simp, ?_⟩
    intro i h1 h2
    have := hi.lt i (hrest i h1)
    simp at h2; rw [h2, hn] at this; omega
  · intro i h; rw [hact] at h
    rcases List.mem_append.1 h with h | h
    · have := hi.lt i (hrest i h); omega
    · simp at h; rw [h, hn]; omega
  · intro k hk; rw [hsame _ (by simp; omega)]; exact hi.old k hk
  · intro n h1 h2
    simp only
    by_cases e : n = L + j
    · subst e
      rw [hnew]
      have la := hi.lt a ha; have lb := hi.lt b hb
      refine ⟨rfl, rfl, la, lb, ?_, ?_⟩
      · show a ≠ b; simp only [List.nodup_cons, List.mem_cons, not_or] at hnd; exact hnd.1.1
      · rw [hjw]; show _ = ((merge s).nodeAt a).weight.toNat + ((merge s).nodeAt b).weight.toNat; rw [hsame a la, hsame b lb]
    · rw [hsame _ (by simp; omega)]
      obtain ⟨q1, q2, q3, q4, q5, q6⟩ := hi.internal n h1 (by omega)
      refine ⟨q1, q2, q3, q4, q5, ?_⟩
      rw [hsame _ (by omega), hsame _ (by omega)]; exact q6
  · rw [hact]
    simp only [List.map_append, List.sum_append, List.map_cons, List.map_nil, List.sum_cons, List.sum_nil]
    rw [hnew, hjw]
    have : rest.map (fun i => ((merge s).nodeAt i).weight.toNat) = rest.map (fun i => (s.nodeAt i).weight.toNat) := by
      apply List.map_congr_left; intro i h; rw [hsame i (hi.lt i (hrest i h))]
    rw [this]; omega
  · obtain ⟨f, hf, hp⟩ := hi.forest
    refine ⟨fun i => if i = BitVec.ofNat 10 (L + j) then .node (f a) (f b) else f i, ?_, ?_⟩
    · intro i h; rw [hact] at h
      rcases List.mem_append.1 h with h | h
      · have hlt := hi.lt i (hrest i h)
        have : i ≠ BitVec.ofNat 10 (L + j) := by rintro rfl; rw [hn] at hlt; omega
        simp only [this, if_false]
        exact holds_below hsame hdown _ i hlt (hf i (hrest i h))
      · simp at h; subst h
        simp only [if_true, State.holdsTree]
        rw [hnew]
        exact ⟨rfl, holds_below hsame hdown _ a (hi.lt a ha) (hf a ha), holds_below hsame hdown _ b (hi.lt b hb) (hf b hb)⟩
    · rw [hact]
      have h1 : (s.eng.active.flatMap fun i => (f i).symbols).Perm ((a :: b :: rest).flatMap fun i => (f i).symbols) := hperm.flatMap_right _
      refine List.Perm.trans ?_ (h1.symm.trans hp)
      have h2 : rest.flatMap (fun i => (if i = BitVec.ofNat 10 (L + j) then CodeTree.node (f a) (f b) else f i).symbols) = rest.flatMap (fun i => (f i).symbols) := by
        rw [List.flatMap_def, List.flatMap_def]
        congr 1
        apply List.map_congr_left; intro i h
        have hlt := hi.lt i (hrest i h)
        have : i ≠ BitVec.ofNat 10 (L + j) := by rintro rfl; rw [hn] at hlt; omega
        simp only [this, if_false]
      simp only [List.flatMap_append, List.flatMap_cons, List.flatMap_nil, List.append_nil, h2, if_true, CodeTree.symbols]
      rw [← List.append_assoc (f a).symbols]
      exact List.perm_append_comm
  · intro i
    rw [hact, List.mem_append, List.mem_singleton]
    have hlt : ∀ m, L ≤ m → m < L + j → (s.nodeAt (BitVec.ofNat 10 m)).left.toNat < L + j ∧
        (s.nodeAt (BitVec.ofNat 10 m)).right.toNat < L + j := fun m h1 h2 => by
      have := hi.internal m h1 h2; simp only at this; omega
    have hold := unmerged_congr (first := L) (n := L + j) (by omega) (Nat.le_refl _) hsame
    have hmem : i ∈ rest ↔ i ∈ s.eng.active ∧ i ≠ a ∧ i ≠ b := by
      simp only [List.nodup_cons, List.mem_cons, not_or] at hnd
      rw [hperm.mem_iff]; simp only [List.mem_cons]
      constructor
      · exact fun h => ⟨.inr (.inr h), fun e => hnd.1.2 (e ▸ h), fun e => hnd.2.1 (e ▸ h)⟩
      · rintro ⟨h | h | h, h1, h2⟩
        · exact absurd h h1
        · exact absurd h h2
        · exact h
    constructor
    · rintro (h | rfl)
      · obtain ⟨h1, h2, h3⟩ := hmem.1 h
        obtain ⟨h4, h5⟩ := (hold i).2 ((hi.act i).1 h1)
        refine ⟨by omega, fun m g1 g2 => ?_⟩
        by_cases e : m = L + j
        · subst e; rw [hnew]; exact ⟨Ne.symm h2, Ne.symm h3⟩
        · exact h5 m g1 (by omega)
      · refine ⟨by omega, fun m g1 g2 => ?_⟩
        have hne : ∀ c : NodeIndex, c.toNat < L + j → c ≠ BitVec.ofNat 10 (L + j) := by
          rintro c hc rfl; omega
        by_cases e : m = L + j
        · subst e; rw [hnew]; exact ⟨hne _ (hi.lt a ha), hne _ (hi.lt b hb)⟩
        · rw [hsame _ (by simp; omega)]
          exact ⟨hne _ (hlt m g1 (by omega)).1, hne _ (hlt m g1 (by omega)).2⟩
    · rintro ⟨h1, h2⟩
      by_cases e : i.toNat = L + j
      · right; rw [← e, toNat10]
      · left
        have hm := h2 (L + j) (by omega) (by omega)
        rw [hnew] at hm
        exact hmem.2 ⟨(hi.act i).2 ((hold i).1 ⟨by omega, fun m g1 g2 => h2 m g1 (by omega)⟩), Ne.symm hm.1, Ne.symm hm.2⟩
  · intro n h1 h2
    simp only
    by_cases e : n = L + j
    · subst e
      rw [hnew]
      have hold := unmerged_congr (first := L) (n := L + j) (by omega) (Nat.le_refl _) hsame
      refine ⟨smallestKey_congr hsame (fun i => (hold i).trans (hi.act i).symm) hi.lt a hka,
        smallestKey_congr hsame (fun i => ?_) (fun i h => hi.lt i (List.mem_of_mem_erase h)) b hkb⟩
      rw [hi.nodup.mem_erase_iff, and_comm]
      exact and_congr Iff.rfl ((hold i).trans (hi.act i).symm)
    · have hn' : n < L + j := by omega
      rw [hsame _ (by simp; omega)]
      have hold := unmerged_congr (first := L) (n := n) (by omega : L + j ≤ 1024) (by omega) hsame
      obtain ⟨p1, p2⟩ := hi.picks n h1 hn'
      exact ⟨smallestKey_congr hsame hold (fun i h => by have := h.1; omega) _ p1,
        smallestKey_congr hsame (fun i => and_congr (hold i) Iff.rfl) (fun i h => by have := h.1.1; omega) _ p2⟩
  · rw [hact]; simp

/-- `k` merges. -/
theorem MInv.run {L W syms s0} (hL : L ≤ 257) (hW : W < 2 ^ 40)
    (hleaf : ∀ k, k < L → (s0.nodeAt (BitVec.ofNat 10 k)).isLeaf = true) : ∀ (k j) (s : State), MInv L W syms s0 s j → j + k + 1 ≤ L →
    MInv L W syms s0 (mergeTimes k s) (j + k) := by
  intro k
  induction k with
  | zero => intro j s h _; exact h
  | succ k ih =>
    intro j s h hk
    have := ih (j + 1) (merge s) (h.step (by omega) hL hW hleaf) (by omega)
    rw [show j + 1 + k = j + (k + 1) by omega] at this
    exact this

/-- Nodes placed one after the other from slot `n`. -/
theorem place_spec (f : Nat → Node) (l : List Nat) : ∀ (n : Nat) (s : State), s.regs.nodeCount = BitVec.ofNat 10 n → n + l.length ≤ 513 →
    let t := l.foldl (fun t c => addNode (f c) t) s
    t.regs.nodeCount = BitVec.ofNat 10 (n + l.length) ∧
    t.eng.active = s.eng.active ++ (List.range l.length).map (fun k => BitVec.ofNat 10 (n + k)) ∧
    (∀ k c, l[k]? = some c → t.nodeAt (BitVec.ofNat 10 (n + k)) = f c) ∧
    (∀ i : NodeIndex, i.toNat < n → t.nodeAt i = s.nodeAt i) := by
  induction l with
  | nil => intro n s h1 h2; simp [h1]
  | cons c l ih =>
    intro n s h1 h2
    simp only [List.length_cons] at h2
    have hn : (BitVec.ofNat 10 n).toNat = n := by simp; omega
    obtain ⟨a1, a2, a3, a4⟩ := ih (n + 1) (addNode (f c) s) (by rw [addNode_regs]; show s.regs.nodeCount + 1#10 = _; rw [h1, ofNat_succ]) (by omega)
    simp only [List.foldl_cons]
    refine ⟨?_, ?_, ?_, ?_⟩
    · rw [a1, List.length_cons]; congr 1; omega
    · rw [a2, addNode_eng]
      simp only [List.append_assoc, List.length_cons]
      rw [List.range_succ_eq_map]
      simp only [List.map_cons, List.map_map, List.singleton_append, Nat.add_zero, h1]
      congr 2
      apply List.map_congr_left; intro k _; simp only [Function.comp]; congr 1; omega
    · intro k d hk
      cases k with
      | zero =>
        simp at hk; subst hk
        rw [a4 _ (by simp; omega)]
        show (State.setNode _ _ _).nodeAt _ = _
        rw [Nat.add_zero, ← h1]
        exact State.setNode_nodeAt_self _ (by rw [h1, hn]; show n < 513; omega) _
      | succ k =>
        have := a3 k d (by simpa using hk)
        rw [← this]; congr 2; omega
    · intro i hi
      rw [a4 i (by omega)]
      have hne : i ≠ s.regs.nodeCount := by rw [h1]; intro e; rw [e, hn] at hi; omega
      exact State.setNode_nodeAt_of_ne _ hne _

theorem occ_eq (s : State) : occurring s = (List.range 256).filter fun c => s.freqAt c ≠ 0#32 := by
  simp [occurring, Config.numBytes]

theorem occ_len (s : State) : (occurring s).length ≤ 256 := by
  have := List.length_filter_le (fun c => s.freqAt c ≠ 0#32) (List.range 256)
  rw [occ_eq]; simp at this ⊢; exact this

theorem sum_filter (g : Nat → Nat) (p : Nat → Bool) (l : List Nat) (h : ∀ c ∈ l, p c = false → g c = 0) :
    ((l.filter p).map g).sum = (l.map g).sum := by
  induction l with
  | nil => rfl
  | cons c l ih =>
    have ih := ih (fun d hd => h d (List.mem_cons_of_mem _ hd))
    by_cases hp : p c
    · simp [hp, ih]
    · have := h c (by simp) (by simpa using hp); simp [hp, ih, this]

theorem placeLeaves_frame (s : State) : NodeFrame s (placeLeaves s) := by
  have h1 : TreeFrame s (addNode (Node.leaf Config.peof Config.peofWeight)
      ((occurring s).foldl (fun t c => addNode (byteLeaf s c) t) (emptyTree s))) :=
    ((emptyTree_tree s).trans (addNodes_tree _ _ _)).trans (addNode_tree _ _)
  exact h1.1

/-- The leaves of BUILD. -/
theorem leaves_inv (s : State) : 
    let m := (occurring s).length
    let W := 1 + ((List.range 256).map fun c => (s.freqAt c).toNat).sum
    MInv (m + 1) W ((occurring s).map (BitVec.ofNat 9) ++ [256#9]) (placeLeaves s) (placeLeaves s) 0 ∧ W < 2 ^ 40 ∧
    (∀ k c, (occurring s)[k]? = some c → (placeLeaves s).nodeAt (BitVec.ofNat 10 k) = byteLeaf s c) ∧
    (placeLeaves s).nodeAt (BitVec.ofNat 10 m) = Node.leaf 256#9 1#40 ∧ (placeLeaves s).regs.leafCount = BitVec.ofNat 10 (m + 1) := by
  intro m W
  have hm : m ≤ 256 := occ_len s
  obtain ⟨a1, a2, a3, a4⟩ := place_spec (byteLeaf s) (occurring s) 0 (emptyTree s) rfl (by have : (occurring s).length ≤ 256 := hm; omega)
  obtain ⟨t, ht⟩ : ∃ t, t = (occurring s).foldl (fun t c => addNode (byteLeaf s c) t) (emptyTree s) := ⟨_, rfl⟩
  rw [← ht] at a1 a2 a3 a4
  have hmn : (BitVec.ofNat 10 m).toNat = m := by simp; omega
  have e : placeLeaves s = { addNode (Node.leaf Config.peof Config.peofWeight) t with regs := { (addNode (Node.leaf Config.peof Config.peofWeight) t).regs with leafCount := (addNode (Node.leaf Config.peof Config.peofWeight) t).regs.nodeCount } } := by rw [ht]; rfl
  have hcnt : t.regs.nodeCount = BitVec.ofNat 10 m := by rw [a1, Nat.zero_add]
  have c1 : (placeLeaves s).regs.nodeCount = BitVec.ofNat 10 (m + 1) := by rw [e]; show (addNode (Node.leaf Config.peof Config.peofWeight) t).regs.nodeCount = _; rw [addNode_regs]; show t.regs.nodeCount + 1#10 = _; rw [hcnt, ofNat_succ]
  have c2 : (placeLeaves s).regs.leafCount = BitVec.ofNat 10 (m + 1) := by rw [← c1, e]
  have c3 : (placeLeaves s).eng.active = (List.range (m + 1)).map (fun k => BitVec.ofNat 10 k) := by
    rw [e]; show (addNode (Node.leaf Config.peof Config.peofWeight) t).eng.active = _; rw [addNode_eng]; show t.eng.active ++ [t.regs.nodeCount] = _
    rw [a2, hcnt, List.range_succ]; simp [emptyTree, m]
  have c4 : (placeLeaves s).nodeAt (BitVec.ofNat 10 m) = Node.leaf 256#9 1#40 := by
    rw [e]; show (State.setNode t t.regs.nodeCount (Node.leaf Config.peof Config.peofWeight)).nodeAt _ = _; rw [← hcnt]
    exact State.setNode_nodeAt_self _ (by rw [hcnt, hmn]; show m < 513; omega) _
  have c5 : ∀ k c, (occurring s)[k]? = some c → (placeLeaves s).nodeAt (BitVec.ofNat 10 k) = byteLeaf s c := by
    intro k c hk
    have hlt : k < m := by have := (List.getElem?_eq_some_iff.1 hk).1; exact this
    rw [← a3 k c hk, Nat.zero_add]
    rw [e]; exact State.setNode_nodeAt_of_ne t (by rw [hcnt]; exact ofNat10 (by omega) (by omega) (by omega)) _
  have c6 : ∀ k, k < m → ∃ c, (occurring s)[k]? = some c := by
    intro k hk; exact ⟨(occurring s)[k], List.getElem?_eq_getElem hk⟩
  have hfw : ∀ c, ((s.freqAt c).setWidth 40).toNat = (s.freqAt c).toNat := by
    intro c; have := (s.freqAt c).isLt; simp; omega
  have hmap : (List.range (m + 1)).map (fun k => ((placeLeaves s).nodeAt (BitVec.ofNat 10 k)).weight.toNat) = (occurring s).map (fun c => (s.freqAt c).toNat) ++ [1] := by
    rw [List.range_succ, List.map_append]
    congr 1
    · apply List.ext_getElem
      · simp [m]
      · intro k h1 h2
        simp at h1 h2
        simp only [List.getElem_map, List.getElem_range]
        rw [c5 k _ (List.getElem?_eq_getElem h2)]
        exact hfw _
    · simp [c4, Node.leaf]
  have hsum : ((occurring s).map (fun c => (s.freqAt c).toNat)).sum = ((List.range 256).map fun c => (s.freqAt c).toNat).sum := by
    rw [occ_eq]
    apply sum_filter
    intro c _ h; simp at h; simp [h]
  have hW : W < 2 ^ 40 := by
    have : ((List.range 256).map fun c => (s.freqAt c).toNat).sum ≤ 256 * (2^32 - 1) := by
      have := List.sum_le_card_nsmul ((List.range 256).map fun c => (s.freqAt c).toNat) (2^32-1) (by
        intro x hx; simp only [List.mem_map] at hx; obtain ⟨c, -, rfl⟩ := hx; have := (s.freqAt c).isLt; omega)
      simpa using this
    show 1 + _ < _
    omega
  refine ⟨⟨?_, ?_, ?_, ?_, fun _ _ => rfl, fun n h1 h2 => by omega, ?_, ?_, ?_, fun n h1 h2 => by omega, ?_⟩, hW, c5, c4, c2⟩
  · exact c1
  · rw [c3]; simp
  · rw [c3]
    refine List.Nodup.map_on ?_ List.nodup_range
    intro x hx y hy hxy
    have hx := List.mem_range.1 hx; have hy := List.mem_range.1 hy
    by_contra hne; exact ofNat10 (by omega) (by omega) hne hxy
  · rw [c3]; intro i hi
    obtain ⟨k, hk, rfl⟩ := List.mem_map.1 hi
    have := List.mem_range.1 hk; simp; omega
  · rw [c3, List.map_map]
    show ((List.range (m + 1)).map (fun k => ((placeLeaves s).nodeAt (BitVec.ofNat 10 k)).weight.toNat)).sum = W
    rw [hmap, List.sum_append, hsum]; simp [W]; omega
  · refine ⟨fun i => .leaf ((placeLeaves s).nodeAt i).symbol, ?_, ?_⟩
    · rw [c3]; intro i hi
      obtain ⟨k, hk, rfl⟩ := List.mem_map.1 hi
      have hk := List.mem_range.1 hk
      refine ⟨?_, rfl⟩
      by_cases h : k = m
      · rw [h, c4]; rfl
      · obtain ⟨c, hc⟩ := c6 k (by omega); rw [c5 k c hc]; rfl
    · rw [c3]
      simp only [CodeTree.symbols, List.flatMap_def, List.map_map]
      have : (List.map ((fun i => [((placeLeaves s).nodeAt i).symbol]) ∘ fun k => BitVec.ofNat 10 k) (List.range (m + 1))).flatten = (List.range (m+1)).map (fun k => ((placeLeaves s).nodeAt (BitVec.ofNat 10 k)).symbol) := by
        induction (List.range (m+1)) with
        | nil => rfl
        | cons a l ih => simp only [List.map_cons, List.flatten_cons, ih]; rfl
      rw [this, List.range_succ, List.map_append]
      have h2 : (List.range m).map (fun k => ((placeLeaves s).nodeAt (BitVec.ofNat 10 k)).symbol) = (occurring s).map (BitVec.ofNat 9) := by
        apply List.ext_getElem
        · simp [m]
        · intro k h1 h2
          simp at h1 h2
          simp only [List.getElem_map, List.getElem_range]
          rw [c5 k _ (List.getElem?_eq_getElem h2)]; rfl
      rw [h2]; simp [c4, Node.leaf]
  · intro i
    rw [c3]
    constructor
    · intro hi
      obtain ⟨k, hk, rfl⟩ := List.mem_map.1 hi
      have := List.mem_range.1 hk
      exact ⟨by simp; omega, fun n h1 h2 => by omega⟩
    · exact fun h => List.mem_map.2 ⟨i.toNat, List.mem_range.2 h.1, toNat10 i⟩
  · rw [c3, List.range_succ]; simp

/-- BUILD: the state after all merges, with the root and the depth set. -/
theorem build_all (s : State) (hb : s.regs.state = .busy) (hp : s.eng.pending = none) (ht : s.eng.todo = some .build) :
    let t := engineEvent s
    let m := (occurring s).length
    let W := 1 + ((List.range 256).map fun c => (s.freqAt c).toNat).sum
    ∃ u, MInv (m + 1) W ((occurring s).map (BitVec.ofNat 9) ++ [256#9]) (placeLeaves s) u m ∧ t = (setRoot (BitVec.ofNat 10 (2 * m)) u).plan (.enterPhase .codegen) ∧ u.eng.active = [BitVec.ofNat 10 (2 * m)] ∧
      TreeFrame (placeLeaves s) u := by
  intro t m W
  obtain ⟨h1, h2, h3, h4, h5⟩ := leaves_inv s
  have hm : m ≤ 256 := occ_len s
  have hleaf : ∀ k, k < m + 1 → ((placeLeaves s).nodeAt (BitVec.ofNat 10 k)).isLeaf = true := by
    intro k hk
    by_cases h : k = m
    · rw [h, h4]; rfl
    · rw [h3 k _ (List.getElem?_eq_getElem (show k < (occurring s).length by have : m = (occurring s).length := rfl; omega))]; rfl
  have hrun := MInv.run (s0 := placeLeaves s) (by omega : m + 1 ≤ 257) h2 hleaf m 0 (placeLeaves s) h1 (by omega)
  have hlen : (placeLeaves s).eng.active.length - 1 = m := by have := h1.len; simp only [Nat.add_zero] at this; rw [this]; rfl
  rw [Nat.zero_add] at hrun
  have hact : (mergeTimes m (placeLeaves s)).eng.active = [BitVec.ofNat 10 (2 * m)] := by
    have l1 := hrun.len
    have l2 := hrun.last
    match hx : (mergeTimes m (placeLeaves s)).eng.active with
    | [] => rw [hx] at l2; cases l2
    | [x] => rw [hx] at l2; simp at l2; rw [l2]; congr 2; omega
    | x :: y :: r => rw [hx] at l1; simp at l1; omega
  refine ⟨mergeTimes m (placeLeaves s), hrun, ?_, hact, mergeTimes_tree _ _⟩
  show engineEvent s = _
  rw [engineEvent_internal hb hp ht]
  simp only [internalEvent, buildEvent, buildTree, hlen, hact, List.headD_cons]

end Sys2Proof.Machine
end

