-- ==== Sys2Proof/Laws/Handlers.lean ====
section
/-!
SUPPORT. What each event of the engine, and each wire token, can do to the registers and the tables.
-/

namespace Sys2Proof.Machine

/-- The engine waits for the answer to `w`. -/
theorem awaits_iff {s : State} {w : InWait} : s.awaits w = true ↔ s.regs.state = .busy ∧ s.eng.pending = some (.inReq w) := by
  simp [State.awaits, State.busy]

/-- A token taken whole is a wire token. -/
theorem fetch_port {s : State} {i n} (h : fetchToken s = some (i, n)) : i.port ≠ .command := by
  rcases fetchToken_cases h with ⟨rfl, -⟩ | ⟨rfl, -⟩ | ⟨v, rfl, -⟩ <;> simp [Instr.port]

/-- What no engine event touches: MODE, CMD_ERR, IRQ_EN and the draw of the NODE slots with no content. -/
def Keep (s t : State) : Prop :=
  t.regs.mode = s.regs.mode ∧ t.regs.cmdErr = s.regs.cmdErr ∧ t.regs.irqEn = s.regs.irqEn ∧ t.env.staleDraw = s.env.staleDraw

theorem Keep.trans {s t u} (h : Keep s t) (k : Keep t u) : Keep s u := by
  obtain ⟨a, b, c, d⟩ := h; obtain ⟨a', b', c', d'⟩ := k
  exact ⟨a'.trans a, b'.trans b, c'.trans c, d'.trans d⟩

/-- `t` is `s` after engine work that may write FREQ only if `fq`, CODE only if `cd` and NODE only if `nd`; canonical tables stay
canonical. -/
structure Summary (fq cd nd : Prop) (s t : State) : Prop where
  keep : Keep s t
  freq : ¬ fq → t.tables.freq = s.tables.freq ∧ t.tables.freqFill = s.tables.freqFill
  code : ¬ cd → t.tables.code = s.tables.code ∧ t.tables.codeFill = s.tables.codeFill
  node : ¬ nd → t.tables.node = s.tables.node
  wf : s.tables.wf = true → t.tables.wf = true

theorem Summary.same {fq cd nd} {s t : State} (hr : Keep s t) (ht : t.tables = s.tables) : Summary fq cd nd s t :=
  ⟨hr, fun _ => by simp [ht], fun _ => by simp [ht], fun _ => by rw [ht], fun h => by rw [ht]; exact h⟩

theorem Summary.nodeFrame {fq cd} {s t : State} (hr : Keep s t) (ht : NodeFrame s t) : Summary fq cd True s t := by
  obtain ⟨⟨l, hl⟩, he, hw⟩ := ht
  exact ⟨hr, fun _ => by simp [hl], fun _ => by simp [hl], fun h => (h trivial).elim, hw⟩

theorem Summary.trans {a b c : Prop} {s t u : State} (h : Summary a b c s t) (k : Summary a b c t u) : Summary a b c s u :=
  ⟨h.keep.trans k.keep, fun n => ⟨(k.freq n).1.trans (h.freq n).1, (k.freq n).2.trans (h.freq n).2⟩,
   fun n => ⟨(k.code n).1.trans (h.code n).1, (k.code n).2.trans (h.code n).2⟩, fun n => (k.node n).trans (h.node n), fun w => k.wf (h.wf w)⟩

theorem Summary.mono {a b c a' b' c' : Prop} {s t : State} (ha : a → a') (hb : b → b') (hc : c → c') (h : Summary a b c s t) : Summary a' b' c' s t :=
  ⟨h.keep, fun n => h.freq (fun x => n (ha x)), fun n => h.code (fun x => n (hb x)), fun n => h.node (fun x => n (hc x)), h.wf⟩

/-! ### The events -/

/-- What the answer to an IN request can do. -/
theorem answered_sum (w : InWait) (a : Answer) (s : State) :
    Summary False False (w = .typeBit) s (answered w a s) ∧
    (answered w a s).regs.state = s.regs.state ∧ (answered w a s).env.outTrace = s.env.outTrace := by
  cases w <;> simp only [answered]
  case countByte =>
    generalize a.field 8 = r
    cases r <;> exact ⟨Summary.same ⟨rfl, rfl, rfl, rfl⟩ rfl, rfl, rfl⟩
  case rewind => exact ⟨Summary.same ⟨rfl, rfl, rfl, rfl⟩ rfl, rfl, rfl⟩
  case encodeByte =>
    generalize a.field 8 = r
    cases r with
    | none => exact ⟨Summary.same ⟨rfl, rfl, rfl, rfl⟩ rfl, rfl, rfl⟩
    | some b =>
      simp only [encodeAnswered, startEmit, emitNext, codeDone]
      split_ifs <;> exact ⟨Summary.same ⟨rfl, rfl, rfl, rfl⟩ rfl, rfl, rfl⟩
  case magicIn =>
    generalize a.field 32 = r
    cases r with
    | none => exact ⟨Summary.same ⟨rfl, rfl, rfl, rfl⟩ rfl, rfl, rfl⟩
    | some v =>
      simp only [magicAnswered]
      split_ifs <;> exact ⟨Summary.same ⟨rfl, rfl, rfl, rfl⟩ rfl, rfl, rfl⟩
  case walkBit =>
    generalize a.field 1 = r
    cases r with
    | none => exact ⟨Summary.same ⟨rfl, rfl, rfl, rfl⟩ rfl, rfl, rfl⟩
    | some v =>
      simp only [walkAnswered, arrive]
      split_ifs <;> exact ⟨Summary.same ⟨rfl, rfl, rfl, rfl⟩ rfl, rfl, rfl⟩
  case typeBit =>
    generalize a.field 1 = r
    cases r with
    | none => exact ⟨Summary.same ⟨rfl, rfl, rfl, rfl⟩ rfl, rfl, rfl⟩
    | some v =>
      simp only [typeBitAnswered]
      split_ifs
      · exact ⟨Summary.same ⟨rfl, rfl, rfl, rfl⟩ rfl, rfl, rfl⟩
      · refine ⟨⟨⟨?_, ?_, ?_, ?_⟩, ?_, ?_, ?_, ?_⟩, ?_, ?_⟩ <;> simp [openLeaf, allocate]
        intro h
        exact State.forgetNode_wf (s := allocate (s.readCoded (some v))) h _
      · exact ⟨Summary.same ⟨rfl, rfl, rfl, rfl⟩ rfl, rfl, rfl⟩
  case symbolField =>
    generalize a.field 9 = r
    cases r with
    | none => exact ⟨Summary.same ⟨rfl, rfl, rfl, rfl⟩ rfl, rfl, rfl⟩
    | some v =>
      simp only [symbolAnswered]
      split_ifs <;> exact ⟨Summary.same ⟨rfl, rfl, rfl, rfl⟩ rfl, rfl, rfl⟩

/-- What the acceptance of an OUT transaction can do. -/
theorem outAccepted_sum (w : OutWait) (s : State) :
    Summary False False False s (outAccepted w s) ∧ (outAccepted w s).regs.state = s.regs.state ∧
    (outAccepted w s).env.outTrace = s.env.outTrace ++ [outTx w s] := by
  unfold outAccepted
  generalize outTx w s = tx
  generalize outBits w = n
  cases w <;> simp only [afterOut]
  case magicOut => exact ⟨Summary.same ⟨rfl, rfl, rfl, rfl⟩ rfl, rfl, rfl⟩
  case nodeBit =>
    unfold nodeBitAccepted
    split
    · split
      · exact ⟨Summary.same ⟨rfl, rfl, rfl, rfl⟩ rfl, rfl, rfl⟩
      · exact ⟨Summary.same ⟨rfl, rfl, rfl, rfl⟩ rfl, rfl, rfl⟩
    · unfold nextNode; split <;> exact ⟨Summary.same ⟨rfl, rfl, rfl, rfl⟩ rfl, rfl, rfl⟩
  case nodeSymbol => unfold nodeSymbolAccepted nextNode; split <;> exact ⟨Summary.same ⟨rfl, rfl, rfl, rfl⟩ rfl, rfl, rfl⟩
  case codeBit =>
    unfold codeBitAccepted emitNext codeDone; split_ifs <;> exact ⟨Summary.same ⟨rfl, rfl, rfl, rfl⟩ rfl, rfl, rfl⟩
  case byteOut => exact ⟨Summary.same ⟨rfl, rfl, rfl, rfl⟩ rfl, rfl, rfl⟩
  case close => exact ⟨Summary.same ⟨rfl, rfl, rfl, rfl⟩ rfl, rfl, rfl⟩

/-- emit(256) begins: only the engine's own state changes, since no code of PEOF counts in ENC_COUNT. -/
theorem startTerminator_frame (s : State) : ∃ x, startEmit Config.peof s = { s with eng := x } := by
  unfold startEmit emitNext codeDone
  split_ifs with h1 h2
  · exact ⟨_, rfl⟩
  · exact ⟨_, rfl⟩
  · exact absurd rfl h2

/-- PHASE <- p writes PHASE and the engine's position, and nothing else. -/
theorem enterPhase_frame (p : Phase) (s : State) :
    ∃ x, enterPhaseEvent p s = { s with regs := { s.regs with phase := p }, eng := x } := by
  cases p <;> simp only [enterPhaseEvent, beginPhase]
  case terminate =>
    obtain ⟨x, h⟩ := startTerminator_frame (s.setPhase .terminate)
    exact ⟨x, h⟩
  case decode => unfold startDecode startWalk; split_ifs <;> exact ⟨_, rfl⟩
  all_goals exact ⟨_, rfl⟩

/-- What an internal event can do. -/
theorem internal_sum (e : Internal) (s : State) :
    Summary (e = .clearFreq ∨ ∃ b, e = .countByte b) (e = .codegen) (e = .build ∨ (∃ n, e = .writeNode n) ∨ ∃ i, e = .link i) s
      (internalEvent e s) ∧
    (internalEvent e s).env = s.env ∧
    (internalEvent e s).regs.state = (match e with | .raise _ => .error | .finish => .done | _ => s.regs.state) := by
  cases e <;> simp only [internalEvent]
  case clearFreq =>
    refine ⟨⟨⟨rfl, rfl, rfl, rfl⟩, by simp, fun _ => ⟨rfl, rfl⟩, fun _ => rfl, fun h => ?_⟩, rfl, rfl⟩
    exact State.clearFreq_wf h
  case countByte b =>
    refine ⟨⟨⟨?_, ?_, ?_, ?_⟩, ?_, ?_, ?_, ?_⟩, ?_, ?_⟩ <;> simp [countByteEvent, countByte]
    exact fun h => State.setFreq_wf h _ _
  case writeNode n =>
    obtain ⟨h, hr, -, -⟩ := writeNodeEvent_frame n s
    have k := Summary.nodeFrame (fq := False) (cd := False) ⟨by rw [hr], by rw [hr], by rw [hr], by rw [h.2.1]⟩ h
    exact ⟨k.mono nofun nofun (fun _ => .inr (.inl ⟨n, rfl⟩)), h.2.1, by rw [hr]⟩
  case link i =>
    obtain ⟨h, hr⟩ := linkEvent_frame i s
    have k := Summary.nodeFrame (fq := False) (cd := False) ⟨by rw [hr], by rw [hr], by rw [hr], by rw [h.2.1]⟩ h
    exact ⟨k.mono nofun nofun (fun _ => .inr (.inr ⟨i, rfl⟩)), h.2.1, by rw [hr]⟩
  case build =>
    obtain ⟨⟨⟨l, h1⟩, h2, h3⟩, ⟨a, b, c, d, h⟩, -⟩ := buildTree_frame s
    refine ⟨⟨⟨?_, ?_, ?_, ?_⟩, ?_, ?_, ?_, ?_⟩, ?_, ?_⟩ <;> simp [buildEvent, h1, h2, h]
    intro h; have := h3 h; rw [h1] at this; exact this
  case codegen =>
    obtain ⟨⟨l, h⟩, h3⟩ := walk_frame Config.nodeCap s.regs.root [] s.clearCode
    refine ⟨⟨⟨?_, ?_, ?_, ?_⟩, ?_, ?_, ?_, ?_⟩, ?_, ?_⟩ <;> simp [codegenEvent, genCodes, h]
    intro h'; have := h3 (State.clearCode_wf h'); rw [h] at this; exact this
  case enterPhase p =>
    obtain ⟨x, h⟩ := enterPhase_frame p s
    rw [h]
    exact ⟨Summary.same ⟨rfl, rfl, rfl, rfl⟩ rfl, rfl, rfl⟩
  case finishParse => exact ⟨Summary.same ⟨rfl, rfl, rfl, rfl⟩ rfl, rfl, rfl⟩
  case raise => exact ⟨Summary.same ⟨rfl, rfl, rfl, rfl⟩ rfl, rfl, rfl⟩
  case finish => exact ⟨Summary.same ⟨rfl, rfl, rfl, rfl⟩ rfl, rfl, rfl⟩

/-! ### PHASE changes only in its own event -/

theorem emitNext_phase (s : State) : (emitNext s).regs.phase = s.regs.phase := by
  unfold emitNext codeDone; split_ifs <;> rfl

theorem nextNode_phase (rest : List Frame) (s : State) : (nextNode rest s).regs.phase = s.regs.phase := by
  cases rest <;> rfl

/-- The answer to an IN request leaves PHASE. -/
theorem answered_phase (w : InWait) (a : Answer) (s : State) : (answered w a s).regs.phase = s.regs.phase := by
  cases w <;> simp only [answered]
  case countByte => generalize a.field 8 = r; cases r <;> rfl
  case rewind => rfl
  case encodeByte =>
    generalize a.field 8 = r
    cases r with
    | none => rfl
    | some b => simp only [encodeAnswered]; split_ifs <;> simp [startEmit, emitNext_phase]
  case magicIn =>
    generalize a.field 32 = r
    cases r with
    | none => rfl
    | some v => simp only [magicAnswered]; split_ifs <;> rfl
  case typeBit =>
    generalize a.field 1 = r
    cases r with
    | none => rfl
    | some v => simp only [typeBitAnswered]; split_ifs <;> simp [openLeaf, allocate]
  case symbolField =>
    generalize a.field 9 = r
    cases r with
    | none => rfl
    | some v => simp only [symbolAnswered]; split_ifs <;> rfl
  case walkBit =>
    generalize a.field 1 = r
    cases r with
    | none => rfl
    | some v => simp only [walkAnswered, arrive]; split_ifs <;> rfl

/-- The acceptance of an OUT transaction leaves PHASE. -/
theorem outAccepted_phase (w : OutWait) (s : State) : (outAccepted w s).regs.phase = s.regs.phase := by
  unfold outAccepted
  generalize outTx w s = tx
  generalize outBits w = n
  cases w <;> simp only [afterOut]
  case nodeBit =>
    unfold nodeBitAccepted
    split
    · split
      · rfl
      · exact nextNode_phase _ _
    · exact nextNode_phase _ _
  case nodeSymbol => exact nextNode_phase _ _
  case codeBit => exact emitNext_phase _
  all_goals rfl

/-- An internal event other than PHASE <- p leaves PHASE. -/
theorem internal_phase (e : Internal) (s : State) :
    (internalEvent e s).regs.phase = (match e with | .enterPhase p => p | _ => s.regs.phase) := by
  cases e <;> simp only [internalEvent]
  case countByte b => simp [countByteEvent, countByte]
  case writeNode n => rw [(writeNodeEvent_frame n s).2.1]
  case link i => rw [(linkEvent_frame i s).2]
  case build =>
    obtain ⟨-, ⟨a, b, c, d, h⟩, -⟩ := buildTree_frame s
    simp [buildEvent, h]
  case codegen =>
    obtain ⟨⟨l, h⟩, -⟩ := walk_frame Config.nodeCap s.regs.root [] s.clearCode
    simp [codegenEvent, genCodes, h]
  case enterPhase p =>
    obtain ⟨x, h⟩ := enterPhase_frame p s
    rw [h]
  all_goals rfl

/-- An engine event keeps what no engine event touches. -/
theorem engine_keep (s : State) : Keep s (engineEvent s) := by
  rcases engineEvent_cases s with e | ⟨hb, w, a, as, hp, hs, e⟩ | ⟨hb, w, hp, hs, e⟩ | ⟨hb, i, hp, ht, e⟩
  · rw [e]; exact ⟨rfl, rfl, rfl, rfl⟩
  · rw [e]; exact (answered_sum w a _).1.keep
  · rw [e]; exact (outAccepted_sum w _).1.keep
  · rw [e]; exact (internal_sum i s).1.keep

/-! ### The tokens -/

/-- Taking the token's own event, if it is next: an error entry or the write of its node. -/
theorem takeTokenEvent_cases (s : State) :
    s.takeTokenEvent = s ∨ (∃ e, s.takeTokenEvent = s.errorEntry e) ∨ ∃ n, s.takeTokenEvent = writeNodeEvent n s := by
  unfold State.takeTokenEvent
  split
  · exact .inr (.inl ⟨_, rfl⟩)
  · exact .inr (.inr ⟨_, rfl⟩)
  · exact .inl rfl

theorem takeTokenEvent_sum {a b : Prop} (s : State) : Summary a b True s s.takeTokenEvent ∧
    (s.takeTokenEvent.regs.state = s.regs.state ∨ s.takeTokenEvent.regs.state = .error)
    ∧ s.takeTokenEvent.env.outTrace = s.env.outTrace := by
  rcases takeTokenEvent_cases s with e | ⟨x, e⟩ | ⟨n, e⟩ <;> rw [e]
  · exact ⟨Summary.same ⟨rfl, rfl, rfl, rfl⟩ rfl, .inl rfl, rfl⟩
  · exact ⟨Summary.same ⟨rfl, rfl, rfl, rfl⟩ rfl, .inr rfl, rfl⟩
  · obtain ⟨h, hr, -, -⟩ := writeNodeEvent_frame n s
    exact ⟨Summary.nodeFrame ⟨by rw [hr], by rw [hr], by rw [hr], by rw [h.2.1]⟩ h, .inl (by rw [hr]), by rw [h.2.1]⟩

theorem typeBit_sum (r) (s : State) : Summary False False True s (typeBitAnswered r s) ∧ (typeBitAnswered r s).regs.state = s.regs.state
   ∧ (typeBitAnswered r s).env.outTrace = s.env.outTrace := by
  cases r with
  | none => simpa [answered, Answer.field, eofAnswer] using answered_sum .typeBit eofAnswer s
  | some v => simpa [answered, Answer.field] using answered_sum .typeBit ⟨false, v.setWidth 32⟩ s

theorem symbol_sum (r) (s : State) : Summary False False False s (symbolAnswered r s) ∧ (symbolAnswered r s).regs.state = s.regs.state
   ∧ (symbolAnswered r s).env.outTrace = s.env.outTrace := by
  cases r with
  | none => simpa [answered, Answer.field, eofAnswer] using answered_sum .symbolField eofAnswer s
  | some v => simpa [answered, Answer.field] using answered_sum .symbolField ⟨false, v.setWidth 32⟩ s

theorem magic_sum (s : State) : Summary False False False s (magicAnswered (some Config.magic) s) ∧ (magicAnswered (some Config.magic) s).regs.state = s.regs.state 
   ∧ (magicAnswered (some Config.magic) s).env.outTrace = s.env.outTrace := by
  simpa [answered, Answer.field] using answered_sum .magicIn ⟨false, Config.magic⟩ s

theorem takeTokenEvent_phase (s : State) : s.takeTokenEvent.regs.phase = s.regs.phase := by
  rcases takeTokenEvent_cases s with e | ⟨x, e⟩ | ⟨n, e⟩ <;> rw [e]
  · rfl
  · rw [(writeNodeEvent_frame n s).2.1]

/-- A wire token leaves PHASE. -/
theorem token_phase {s t : State} {i : Instr} (hi : i.port ≠ .command) (he : exec i s = .next t) :
    t.regs.phase = s.regs.phase := by
  have hm := answered_phase .magicIn ⟨false, Config.magic⟩ s
  have ht := fun (b : BitVec 1) => answered_phase .typeBit ⟨false, b.setWidth 32⟩ s
  have hs := fun (v : Symbol) (u : State) => answered_phase .symbolField ⟨false, v.setWidth 32⟩ u
  simp only [answered, Answer.field] at hm ht hs
  cases i <;> simp [Instr.port] at hi <;> simp only [exec, execMagic, execTreeInternal, execTreeLeaf] at he <;>
    split at he <;> cases he
  · exact hm
  · rw [takeTokenEvent_phase]; exact ht 0#1
  · rename_i v ha
    unfold leafSymbolRead
    split
    · have h := hs v (typeBitAnswered (some 1#1) s).takeTokenEvent
      simp only [Bool.false_eq_true, if_false, BitVec.setWidth_setWidth_of_le, Nat.reduceLeDiff, BitVec.setWidth_eq] at h
      rw [takeTokenEvent_phase, h, takeTokenEvent_phase]; exact ht 1#1
    · rw [takeTokenEvent_phase]; exact ht 1#1

/-- What a wire token can do. -/
theorem token_sum {s t : State} {i : Instr} (hi : i.port ≠ .command) (he : exec i s = .next t) :
    Summary False False (s.awaits .typeBit = true) s t ∧ (t.regs.state = .busy ∨ t.regs.state = .error) ∧ s.regs.state = .busy ∧ t.env.outTrace = s.env.outTrace := by
  have nb : ∀ {x y : State}, x.regs.state = .busy → (y.regs.state = x.regs.state ∨ y.regs.state = .error) → (y.regs.state = .busy ∨ y.regs.state = .error) := by
    intro x y h1 h2; rwa [h1] at h2
  cases i <;> simp [Instr.port] at hi
  case magic =>
    simp only [exec, execMagic] at he
    split at he
    · rename_i ha
      cases he
      have hb := (awaits_iff.1 ha).1
      obtain ⟨h1, h2, h3⟩ := magic_sum s
      exact ⟨h1.mono id id False.elim, .inl (h2.trans hb), hb, h3⟩
    · cases he
  case treeInternal =>
    simp only [exec, execTreeInternal] at he
    split at he
    · rename_i ha
      cases he
      have hb := (awaits_iff.1 ha).1
      obtain ⟨h1, h2, h3⟩ := typeBit_sum (some 0#1) s
      obtain ⟨h4, h5, h6⟩ := takeTokenEvent_sum (a := False) (b := False) (typeBitAnswered (some 0#1) s)
      exact ⟨(h1.trans h4).mono id id (fun _ => ha), nb (h2.trans hb) h5, hb, h6.trans h3⟩
    · cases he
  case treeLeaf v =>
    simp only [exec, execTreeLeaf] at he
    split at he
    · rename_i ha
      cases he
      have hb := (awaits_iff.1 ha).1
      obtain ⟨h1, h2, h3⟩ := typeBit_sum (some 1#1) s
      obtain ⟨h4, h5, h6⟩ := takeTokenEvent_sum (a := False) (b := False) (typeBitAnswered (some 1#1) s)
      have h14 := h1.trans h4
      have hb2 := nb (h2.trans hb) h5
      generalize (typeBitAnswered (some 1#1) s).takeTokenEvent = x at *
      unfold leafSymbolRead
      split
      · rename_i hy
        obtain ⟨h7, h8, h9⟩ := symbol_sum (some v) x
        obtain ⟨h10, h11, h12⟩ := takeTokenEvent_sum (a := False) (b := False) (symbolAnswered (some v) x)
        exact ⟨((h14.trans (h7.mono id id False.elim)).trans h10).mono id id (fun _ => ha), nb (h8.trans (awaits_iff.1 hy).1) h11, hb, by rw [h12, h9, h6, h3]⟩
      · exact ⟨h14.mono id id (fun _ => ha), hb2, hb, h6.trans h3⟩
    · cases he

end Sys2Proof.Machine
end

