-- ==== Sys2Proof/Laws/PerInstr.lean ====
section
/-!
SUPPORT. The statements made instruction by instruction. EncodeWidth: the encoding of each row has the number of bits that
30_encoding.md gives it, and its first bit settles that number among the header's tokens (R113).
-/

namespace Sys2Proof.Laws.EncodeWidth

open Sys2Proof

/-- The number of bits of a row: a command word and the magic have 32 (30_encoding.md R100, R111); an internal node has 1 and
a leaf has 10 (R112). -/
def width : Instr → Nat
  | .nop => 32
  | .compress => 32
  | .decompress => 32
  | .clear => 32
  | .magic => 32
  | .treeInternal => 1
  | .treeLeaf _ => 10

/-- The encoding has the row's width; a header token is 10 bits wide exactly if its first bit is 1. -/
def Statement (i : Instr) : Prop :=
  (encode i).length = width i ∧ (i.port = .header → ((encode i).headD false = true ↔ width i = 10))

theorem nop : Statement .nop := ⟨rfl, nofun⟩

theorem compress : Statement .compress := ⟨rfl, nofun⟩

theorem decompress : Statement .decompress := ⟨rfl, nofun⟩

theorem clear : Statement .clear := ⟨rfl, nofun⟩

theorem magic : Statement .magic := ⟨rfl, nofun⟩

theorem treeInternal : Statement .treeInternal := ⟨rfl, fun _ => by decide⟩

theorem treeLeaf (s : Symbol) : Statement (.treeLeaf s) := ⟨rfl, fun _ => by simp [encode, width]⟩

end Sys2Proof.Laws.EncodeWidth
end

