-- ==== Sys2Proof/Laws/Runs.lean ====
section
/-!
SUPPORT. Runs of engine events: a code emitted, a tree serialized, a tree parsed, a code walked.
-/

namespace Sys2Proof.Machine

theorem run_add (m n : Nat) (s : State) : engineRun (m + n) s = engineRun n (engineRun m s) := by
  induction m generalizing s with
  | zero => simp [engineRun]
  | succ m ih => rw [Nat.add_right_comm]; exact ih _

/-! ### A code emitted -/

/-- The rest of a code, from bit ENC_POS on. -/
theorem emit_loop (n : Nat) : ∀ (s : State), s.regs.state = .busy → s.eng.pending = some (.outReq .codeBit) → s.eng.todo = none →
    s.eng.encPos + (n + 1) = s.encCode.len.toNat → n + 1 ≤ s.env.outCredit →
    engineRun (n + 1) s = codeDone { s with
      regs := { s.regs with bitCount := s.regs.bitCount + BitVec.ofNat 32 (n + 1) }
      eng := { s.eng with encPos := s.encCode.len.toNat }
      env := { s.env with outTrace := s.env.outTrace ++ bitWrites (s.encCode.path.drop s.eng.encPos), outCredit := s.env.outCredit - (n + 1) } } := by
  have hpath : ∀ c : CodeEntry, ∀ k, k < c.len.toNat → c.path.drop k = c.bit k :: c.path.drop (k + 1) := by
    intro c k hk
    have hl : c.path.length = c.len.toNat := by simp [CodeEntry.path]
    rw [List.drop_eq_getElem_cons (by omega)]
    simp [CodeEntry.path]
  have step1 : ∀ s : State, s.regs.state = .busy → s.eng.pending = some (.outReq .codeBit) → s.env.outCredit ≠ 0 →
      engineEvent s = emitNext { s with
      regs := { s.regs with bitCount := s.regs.bitCount + 1#32 }
      eng := { s.eng with encPos := s.eng.encPos + 1 }
      env := { s.env with outTrace := s.env.outTrace ++ [writeTx 1 (BitVec.ofBool (s.encCode.bit s.eng.encPos))], outCredit := s.env.outCredit - 1 } } := by
    intro s hb hp hc
    rw [engineEvent_out hb hp hc]; rfl
  induction n with
  | zero =>
    intro s hb hp ht hn hc
    simp only [engineRun]
    rw [step1 s hb hp (by omega)]
    unfold emitNext
    refine (if_neg (show ¬ (s.eng.encPos + 1 < s.encCode.len.toNat) by omega)).trans ?_
    congr 1
    rw [hpath _ _ (by omega)]
    have : s.encCode.path.length = s.encCode.len.toNat := by simp [CodeEntry.path]
    rw [List.drop_eq_nil_of_le (by omega), ← hn]
    rfl
  | succ n ih =>
    intro s hb hp ht hn hc
    rw [engineRun]
    have e : engineEvent s = { s with
      regs := { s.regs with bitCount := s.regs.bitCount + 1#32 }
      eng := { s.eng with encPos := s.eng.encPos + 1 }
      env := { s.env with outTrace := s.env.outTrace ++ [writeTx 1 (BitVec.ofBool (s.encCode.bit s.eng.encPos))], outCredit := s.env.outCredit - 1 } } := by
      rw [step1 s hb hp (by omega)]
      unfold emitNext
      refine (if_pos (show (s.eng.encPos + 1 < s.encCode.len.toNat) by omega)).trans ?_
      simp only [State.await]
      rw [← hp, ← ht]
    rw [ih]
    · rw [e]
      rw [hpath s.encCode s.eng.encPos (by omega)]
      have e1 : BitVec.ofNat 32 (n + 1 + 1) = 1#32 + BitVec.ofNat 32 (n + 1) := by rw [Nat.add_comm, BitVec.ofNat_add]
      have e2 : s.env.outCredit - (n + 1 + 1) = s.env.outCredit - 1 - (n + 1) := by omega
      rw [e1, e2, ← BitVec.add_assoc]
      have e3 : s.env.outTrace ++ bitWrites (s.encCode.bit s.eng.encPos :: s.encCode.path.drop (s.eng.encPos + 1)) =
         (s.env.outTrace ++ [writeTx 1 (BitVec.ofBool (s.encCode.bit s.eng.encPos))]) ++ bitWrites (s.encCode.path.drop (s.eng.encPos + 1)) := by
        simp [bitWrites]
      rw [e3]
      rfl
    · rw [e]; exact hb
    · rw [e]; exact hp
    · rw [e]; exact ht
    · rw [e]; show s.eng.encPos + 1 + (n + 1) = s.encCode.len.toNat; omega
    · rw [e]; show n + 1 ≤ s.env.outCredit - 1; omega

/-- `s` after the code of `sym` has been written. -/
def emitted (sym : Symbol) (s : State) : State := { s with
      regs := { s.regs with bitCount := s.regs.bitCount + BitVec.ofNat 32 (s.codeAt sym.toNat).len.toNat }
      eng := { s.eng with encSym := sym, encPos := (s.codeAt sym.toNat).len.toNat, pending := if (s.codeAt sym.toNat).len.toNat = 0 then s.eng.pending else some (.outReq .codeBit), todo := if (s.codeAt sym.toNat).len.toNat = 0 then s.eng.todo else none }
      env := { s.env with outTrace := s.env.outTrace ++ bitWrites (s.codeAt sym.toNat).path, outCredit := s.env.outCredit - (s.codeAt sym.toNat).len.toNat } }

/-- emit(sym): all bits of its code. -/
theorem emit_all (sym : Symbol) (s : State) (hb : s.regs.state = .busy) (hc : (s.codeAt sym.toNat).len.toNat ≤ s.env.outCredit) :
    engineRun (s.codeAt sym.toNat).len.toNat (startEmit sym s) = codeDone (emitted sym s) := by
  obtain ⟨s1, hs1⟩ : ∃ s1 : State, s1 = { s with eng := { s.eng with encSym := sym, encPos := 0 } } := ⟨_, rfl⟩
  have he : startEmit sym s = emitNext s1 := by rw [hs1]; rfl
  have hcode : s1.encCode = s.codeAt sym.toNat := by rw [hs1]; rfl
  have hpos : s1.eng.encPos = 0 := by rw [hs1]
  rw [he]
  unfold emitNext
  by_cases hl : (s.codeAt sym.toNat).len.toNat = 0
  · rw [if_neg (by rw [hcode]; omega), hl]
    simp only [engineRun]
    have : (s.codeAt sym.toNat).path = [] := by simp [CodeEntry.path, hl]
    congr 1
    rw [hs1]
    simp [emitted, this, bitWrites, hl]
  · rw [if_pos (by rw [hcode]; omega)]
    obtain ⟨n, hn⟩ : ∃ n, (s.codeAt sym.toNat).len.toNat = n + 1 := ⟨(s.codeAt sym.toNat).len.toNat - 1, by omega⟩
    rw [hn, emit_loop n (State.await s1 _) (by rw [hs1]; exact hb) rfl rfl ?_ ?_]
    · rw [show (s1.await (Outstanding.outReq OutWait.codeBit)).encCode = s.codeAt sym.toNat from hcode]
      rw [← hn]
      congr 1
      rw [hs1]
      unfold emitted
      rw [if_neg hl, if_neg hl]
      rfl
    · show s1.eng.encPos + _ = s1.encCode.len.toNat
      rw [hcode, hpos, hn]; omega
    · show n + 1 ≤ s1.env.outCredit
      rw [hs1, ← hn]; exact hc

/-! ### A tree serialized -/

/-- `s` after the WRITEs `w` of `n` bits in all. -/
def wrote (s : State) (w : List OutTx) (n : Nat) : State :=
  { s with regs := { s.regs with bitCount := s.regs.bitCount + BitVec.ofNat 32 n }
           env := { s.env with outTrace := s.env.outTrace ++ w, outCredit := s.env.outCredit - w.length } }

/-- SERIALIZE of the tree held at the node on top of STACK. -/
theorem ser_loop (tr : CodeTree) : ∀ (i : NodeIndex) (rest : List Frame) (s : State), s.regs.state = .busy →
    s.eng.pending = some (.outReq .nodeBit) → s.eng.stack = .visit i :: rest → s.holdsTree tr i → 3 * tr.leaves - 1 ≤ s.env.outCredit →
    engineRun (3 * tr.leaves - 1) s = nextNode rest (wrote s tr.writes (11 * tr.leaves - 1)) := by
  induction tr with
  | leaf sym =>
    intro i rest s hb hp hst hh hc
    simp only [CodeTree.leaves, Nat.mul_one] at hc ⊢
    show engineEvent (engineEvent s) = _
    obtain ⟨hl, hsym⟩ := hh
    have e1 : engineEvent s = (wrote s [writeTx 1 1#1] 1).await (.outReq .nodeSymbol) := by
      rw [engineEvent_out hb hp (by omega)]
      simp only [outAccepted, afterOut, nodeBitAccepted]
      have : s.spendCredit.topNode = s.nodeAt i := by simp [State.topNode, hst]
      simp only [State.countBits_eng, State.recordOut_eng, State.spendCredit_eng, hst, State.countBits_nodeAt, State.recordOut_nodeAt, State.spendCredit_nodeAt, hl, if_true, outTx, this]
      rfl
    rw [e1, engineEvent_out (s := (wrote s [writeTx 1 1#1] 1).await (.outReq .nodeSymbol)) (w := .nodeSymbol) hb rfl (by show s.env.outCredit - 1 ≠ 0; omega)]
    simp only [outAccepted, afterOut, nodeSymbolAccepted]
    have : ((wrote s [writeTx 1 1#1] 1).await (.outReq .nodeSymbol)).spendCredit.topNode = s.nodeAt i := by
      show (match s.eng.stack with | .visit i :: _ => _ | _ => _) = _
      rw [hst]; rfl
    simp only [outTx, this, hsym]
    show nextNode s.eng.stack.tail _ = _
    rw [hst]
    have key : ∀ (x y : State), x.regs = y.regs → x.tables = y.tables → x.env = y.env → ({x.eng with pending := none, todo := none, stack := []} : Engine) = {y.eng with pending := none, todo := none, stack := []} → nextNode rest x = nextNode rest y := by
      intro x y h1 h2 h3 h4
      obtain ⟨a, b, c, d⟩ := x; obtain ⟨a', b', c', d'⟩ := y
      simp only at h1 h2 h3 h4
      subst h1; subst h2; subst h3
      simp at h4
      obtain ⟨h5, h6, h7, h8, h9⟩ := h4
      cases rest <;> simp [nextNode, *]
    refine key _ _ ?_ rfl ?_ rfl
    · simp [wrote, outBits, BitVec.add_assoc]
    · simp [wrote, CodeTree.writes, Nat.sub_sub]
  | node l r ihl ihr =>
    intro i rest s hb hp hst hh hc
    obtain ⟨hlf, hhl, hhr⟩ := hh
    have hL := leaves_pos l; have hR := leaves_pos r
    simp only [CodeTree.leaves] at hc ⊢
    have hcnt : 3 * (l.leaves + r.leaves) - 1 = (1 + (3 * l.leaves - 1)) + (3 * r.leaves - 1) := by omega
    rw [hcnt, run_add, run_add]
    show engineRun _ (engineRun _ (engineEvent s)) = _
    have e1 : engineEvent s = nextNode (.visit (s.nodeAt i).left :: .visit (s.nodeAt i).right :: rest) (wrote s [writeTx 1 0#1] 1) := by
      rw [engineEvent_out hb hp (by omega)]
      simp only [outAccepted, afterOut, nodeBitAccepted]
      have : s.spendCredit.topNode = s.nodeAt i := by simp [State.topNode, hst]
      simp only [State.countBits_eng, State.recordOut_eng, State.spendCredit_eng, hst, State.countBits_nodeAt, State.recordOut_nodeAt, State.spendCredit_nodeAt, hlf, outTx, this]
      rfl
    rw [e1]
    have hcl : 3 * l.leaves - 1 ≤ s.env.outCredit - 1 := by omega
    rw [ihl (s.nodeAt i).left (.visit (s.nodeAt i).right :: rest) (nextNode (.visit (s.nodeAt i).left :: .visit (s.nodeAt i).right :: rest) (wrote s [writeTx 1 0#1] 1)) hb rfl rfl ((holds_congr (s := s) (t := nextNode (.visit (s.nodeAt i).left :: .visit (s.nodeAt i).right :: rest) (wrote s [writeTx 1 0#1] 1)) (fun _ => rfl) l _).2 hhl) hcl]
    have hcr : 3 * r.leaves - 1 ≤ s.env.outCredit - 1 - l.writes.length := by rw [writes_len]; omega
    rw [ihr (s.nodeAt i).right rest (nextNode (.visit (s.nodeAt i).right :: rest) (wrote (nextNode (.visit (s.nodeAt i).left :: .visit (s.nodeAt i).right :: rest) (wrote s [writeTx 1 0#1] 1)) l.writes (11 * l.leaves - 1))) hb rfl rfl ((holds_congr (s := s) (t := nextNode (.visit (s.nodeAt i).right :: rest) (wrote (nextNode (.visit (s.nodeAt i).left :: .visit (s.nodeAt i).right :: rest) (wrote s [writeTx 1 0#1] 1)) l.writes (11 * l.leaves - 1))) (fun _ => rfl) r _).2 hhr) hcr]
    have key : ∀ (x y : State), x.regs = y.regs → x.tables = y.tables → x.env = y.env → ({x.eng with pending := none, todo := none, stack := []} : Engine) = {y.eng with pending := none, todo := none, stack := []} → nextNode rest x = nextNode rest y := by
      intro x y h1 h2 h3 h4
      obtain ⟨a, b, c, d⟩ := x; obtain ⟨a', b', c', d'⟩ := y
      simp only at h1 h2 h3 h4
      subst h1; subst h2; subst h3
      simp at h4
      obtain ⟨h5, h6, h7, h8, h9⟩ := h4
      cases rest <;> simp [nextNode, *]
    refine key _ _ ?_ rfl ?_ rfl
    · simp only [wrote, nextNode, CodeTree.writes]
      rw [show 11 * (l.leaves + r.leaves) - 1 = 1 + ((11 * l.leaves - 1) + (11 * r.leaves - 1)) by omega]
      simp [BitVec.add_assoc, BitVec.ofNat_add]
    · simp only [wrote, nextNode, CodeTree.writes]
      simp [Nat.sub_sub]; omega

/-! ### A tree parsed -/

theorem holdsPreorder_congr {s t : State} (tr : CodeTree) : ∀ k, (∀ n, k ≤ n → n < k + tr.size → t.nodeAt (BitVec.ofNat 10 n) = s.nodeAt (BitVec.ofNat 10 n)) →
    s.holdsPreorder tr k → t.holdsPreorder tr k := by
  induction tr with
  | leaf sym => intro k h hh; simp only [State.holdsPreorder] at hh ⊢; rw [h k le_rfl (by simp [CodeTree.size]), hh]
  | node l r ihl ihr =>
    intro k h hh
    simp only [State.holdsPreorder, CodeTree.size] at hh h ⊢
    refine ⟨by rw [h k le_rfl (by omega), hh.1], ihl _ (fun n h1 h2 => h n (by omega) (by omega)) hh.2.1, ihr _ (fun n h1 h2 => h n (by omega) (by omega)) hh.2.2⟩

theorem holdsPreorder_holds {s : State} (tr : CodeTree) : ∀ k, s.holdsPreorder tr k → s.holdsTree tr (BitVec.ofNat 10 k) := by
  induction tr with
  | leaf sym => intro k hh; simp only [State.holdsPreorder] at hh; simp [State.holdsTree, hh, Node.leaf]
  | node l r ihl ihr => intro k hh; simp only [State.holdsPreorder] at hh; simp only [State.holdsTree, hh.1]; exact ⟨rfl, ihl _ hh.2.1, ihr _ hh.2.2⟩

theorem holdsPreorder_weight {s : State} (tr : CodeTree) : ∀ k, s.holdsPreorder tr k → ∀ n, k ≤ n → n < k + tr.size → (s.nodeAt (BitVec.ofNat 10 n)).weight = 0#40 := by
  induction tr with
  | leaf sym => intro k hh n h1 h2; simp only [State.holdsPreorder] at hh; simp only [CodeTree.size] at h2; rw [show n = k by omega, hh]; rfl
  | node l r ihl ihr =>
    intro k hh n h1 h2
    simp only [State.holdsPreorder, CodeTree.size] at hh h2
    by_cases e : n = k
    · rw [e, hh.1]; rfl
    · by_cases e2 : n < k + 1 + l.size
      · exact ihl _ hh.2.1 n (by omega) e2
      · exact ihr _ hh.2.2 n (by omega) (by omega)

/-- PARSE of one leaf record: its two READs and the write of its node. -/
theorem leaf_events (s : State) (v : Symbol) (x y : Answer) (as : List Answer) (st : List Frame) (k : Nat) (hk : k < 513)
    (hb : s.regs.state = .busy) (hp : s.eng.pending = some (.inReq .typeBit)) (hn : s.eng.next = BitVec.ofNat 10 k) (hst : s.eng.stack = st)
    (hv : v.toNat ≤ 256) (hs : s.env.inScript = x :: y :: as) (hx : x.field 1 = some 1#1) (hy : y.field 9 = some v) :
    ∃ X, engineRun 3 s = returnNode (BitVec.ofNat 10 k) X ∧ X.eng.stack = st ∧
      X.regs = { s.regs with bitCount := s.regs.bitCount + 10#32, nodeCount := BitVec.ofNat 10 (k+1), leafCount := s.regs.leafCount + 1#10 } ∧
      X.eng.next = BitVec.ofNat 10 (k + 1) ∧
      X.env = { s.env with inScript := as, inTrace := s.env.inTrace ++ [.read 1 (some 1#32), .read 9 (some (v.setWidth 32))] } ∧
      (∃ m, X.tables = { s.tables with node := m }) ∧
      X.nodeAt (BitVec.ofNat 10 k) = Node.leaf v 0#40 ∧
      (∀ j, j ≠ BitVec.ofNat 10 k → X.nodeAt j = s.nodeAt j) := by
  have hkn : (BitVec.ofNat 10 k).toNat = k := by simp; omega
  have hn2 : (s.dropAnswers 1).eng.next.toNat ≠ Config.nodeCap := by
    show s.eng.next.toNat ≠ 513
    rw [hn, hkn]; omega
  obtain ⟨s1, hs1⟩ : ∃ s1, s1 = openLeaf s.eng.next (allocate ((s.dropAnswers 1).readCoded (some 1#1))) := ⟨_, rfl⟩
  have e1 : engineEvent s = s1 := by
    rw [engineEvent_in hb hp hs]
    simp only [answered, hx, typeBitAnswered]
    simp only [if_neg hn2, hs1]
    rfl
  obtain ⟨s2, hs2⟩ : ∃ s2, s2 = ((s1.dropAnswers 1).readCoded (some v)).plan (.writeNode (Node.leaf v 0#40)) := ⟨_, rfl⟩
  have e2 : engineEvent s1 = s2 := by
    rw [engineEvent_in (s := s1) (w := .symbolField) (a := y) (as := as)]
    · simp only [answered, hy, symbolAnswered]
      rw [if_neg (by omega), hs2]
    · rw [hs1]; exact hb
    · rw [hs1]; rfl
    · rw [hs1]; simp [openLeaf, allocate, hs]
  have hslot : s2.lastSlot = BitVec.ofNat 10 k := by rw [hs2, hs1]; simp [State.lastSlot, openLeaf, allocate, hn]
  have e3 : engineEvent s2 = returnNode (BitVec.ofNat 10 k) (s2.setNode (BitVec.ofNat 10 k) (Node.leaf v 0#40)) := by
    rw [engineEvent_internal (e := .writeNode (Node.leaf v 0#40)) (by rw [hs2, hs1]; exact hb) (by rw [hs2]; rfl) (by rw [hs2]; rfl)]
    simp only [internalEvent, writeNodeEvent, hslot]
    exact if_pos rfl
  refine ⟨s2.setNode (BitVec.ofNat 10 k) (Node.leaf v 0#40), ?_, ?_, ?_, ?_, ?_, ?_, ?_, ?_⟩
  · show engineEvent (engineEvent (engineEvent s)) = _
    rw [e1, e2, e3]
  · rw [hs2, hs1]; simp [openLeaf, allocate, hst]
  · rw [hs2, hs1]; simp [openLeaf, allocate, hn, ofNat_succ, BitVec.add_assoc]
  · rw [hs2, hs1]; simp [openLeaf, allocate, hn, ofNat_succ]
  · rw [hs2, hs1]; simp [openLeaf, allocate, hs]
  · obtain ⟨⟨l, hl⟩, -⟩ := NodeFrame.setNode s2 (BitVec.ofNat 10 k) (Node.leaf v 0#40)
    exact ⟨l, by rw [hl, hs2, hs1]; rfl⟩
  · exact State.setNode_nodeAt_self _ (by rw [hkn]; exact hk) _
  · intro j hj
    rw [State.setNode_nodeAt_of_ne _ hj, hs2, hs1]
    exact State.forgetNode_nodeAt_of_ne (allocate ((s.dropAnswers 1).readCoded (some 1#1))) (by rw [hn]; exact hj)

/-- `s` after the slot `k` has been allocated to an internal node and written, its type bit answered. -/
def opened (s : State) (k : NodeIndex) : State :=
  let t := (allocate ((s.dropAnswers 1).readCoded (some 0#1))).setNode k (Node.internal 0#40 0#10 0#10)
  { t with eng := { t.eng with stack := .left k :: s.eng.stack, pending := some (.inReq .typeBit), todo := none } }

/-- PARSE of one internal record: its READ and the write of its node. -/
theorem internal_events (s : State) (x : Answer) (as : List Answer) (k : Nat) (hk : k < 513) (hb : s.regs.state = .busy)
    (hp : s.eng.pending = some (.inReq .typeBit)) (hn : s.eng.next = BitVec.ofNat 10 k) (hs : s.env.inScript = x :: as)
    (hx : x.field 1 = some 0#1) : engineRun 2 s = opened s (BitVec.ofNat 10 k) := by
  have hkn : (BitVec.ofNat 10 k).toNat = k := by simp; omega
  have hn2 : (s.dropAnswers 1).eng.next.toNat ≠ Config.nodeCap := by
    show s.eng.next.toNat ≠ 513
    rw [hn, hkn]; omega
  have e1 : engineEvent s =
      (allocate ((s.dropAnswers 1).readCoded (some 0#1))).plan (.writeNode (Node.internal 0#40 0#10 0#10)) := by
    rw [engineEvent_in hb hp hs]
    simp only [answered, hx, typeBitAnswered]
    simp only [if_neg hn2]
    rfl
  show engineEvent (engineEvent s) = _
  rw [e1, engineEvent_internal (e := .writeNode (Node.internal 0#40 0#10 0#10)) (by exact hb) rfl rfl]
  have hslot : ((allocate ((s.dropAnswers 1).readCoded (some 0#1))).plan (.writeNode (Node.internal 0#40 0#10 0#10))).lastSlot =
      BitVec.ofNat 10 k := by simp [State.lastSlot, allocate, hn]
  simp only [internalEvent, writeNodeEvent, hslot]
  refine (if_neg (by simp [Node.internal])).trans ?_
  simp [opened, allocate, State.setNode]
  split <;> simp

/-- PARSE of the header of a tree that begins at slot `k`, below any pending nodes. -/
theorem parse_loop (tr : CodeTree) : ∀ (k : Nat) (st : List Frame) (s : State) (q as : List Answer), s.regs.state = .busy →
    s.eng.pending = some (.inReq .typeBit) → s.eng.next = BitVec.ofNat 10 k → s.eng.stack = st → (∀ v ∈ tr.symbols, v.toNat ≤ 256) →
    k + tr.size ≤ 513 → s.env.inScript = q ++ as → gives tr.writes q = true →
    ∃ X l, engineRun (q.length + (2 * tr.size - 1)) s = returnNode (BitVec.ofNat 10 k) X ∧ X.eng.stack = st ∧
      X.regs = { s.regs with bitCount := s.regs.bitCount + BitVec.ofNat 32 tr.header.length, nodeCount := BitVec.ofNat 10 (k + tr.size), leafCount := s.regs.leafCount + BitVec.ofNat 10 tr.leaves } ∧
      X.eng.next = BitVec.ofNat 10 (k + tr.size) ∧
      X.env = { s.env with inScript := as, inTrace := s.env.inTrace ++ l } ∧ inStream l = tr.header ∧
      (∃ m, X.tables = { s.tables with node := m }) ∧ X.holdsPreorder tr k ∧
      (∀ n, n < k → X.nodeAt (BitVec.ofNat 10 n) = s.nodeAt (BitVec.ofNat 10 n)) := by
  induction tr with
  | leaf sym =>
    intro k st s q as hb hp hn hst hok hsz hs hq
    simp only [CodeTree.size] at hsz
    obtain ⟨x, q, rfl, hx, hq⟩ := (gives_cons (by omega) _ _ _).1 hq
    obtain ⟨y, q, rfl, hy, hq⟩ := (gives_cons (by omega) _ _ _).1 hq
    obtain rfl := List.isEmpty_iff.1 hq
    obtain ⟨X, h1, h0, h2, h3, h4, h5, h6, h7⟩ := leaf_events s sym x y as st k (by omega) hb hp hn hst (hok sym (by simp [CodeTree.symbols])) hs hx (by rw [hy, BitVec.setWidth_eq])
    refine ⟨X, _, h1, h0, ?_, h3, h4, ?_, h5, h6, ?_⟩
    · rw [h2]; simp [CodeTree.header, CodeTree.leaves, CodeTree.size, length_bitView]
    · simp only [inStream, List.flatMap_cons, List.flatMap_nil, InTx.bits, CodeTree.header, List.append_nil]
      rw [show bitView (BitVec.toNat (1 : ChWidth)) 1#32 = [true] by decide, show BitVec.toNat (9 : ChWidth) = 9 from rfl]
      simp only [List.cons_append, List.nil_append, List.cons.injEq, true_and]
      simp only [bitView]
      apply List.map_congr_left
      intro j hj
      have := List.mem_range.1 hj
      rw [BitVec.getLsbD_setWidth, decide_eq_true (by omega)]; simp
    · intro n hn'; exact h7 _ (ofNat10 (by omega) (by omega) (by omega))
  | node l r ihl ihr =>
    intro k st s q as hb hp hn hst hok hsz hs hq
    simp only [CodeTree.size, CodeTree.symbols, List.mem_append] at hsz hok
    have hpl := size_pos l; have hpr := size_pos r
    have hkn : (BitVec.ofNat 10 k).toNat = k := by simp; omega
    obtain ⟨x, q, rfl, hx, hq⟩ := (gives_cons (by omega) _ _ _).1 hq
    obtain ⟨ql, qr, rfl, hql, hqr⟩ := (gives_append _ _ _).1 hq
    have hx : x.field 1 = some 0#1 := hx
    have hs' : s.env.inScript = x :: (ql ++ (qr ++ as)) := by rw [hs]; simp
    obtain ⟨s1, hs1⟩ : ∃ s1, s1 = opened s (BitVec.ofNat 10 k) := ⟨_, rfl⟩
    have e1 : engineRun 2 s = s1 := by rw [internal_events s x _ k (by omega) hb hp hn hs' hx, hs1]
    have r1 : s1.regs = { s.regs with bitCount := s.regs.bitCount + 1#32, nodeCount := BitVec.ofNat 10 (k + 1) } := by
      rw [hs1]; simp [opened, allocate, hn, ofNat_succ]
    have v1 : s1.env = { s.env with inScript := ql ++ (qr ++ as), inTrace := s.env.inTrace ++ [.read 1 (some 0#32)] } := by
      rw [hs1]; simp [opened, allocate, hs']
    obtain ⟨X1, l1, a1, a0, a2, a3, a4, a5, ⟨m1, a6⟩, a7, a8⟩ := ihl (k + 1) (.left (BitVec.ofNat 10 k) :: st) s1 ql (qr ++ as)
      (by rw [r1]; exact hb) (by rw [hs1]; rfl) (by rw [hs1]; simp [opened, allocate, hn, ofNat_succ])
      (by rw [hs1]; simp [opened, hst]) (fun v hv => hok v (.inl hv)) (by omega) (by rw [v1]) hql
    obtain ⟨s2, hs2⟩ : ∃ s2, s2 = linkEvent (BitVec.ofNat 10 (k + 1)) (X1.plan (.link (BitVec.ofNat 10 (k + 1)))) := ⟨_, rfl⟩
    have e2 : engineEvent (returnNode (BitVec.ofNat 10 (k + 1)) X1) = s2 := by
      rw [returnNode_eq, a0, if_neg nofun, engineEvent_internal (by rw [State.plan_regs, a2, r1]; exact hb) rfl rfl, hs2]; rfl
    have q2 := linkEvent_left (s := X1.plan (.link (BitVec.ofNat 10 (k + 1)))) (BitVec.ofNat 10 (k + 1)) a0
    rw [← hs2] at q2
    have n2f : ∀ j, s2.nodeAt j = (setLeft (BitVec.ofNat 10 k) (BitVec.ofNat 10 (k + 1)) X1).nodeAt j := by
      intro j; rw [q2]; simp only [setLeft, State.setNode, State.plan_nodeAt]; split <;> rfl
    obtain ⟨X2, l2, b1, b0, b2, b3, b4, b5, ⟨m2, b6⟩, b7, b8⟩ := ihr (k + 1 + l.size) (.right (BitVec.ofNat 10 k) :: st) s2 qr as
      (by rw [q2]; simp [setLeft, a2, r1, hb]) (by rw [q2]) (by rw [q2]; exact a3)
      (by rw [q2]) (fun v hv => hok v (.inr hv)) (by omega) (by rw [q2]; simp [setLeft, a4]) hqr
    have n1 : s1.nodeAt (BitVec.ofNat 10 k) = Node.internal 0#40 0#10 0#10 := by
      rw [hs1]; exact State.setNode_nodeAt_self _ (by rw [hkn]; exact (by omega : k < 513)) _
    have n2 : s2.nodeAt (BitVec.ofNat 10 k) = Node.internal 0#40 (BitVec.ofNat 10 (k+1)) 0#10 := by
      rw [n2f]
      unfold setLeft
      rw [State.setNode_nodeAt_self _ (by rw [hkn]; exact (by omega : k < 513)), a8 k (by omega), n1]; rfl
    have n2' : ∀ j, j ≠ BitVec.ofNat 10 k → s2.nodeAt j = X1.nodeAt j := by
      intro j hj; rw [n2f]; exact State.setNode_nodeAt_of_ne _ hj _
    obtain ⟨X3, hX3⟩ : ∃ X3, X3 = setRight (BitVec.ofNat 10 k) (BitVec.ofNat 10 (k + 1 + l.size)) (X2.plan (.link (BitVec.ofNat 10 (k + 1 + l.size)))) := ⟨_, rfl⟩
    have n3 : ∀ j, X3.nodeAt j = (setRight (BitVec.ofNat 10 k) (BitVec.ofNat 10 (k + 1 + l.size)) X2).nodeAt j := by
      intro j; rw [hX3]; simp only [setRight, State.setNode, State.plan_nodeAt]; split <;> rfl
    have n3' : ∀ j, j ≠ BitVec.ofNat 10 k → X3.nodeAt j = X2.nodeAt j := by
      intro j hj; rw [n3]; exact State.setNode_nodeAt_of_ne _ hj _
    have e3 : engineEvent (returnNode (BitVec.ofNat 10 (k + 1 + l.size)) X2) =
        returnNode (BitVec.ofNat 10 k) { X3 with eng := { X3.eng with stack := st } } := by
      rw [returnNode_eq, b0, if_neg nofun, engineEvent_internal (by rw [State.plan_regs, b2, q2]; simp [setLeft, a2, r1, hb]) rfl rfl]
      simp only [internalEvent, linkEvent, State.plan_eng, b0, hX3]
    refine ⟨{ X3 with eng := { X3.eng with stack := st } }, .read 1 (some 0#32) :: (l1 ++ l2), ?_, rfl, ?_, ?_, ?_, ?_, ?_, ?_, ?_⟩
    · rw [show (x :: (ql ++ qr)).length + (2 * (l.node r).size - 1) =
          2 + ((ql.length + (2 * l.size - 1)) + (1 + ((qr.length + (2 * r.size - 1)) + 1))) by
            simp only [List.length_cons, List.length_append, CodeTree.size]; omega, run_add, e1, run_add, a1, run_add]
      show engineRun _ (engineEvent (returnNode _ X1)) = _
      rw [e2, run_add, b1]
      exact e3
    · show X3.regs = _
      rw [hX3]
      unfold setRight
      rw [State.setNode_regs, State.plan_regs, b2, q2]
      simp [setLeft, a2, r1, CodeTree.header, CodeTree.size, CodeTree.leaves, BitVec.add_assoc, BitVec.ofNat_add]
      constructor <;> ac_rfl
    · show X3.eng.next = _
      rw [hX3]
      unfold setRight
      rw [State.setNode_eng, State.plan_eng]
      show X2.eng.next = _
      rw [b3]; simp only [CodeTree.size]; congr 1; omega
    · show X3.env = _
      rw [hX3]
      unfold setRight
      rw [State.setNode_env, State.plan_env, b4, q2]
      simp [setLeft, a4, v1]
    · simp only [inStream, List.flatMap_cons, List.flatMap_append] at a5 b5 ⊢
      rw [a5, b5]
      simp only [InTx.bits, CodeTree.header]
      rw [show bitView (BitVec.toNat (1 : ChWidth)) 0#32 = [false] by decide]; rfl
    · show ∃ m, X3.tables = _
      obtain ⟨⟨m, hm⟩, -⟩ : NodeFrame (X2.plan (.link (BitVec.ofNat 10 (k + 1 + l.size)))) X3 := by
        rw [hX3]; exact NodeFrame.setNode _ _ _
      obtain ⟨⟨m3, hm3⟩, -⟩ := NodeFrame.setNode (allocate ((s.dropAnswers 1).readCoded (some 0#1))) (BitVec.ofNat 10 k) (Node.internal 0#40 0#10 0#10)
      obtain ⟨⟨⟨m4, hm4⟩, -⟩, -⟩ := linkEvent_frame (BitVec.ofNat 10 (k + 1)) (X1.plan (.link (BitVec.ofNat 10 (k + 1))))
      rw [← hs2] at hm4
      have t1 : s1.tables = { s.tables with node := m3 } := by rw [hs1]; exact hm3
      exact ⟨m, by rw [hm, State.plan_tables, b6, hm4, State.plan_tables, a6, t1]⟩
    · refine ⟨?_, ?_, ?_⟩
      · show X3.nodeAt _ = _
        rw [n3]
        unfold setRight
        rw [State.setNode_nodeAt_self _ (by rw [hkn]; exact (by omega : k < 513)), b8 k (by omega), n2]; rfl
      · refine holdsPreorder_congr (s := X1) l _ (fun n h1 h2 => ?_) a7
        have hne := ofNat10 (show n < 1024 by omega) (show k < 1024 by omega) (by omega)
        exact (n3' _ hne).trans (by rw [b8 n (by omega), n2' _ hne])
      · refine holdsPreorder_congr (s := X2) r _ (fun n h1 h2 => ?_) b7
        exact n3' _ (ofNat10 (by omega) (by omega) (by omega))
    · intro n hn'
      have hne := ofNat10 (show n < 1024 by omega) (show k < 1024 by omega) (by omega)
      show X3.nodeAt _ = _
      rw [n3' _ hne, b8 n (by omega), n2' _ hne, a8 n (by omega), hs1]
      exact State.setNode_nodeAt_of_ne _ hne _

/-! ### A code walked -/

/-- `s` after the walk has read the bits `p` with the transactions `tr` and stands at `c`. -/
def readBits (s : State) (p : List Bool) (as : List Answer) (c : NodeIndex) (tr : List InTx) : State :=
  { s with regs := { s.regs with bitCount := s.regs.bitCount + BitVec.ofNat 32 p.length }
           eng := { s.eng with cur := c, todo := none }
           env := { s.env with inScript := as, inTrace := s.env.inTrace ++ tr } }

/-- The walk along the path of a leaf of the tree held at CUR. -/
theorem walk_loop (tr : CodeTree) : ∀ (sym : Symbol) (p : List Bool) (q as : List Answer) (s : State),
    s.regs.state = .busy → s.eng.pending = some (.inReq .walkBit) → s.holdsTree tr s.eng.cur → (sym, p) ∈ tr.codes → p ≠ [] →
    s.env.inScript = q ++ as → gives (bitWrites p) q = true →
    ∃ c l, engineRun p.length s = arrive (readBits s p as c l) ∧ (s.nodeAt c).isLeaf = true ∧ (s.nodeAt c).symbol = sym ∧ inStream l = p := by
  induction tr with
  | leaf sym' => 
    intro sym p q as s hb hp hh hm hne
    simp [CodeTree.codes] at hm; exact absurd hm.2 hne
  | node l r ihl ihr =>
    intro sym p qs as s hb hp hh hm hne hs hqs
    have main : ∀ (b : Bool) (q : List Bool) (u : CodeTree), (sym, q) ∈ u.codes → p = b :: q → s.holdsTree u (s.child (BitVec.ofBool b)) →
       (∀ (sym : Symbol) (p : List Bool) (q as : List Answer) (s : State),
    s.regs.state = .busy → s.eng.pending = some (.inReq .walkBit) → s.holdsTree u s.eng.cur → (sym, p) ∈ u.codes → p ≠ [] →
    s.env.inScript = q ++ as → gives (bitWrites p) q = true →
    ∃ c l, engineRun p.length s = arrive (readBits s p as c l) ∧ (s.nodeAt c).isLeaf = true ∧ (s.nodeAt c).symbol = sym ∧ inStream l = p) →
      ∃ c l, engineRun p.length s = arrive (readBits s p as c l) ∧ (s.nodeAt c).isLeaf = true ∧ (s.nodeAt c).symbol = sym ∧ inStream l = p := by
      intro b q u hq hpq hu ih
      subst hpq
      obtain ⟨x, qs, rfl, hx, hqs⟩ := (gives_cons (by omega) _ _ _).1 hqs
      have hx : x.field 1 = some (BitVec.ofBool b) := by rw [hx, BitVec.setWidth_eq]
      have hs' : s.env.inScript = x :: (qs ++ as) := by rw [hs]; rfl
      obtain ⟨s1, hs1⟩ : ∃ s1, s1 = readBits s [b] (qs ++ as) (s.child (BitVec.ofBool b)) [.read 1 (readRecord (some (BitVec.ofBool b)))] := ⟨_, rfl⟩
      have e1 : engineEvent s = arrive s1 := by
        rw [engineEvent_in hb hp hs', hs1]
        simp only [answered, hx, walkAnswered]
        have : ∀ x y : State, x.regs = y.regs → x.tables = y.tables → x.env = y.env → x.eng = {y.eng with todo := x.eng.todo} → arrive x = arrive y := by
          intro x y h1 h2 h3 h4
          obtain ⟨a, b, c, d⟩ := x; obtain ⟨a', b', c', d'⟩ := y
          simp only at h1 h2 h3 h4
          subst h1; subst h2; subst h3
          rw [h4]; rfl
        refine this _ _ ?_ rfl ?_ rfl
        · simp [readBits]
        · simp [readBits, hs', readRecord]
      have hn : ∀ j, s1.nodeAt j = s.nodeAt j := by intro j; rw [hs1]; rfl
      have hcur : s1.eng.cur = s.child (BitVec.ofBool b) := by rw [hs1]; rfl
      simp only [List.length_cons, engineRun]
      rw [e1]
      cases u with
      | leaf sy =>
        simp [CodeTree.codes] at hq
        obtain ⟨rfl, rfl⟩ := hq
        refine ⟨s.child (BitVec.ofBool b), [.read 1 (readRecord (some (BitVec.ofBool b)))], ?_, hu.1, hu.2, by cases b <;> decide⟩
        obtain rfl := List.isEmpty_iff.1 hqs
        rw [hs1]; rfl
      | node ul ur =>
        have hlf : (s1.nodeAt s1.eng.cur).isLeaf = false := by rw [hn, hcur]; exact hu.1
        have hq0 : q ≠ [] := by
          rintro rfl
          simp [CodeTree.codes] at hq
        have e2 : arrive s1 = s1 := by
          unfold arrive
          rw [if_neg (by simp [hlf])]
          rw [hs1]; simp [State.await, readBits, hp]
        rw [e2]
        have hb1 : s1.regs.state = .busy := by rw [hs1]; exact hb
        have hp1 : s1.eng.pending = some (.inReq .walkBit) := by rw [hs1]; exact hp
        obtain ⟨c, l, h1, h2, h3, h4⟩ := ih sym q qs as s1 hb1 hp1 ((holds_congr hn _ _).2 (by rw [hcur]; exact hu)) hq hq0 (by rw [hs1]; rfl) hqs
        refine ⟨c, .read 1 (readRecord (some (BitVec.ofBool b))) :: l, ?_, by rw [← hn]; exact h2, by rw [← hn]; exact h3, by simp only [inStream, List.flatMap_cons] at h4 ⊢; rw [h4]; cases b <;> rfl⟩
        rw [h1, hs1]
        congr 1
        simp [readBits, BitVec.ofNat_add]; ac_rfl
    obtain ⟨hlf, hhl, hhr⟩ := hh
    simp only [CodeTree.codes, List.mem_append, List.mem_map, Prod.mk.injEq, Prod.exists] at hm
    rcases hm with ⟨a, q, hq, rfl, rfl⟩ | ⟨a, q, hq, rfl, rfl⟩
    · exact main false q l hq rfl hhl ihl
    · exact main true q r hq rfl hhr ihr

end Sys2Proof.Machine
end

