-- ==== Sys2Proof/Machine/Ports.lean ====
section
/-!
DEFINITION. What the block's output ports carry in a state (20_memory.md R80 to R87): the outstanding request and its payload,
and the bytes an external channel would store. `irq` is `State.irq`.
-/

namespace Sys2Proof.Machine

/-- The width of the READ a wait is for, 0 for RESET: `in_req_width` (R80 to R82). -/
def InWait.width : InWait → ChWidth
  | .countByte => 8
  | .rewind => 0
  | .encodeByte => 8
  | .magicIn => 32
  | .typeBit => 1
  | .symbolField => 9
  | .walkBit => 1

/-- The request is a RESET: `in_req_op` (R80). -/
def InWait.isReset : InWait → Bool
  | .rewind => true
  | _ => false

/-- A width that a READ or a WRITE may carry: 1 to 32 (00_scope.md R11). -/
def legalWidth (w : ChWidth) : Bool := 1 ≤ w.toNat && w.toNat ≤ Config.chMaxWidth

/-- The width of a WRITE, 0 for CLOSE: `out_width` (R80, R85, R86). -/
def OutTx.width : OutTx → ChWidth
  | .write w _ => w
  | .close => 0

/-- The transaction is a CLOSE: `out_op` (R80). -/
def OutTx.isClose : OutTx → Bool
  | .write _ _ => false
  | .close => true

/-- The value of a WRITE, 0 for CLOSE: `out_data` (R80, R85, R86). -/
def OutTx.data : OutTx → Word
  | .write _ v => v
  | .close => 0

/-- `in_rsp_ready`: 1 exactly while an IN request is outstanding (R83). -/
def State.inRspReady (s : State) : Bool :=
  match s.eng.pending with
  | some (.inReq _) => true
  | _ => false

/-- `out_valid`: an OUT transaction is presented (R85 to R87). -/
def State.outValid (s : State) : Bool :=
  match s.eng.pending with
  | some (.outReq _) => true
  | _ => false

/-- The transaction presented: `OutTx.isClose`, `OutTx.width` and `OutTx.data` are `out_op`, `out_width` and `out_data`
(R80). -/
def State.outPresented (s : State) : Option OutTx :=
  match s.eng.pending with
  | some (.outReq w) => some (outTx w s)
  | _ => none

/-- The bytes the external channel makes of what OUT has accepted, whatever its packing is (R90; log 7). DESIGN CHOICE (log 7): the bits
of all that OUT has accepted, over all commands, are packed as one string, and CLOSE leaves no mark in it. -/
def State.storedBytes (s : State) : List Byte := Config.bitPacking (outStream s.env.outTrace)

end Sys2Proof.Machine
end

