-- ==== Sys2Proof/Tests/Slice0.lean ====
section
/-!
SUPPORT. Tests. Every expected value comes from spec/95_test_vectors.md or from the rule named beside it. The theorems
`test_witness_…` show for each obligation with hypotheses, clause by clause, that something meets them.
-/

namespace Sys2Proof.Tests

open Sys2Proof Sys2Proof.Machine

/-! ### Well-formedness -/

/-- R114: 257 fits the field and is no Symbol. -/
theorem test_ill_formed_leaf_257 : (Instr.treeLeaf 257#9).wellFormed = false := by decide

/-- R114: the last value of the field is no Symbol. -/
theorem test_ill_formed_leaf_511 : (Instr.treeLeaf 511#9).wellFormed = false := by decide

/-- R20: 256 is PEOF. -/
theorem test_well_formed_leaf_256 : (Instr.treeLeaf 256#9).wellFormed = true := by decide

/-- R103: the rows without an operand. -/
theorem test_well_formed_rest :
    ([Instr.nop, .compress, .decompress, .clear, .magic, .treeInternal].all Instr.wellFormed) = true := by decide

/-! ### Decoding (V-C1, V-C2; R101, R111, R112) -/

theorem test_decode_nop : decodeCommand 0b00000000000000000000000000000000#32 = .ok .nop := by rfl

theorem test_decode_compress : decodeCommand 0b00000000000000000000000000000001#32 = .ok .compress := by rfl

theorem test_decode_decompress : decodeCommand 0b00000000000000000000000000000010#32 = .ok .decompress := by rfl

theorem test_decode_clear : decodeCommand 0b00000000000000000000000000000011#32 = .ok .clear := by rfl

/-- V-C2: the magic, bit by bit, first bit first. -/
theorem test_decode_magic : decode .magic
    [true, true, true, true, true, false, true, false, true, true, false, false, true, true, true, false,
     true, false, false, false, false, false, true, false, false, false, false, false, false, false, false, true]
    = .ok (.magic, []) := by rfl

/-- V-C2: the internal node `0`; what follows is left. -/
theorem test_decode_tree_internal : decode .header [false, true] = .ok (.treeInternal, [true]) := by rfl

/-- V-C2: leaf 7 is `1 000000111`. -/
theorem test_decode_tree_leaf_7 :
    decode .header [true, false, false, false, false, false, false, true, true, true] = .ok (.treeLeaf 7#9, []) := by rfl

/-- V-C2: the header symbol 300 is `1 100101100`. -/
theorem test_decode_tree_leaf_300 :
    decode .header [true, true, false, false, true, false, true, true, false, false] = .ok (.treeLeaf 300#9, []) := by rfl

/-- V-C1: a reserved OPCODE. -/
theorem test_reserved_opcode : decodeCommand 0x0000000F#32 = .error .reservedOpcode := by rfl

/-- V-C1: RSVD bit 31 although OPCODE is 1. -/
theorem test_reserved_bit_31 : decodeCommand 0x80000001#32 = .error .reservedBits := by rfl

/-- R118: the legacy magic is not the magic. -/
theorem test_legacy_magic : decodeMagic 0xFACE8200#32 = .error .notMagic := by rfl

/-- A header token cut short. -/
theorem test_short_leaf : decode .header [true, false] = .error .tooShort := by rfl

/-- The rows of the opcode table, as it numbers their bits. -/
theorem test_table_words :
    decodeTableWord 32 0 = some .nop ∧ decodeTableWord 32 1 = some .compress ∧ decodeTableWord 32 2 = some .decompress ∧
    decodeTableWord 32 3 = some .clear ∧ decodeTableWord 32 0xFACE8201 = some .magic ∧
    decodeTableWord 8 0 = some .treeInternal ∧ decodeTableWord 16 0b1001000001 = some (.treeLeaf 65#9) := by decide

/-- V-C1: 4 and 0x10 are no row. -/
theorem test_table_words_refused : decodeTableWord 32 4 = none ∧ decodeTableWord 32 0x10 = none := by decide

/-! ### States for the tests -/

/-- A running command at a point of its pseudocode, after reset and with nothing else done. -/
def running (m : Mode) (p : Phase) (o : Option Outstanding) (e : Option Internal) : State :=
  { State.reset with
    regs := { Regs.reset with state := .busy, mode := m, phase := p }
    eng := { Engine.reset with pending := o, todo := e } }

/-- The environments of a state: the IN answers and how many OUT transactions are accepted. -/
def withIO (s : State) (as : List Answer) (k : Nat) : State :=
  { s with env := { s.env with inScript := as, outCredit := k } }

/-- The host events to come. -/
def withEvents (s : State) (es : List Event) : State := { s with env := { s.env with agenda := es } }

/-- A DECOMPRESS at a type bit, with the next free slot and the pending nodes. -/
def parsing (n : NodeIndex) (st : List Frame) : State :=
  let s := running .decompress .headerIn (some (.inReq .typeBit)) none
  { s with regs := { s.regs with nodeCount := n }, eng := { s.eng with next := n, stack := st } }

/-- A DECOMPRESS at the READ of the magic. -/
def atMagic : State := running .decompress .magicIn (some (.inReq .magicIn)) none

/-- The tree of V-B3: leaf 65 in slot 0, PEOF in slot 1, their parent in slot 2, the root. -/
def withTree (s : State) : State :=
  { s with
    regs := { s.regs with root := 2#10, nodeCount := 3#10, leafCount := 2#10, treeDepth := 1#9 }
    tables := { s.tables with
      node := [(0, Node.leaf 65#9 1#40), (1, Node.leaf 256#9 1#40), (2, Node.internal 2#40 0#10 1#10)] } }

/-- The codes of V-B3: code(65) = `0`, code(256) = `1`. -/
def withCodes (s : State) : State :=
  { s with tables := { s.tables with codeFill := .cleared, code := [(65, pathEntry [false]), (256, pathEntry [true])] } }

/-- The tree of V-B3 as the source has it. -/
def treeOf65 : CodeTree := .node (.leaf 65#9) (.leaf 256#9)

/-- DONE after a COMPRESS. -/
def doneState : State :=
  { State.reset with regs := { Regs.reset with state := .done, mode := .compress, phase := .close } }

/-- The environments of V-E3. -/
def e3 : State := withIO State.reset [valueAnswer 65, eofAnswer, valueAnswer 0, valueAnswer 65, eofAnswer] 1286

/-- A COMPRESS accepted in a state, as the CMD write event leaves it. -/
def accepted (s : State) : State := (s.begin .compress .count).plan (.enterPhase .count)

/-- A DECOMPRESS accepted in a state, as the CMD write event leaves it. -/
def acceptedD (s : State) : State := (s.begin .decompress .magicIn).await (.inReq .magicIn)

/-- The next state of an outcome, for reading one field of it. -/
def after (o : Host.Outcome State Fault Refusal) : State :=
  match o with
  | .next s => s
  | _ => State.reset

/-- STATUS as the host reads it. -/
def status (s : State) : Word := s.readWord (regionOf 0x0004#16)

/-! ### One step of each instruction -/

/-- V-K3: NOP in DONE leaves STATUS 0x00000092. -/
theorem test_nop_in_done : status (after (exec .nop doneState)) = 0x00000092#32 := by decide

/-- V-K3: NOP while BUSY sets no CMD_ERR. -/
theorem test_nop_in_busy : (after (exec .nop atMagic)).regs.cmdErr = false := by decide

/-- V-C1: the word 1 at the fetch is a COMPRESS accepted in IDLE: BUSY, phase COUNT. -/
theorem test_compress_accepted :
    (after (step (State.reset.withFetchWord 32 1))).regs.state = .busy ∧
    (after (step (State.reset.withFetchWord 32 1))).regs.phase = .count := by decide

/-- V-K6: a COMPRESS while BUSY is rejected and not queued. -/
theorem test_compress_rejected :
    (after (exec .compress atMagic)).regs.cmdErr = true ∧ (after (exec .compress atMagic)).regs.mode = .decompress := by decide

/-- R226: DECOMPRESS from DONE needs no CLEAR; MODE is 1. -/
theorem test_decompress_accepted :
    (after (exec .decompress doneState)).regs.mode = .decompress ∧
    (after (exec .decompress doneState)).eng.pending = some (.inReq .magicIn) := by decide

/-- V-K6: a DECOMPRESS while BUSY is rejected. -/
theorem test_decompress_rejected :
    (after (exec .decompress (running .compress .count (some (.inReq .countByte)) none))).regs.mode = .compress := by decide

/-- V-K8: CLEAR after a DECOMPRESS keeps MODE: STATUS 0x00000004. -/
theorem test_clear_keeps_mode :
    status (after (exec .clear { doneState with regs := { doneState.regs with mode := .decompress } })) = 0x00000004#32 := by
  decide

/-- V-K7: CLEAR while BUSY is rejected. -/
theorem test_clear_rejected :
    (after (exec .clear atMagic)).regs.state = .busy ∧ (after (exec .clear atMagic)).regs.cmdErr = true := by decide

/-- V-C1: an illegal word in IDLE leaves STATUS 0x00000008. -/
theorem test_illegal_word : status (after (hostWrite 0x0000#16 0x80000001#32 State.reset)) = 0x00000008#32 := by decide

/-- V-P1: after the magic BIT_COUNT is 32 and the header is read, in a phase that an event of its own enters (R17). -/
theorem test_magic_counts :
    let t := after (exec .magic atMagic)
    t.regs.bitCount = 32#32 ∧ t.regs.phase = .magicIn ∧ (engineEvent t).regs.phase = .headerIn ∧
    (engineEvent t).eng.pending = some (.inReq .typeBit) := by decide

/-- V-D5: the legacy magic ends in STATUS 0x000001A7. -/
theorem test_bad_magic : status (engineRun 2 (withIO atMagic [valueAnswer 0xFACE8200] 0)) = 0x000001A7#32 := by decide

/-- V-P2: the root as an internal node, NODE_COUNT 1. -/
theorem test_tree_internal_counts : (after (exec .treeInternal (parsing 0#10 []))).regs.nodeCount = 1#10 := by decide

/-- V-P6: a type bit read while NEXT is 513 ends in STATUS 0x000005B7. -/
theorem test_tree_too_large : status (after (exec .treeInternal (parsing 513#10 [.right 0#10]))) = 0x000005B7#32 := by decide

/-- V-P4: the symbol 300 at the root: STATUS 0x000004B7, LEAF_COUNT 1, NODE_COUNT 1. -/
theorem test_bad_symbol :
    status (after (exec (.treeLeaf 300#9) (parsing 0#10 []))) = 0x000004B7#32 ∧
    (after (exec (.treeLeaf 300#9) (parsing 0#10 []))).regs.leafCount = 1#10 := by decide

/-- V-P1 and V-D10: after `0` the leaf 65 is in slot 1, and the event after it makes it the left child of slot 0 (R94); at the fetch it
is the root. -/
theorem test_leaf_placed :
    let t := after (exec (.treeLeaf 65#9) (after (exec .treeInternal (parsing 0#10 []))))
    t.nodeAt 1#10 = Node.leaf 65#9 0#40 ∧ (t.nodeAt 0#10).left = 0#10 ∧ ((engineEvent t).nodeAt 0#10).left = 1#10 ∧
    (after (step (State.reset.withFetchWord 16 0b1001000001))).nodeAt 0#10 = Node.leaf 65#9 0#40 := by decide

/-- R83: a token with no READ outstanding for it. -/
theorem test_token_without_read : exec .magic State.reset = .fault .noReadOutstanding := by rfl

/-! ### The steps between -/

/-- V-B3: the keys tie at weight 1, and the lower index is taken first. -/
theorem test_tie_by_index : lightest (withTree State.reset) 0#10 [1#10] = 0#10 := by decide

/-- V-B3: the merge joins slots 0 and 1 at weight 2. -/
theorem test_merge :
    let s := withTree State.reset
    ((merge { s with regs := { s.regs with nodeCount := 2#10 }, eng := { s.eng with active := [0#10, 1#10] } }).nodeAt 2#10) =
      Node.internal 2#40 0#10 1#10 := by decide

/-- V-F5: a counter at COUNT_MAX saturates. -/
theorem test_saturation : satInc 0xFFFFFFFF#32 = 0xFFFFFFFF#32 ∧ satInc 0xFFFFFFFE#32 = 0xFFFFFFFF#32 := by decide

/-- V-G4: code 0, `111111110`, in CODE_BITS. -/
theorem test_code_bits_word :
    codeBitsWord (pathEntry [true, true, true, true, true, true, true, true, false]) 0 = 0xFF000000#32 := by decide

/-- V-G1: CODE_LEN[256] of the source scenario. -/
theorem test_code_len_word : codeLenWord (pathEntry [true, true]) = 0x80000002#32 := by decide

/-- V-B1: the four words of NODE[3], and the 40-bit weight of V-B8. -/
theorem test_node_words :
    nodeWord (Node.internal 2#40 1#10 2#10) 0 = 0x00020001#32 ∧ nodeWord (Node.internal 2#40 1#10 2#10) 2 = 2#32 ∧
    nodeWord (Node.leaf 66#9 1#40) 0 = 0x80000000#32 ∧ nodeWord (Node.leaf 66#9 1#40) 1 = 0x00000042#32 ∧
    nodeWord (Node.internal 4294967296#40 1#10 0#10) 2 = 0#32 ∧ nodeWord (Node.internal 4294967296#40 1#10 0#10) 3 = 1#32 := by
  decide

/-- V-K2: addresses and what they reach. -/
theorem test_addresses :
    regionOf 0x0006#16 = .status ∧ regionOf 0x000F#16 = .magic ∧ regionOf 0x0030#16 = .unmapped ∧
    regionOf 0x0C04#16 = .unmapped ∧ regionOf 0x3020#16 = .unmapped ∧ regionOf 0x6010#16 = .unmapped ∧
    regionOf 0x0504#16 = .freq 65 ∧ regionOf 0x0C00#16 = .codeLen 256 ∧ regionOf 0x3000#16 = .codeBits 256 0 ∧
    regionOf 0x4048#16 = .node 4 2 := by decide

/-- V-K10: irq in DONE with EN set, and not with EN clear. -/
theorem test_irq :
    ({ doneState with regs := { doneState.regs with irqEn := true } } : State).irq = true ∧ doneState.irq = false := by decide

/-- V-E3: PEOF's code `1` ends the stream, and CLOSE ends the command in STATUS 0x00000092. -/
theorem test_close_ends_in_done :
    status (engineRun 2 (withIO (running .compress .close (some (.outReq .close)) none) [] 1)) = 0x00000092#32 := by decide

/-- V-D10: a lone byte leaf is DEGENERATE_TREE: STATUS 0x000006C7. -/
theorem test_degenerate_tree :
    let s := running .decompress .headerIn none (some .finishParse)
    status (engineRun 3 { s with tables := { s.tables with node := [(0, Node.leaf 65#9 0#40)] } }) = 0x000006C7#32 := by decide

/-- R94, V-F1: the READ of a byte and the update of its counter are two events. -/
theorem test_count_is_its_own_event :
    let s := withIO (running .compress .count (some (.inReq .countByte)) none).clearFreq [valueAnswer 65] 0
    (engineRun 1 s).freqAt 65 = 0#32 ∧ (engineRun 2 s).freqAt 65 = 1#32 := by decide

/-- R271, R283: a reset while CLOSE is outstanding leaves no CLOSE; one after its acceptance comes after STATE <- DONE. -/
theorem test_reset_around_close :
    let s := withEvents (withIO (running .compress .close (some (.outReq .close)) none) [] 1) [.reset]
    let u := withEvents s [.engine, .reset]
    (after (step s)).regs.state = .idle ∧ (after (step s)).env.outTrace = [] ∧
    (after (step (after (step u)))).regs.state = .done ∧ (after (step (after (step (after (step u)))))).regs.state = .idle := by
  decide

/-- R186, V-E2: the empty PEOF code does not skip TERMINATE, and CLOSE follows it. -/
theorem test_empty_terminator :
    let s := withIO (running .compress .encode (some (.inReq .encodeByte)) none) [eofAnswer] 1
    let u := { s with tables := { s.tables with codeFill := .cleared, code := [(256, pathEntry [])] } }
    (engineRun 2 u).regs.phase = .terminate ∧ (engineRun 3 u).regs.phase = .close ∧ (engineRun 3 u).env.outTrace = [] := by
  decide

/-- R206, V-D2: a PEOF root does not skip DECODE, and CLOSE follows it. -/
theorem test_empty_stream_decode :
    let s := running .decompress .headerIn none (some .finishParse)
    let u := { s with tables := { s.tables with node := [(0, Node.leaf 256#9 0#40)] } }
    (engineRun 2 u).regs.phase = .decode ∧ (engineRun 3 u).regs.phase = .close := by decide

/-- R80: `in_req_width` and `out_width` are 6 bits wide, and 0 for RESET and CLOSE. -/
theorem test_widths :
    InWait.width .magicIn = 0b100000#6 ∧ InWait.width .rewind = 0b000000#6 ∧ (writeTx 9 256#9).width = 0b001001#6 ∧
    OutTx.close.width = 0b000000#6 ∧ legalWidth 32#6 = true ∧ legalWidth 33#6 = false ∧ legalWidth 0#6 = false := by decide

/-! ### Witnesses: encodings and the step -/

/-- Obligations.AcceptedBitsAreAnEncoding: accepted bits on each port, with bits left over. -/
theorem test_witness_accepted_bits :
    decode .command (bitView 32 3#32 ++ [true]) = .ok (.clear, [true]) ∧
    decode .magic (bitView 32 0xFACE8201#32) = .ok (.magic, []) ∧
    decode .header [false] = .ok (.treeInternal, []) ∧
    decode .header [true, true, true, true, true, true, true, true, true, true, false] = .ok (.treeLeaf 511#9, [false]) :=
  ⟨rfl, rfl, rfl, rfl⟩

/-- Obligations.OnlyFourCommandWordsAreLegal: an illegal word written to the last byte address of CMD. -/
theorem test_witness_illegal_word :
    4 ≤ (4#32).toNat ∧ (withEvents atMagic [.hostWrite 3#16 4#32]).env.agenda = .hostWrite 3#16 4#32 :: [] ∧
    (3#16).toNat < 4 := by decide

/-- Obligations.CommandWriteRunsTheDecodedInstruction. -/
theorem test_witness_command_write :
    (withEvents doneState [.hostWrite 3#16 2#32, .reset]).env.agenda = .hostWrite 3#16 2#32 :: [.reset] ∧
    (3#16).toNat < 4 ∧ Instr.decompress.port = .command ∧ bitView 32 2#32 = encode .decompress := by decide

/-- Obligations.ReadyTokenIsRun and Obligations.TokenIsItsEngineEvents, the magic. -/
theorem test_witness_ready_magic :
    let s := withIO atMagic [valueAnswer 0xFACE8201] 0
    s.env.agenda = [] ∧ s.env.inScript = valueAnswer 0xFACE8201 :: [] ∧ (valueAnswer 0xFACE8201).eof = false ∧
    s.awaits .magicIn = true ∧ (valueAnswer 0xFACE8201).data = 0xFACE8201#32 := by decide

/-- Obligations.ReadyTokenIsRun and Obligations.TokenIsItsEngineEvents, an internal node at the last free slot. -/
theorem test_witness_ready_internal :
    let s := withIO (parsing 512#10 []) [valueAnswer 0] 0
    s.env.agenda = [] ∧ s.env.inScript = valueAnswer 0 :: [] ∧ (valueAnswer 0).eof = false ∧
    s.awaits .typeBit = true ∧ s.eng.next.toNat ≠ 513 ∧ (valueAnswer 0).data.getLsbD 0 = false := by decide

/-- Obligations.ReadyTokenIsRun and Obligations.TokenIsItsEngineEvents, a leaf whose symbol is no Symbol. -/
theorem test_witness_ready_leaf :
    let s := withIO (parsing 512#10 []) [valueAnswer 1, valueAnswer 257] 0
    s.env.agenda = [] ∧ s.env.inScript = valueAnswer 1 :: [valueAnswer 257] ∧ (valueAnswer 1).eof = false ∧
    s.awaits .typeBit = true ∧ s.eng.next.toNat ≠ 513 ∧ (valueAnswer 1).data.getLsbD 0 = true ∧
    [valueAnswer 257] = valueAnswer 257 :: [] ∧ (valueAnswer 257).eof = false ∧
    256 < ((valueAnswer 257).data.setWidth 9).toNat := by decide

/-- A command whose CLOSE has been accepted, with STATE <- DONE next. -/
def closed : State := running .compress .close none (some .finish)

/-- Obligations.EngineTurnIsOneEngineEvent, each clause; in the last NODE is full, so the type bit alone decides. -/
theorem test_witness_engine_turn :
    (withEvents atMagic [.engine]).env.agenda = .engine :: [] ∧
    (withEvents closed [.reset]).env.agenda = .reset :: [] ∧ (withEvents closed [.reset]).closing = true ∧
    (withIO (parsing 513#10 []) [valueAnswer 1, valueAnswer 7] 0).env.agenda = [] ∧
    fetchToken (withIO (parsing 513#10 []) [valueAnswer 1, valueAnswer 7] 0) = none := by decide

/-! ### Witnesses: commands and tokens -/

/-- Obligations.CompressIsAcceptedWhenNotBusy, DecompressIsAcceptedWhenNotBusy and ClearIsAcceptedWhenNotBusy: IDLE, DONE and
ERROR. -/
theorem test_witness_not_busy :
    State.reset.regs.state ≠ .busy ∧ doneState.regs.state ≠ .busy ∧ (State.reset.errorEntry .badMagic).regs.state ≠ .busy := by
  decide

/-- Obligations.BusyRejectsCommands. -/
theorem test_witness_busy_rejects :
    atMagic.regs.state = .busy ∧ (Instr.compress = .compress ∨ Instr.compress = .decompress ∨ Instr.compress = .clear) ∧
    (Instr.decompress = .compress ∨ Instr.decompress = .decompress ∨ Instr.decompress = .clear) ∧
    (Instr.clear = .compress ∨ Instr.clear = .decompress ∨ Instr.clear = .clear) := by decide

/-- Obligations.CmdErrAndIrqEnChangeOnlyAtTheirEvents, the first clause: a CLEAR and a reset. -/
theorem test_witness_cmd_err_clears :
    let s := withEvents State.reset.setCmdErr [.hostWrite 0#16 3#32]
    let u := withEvents State.reset.setCmdErr [.reset]
    step s = .next (after (step s)) ∧ s.regs.cmdErr = true ∧ (after (step s)).regs.cmdErr = false ∧
    step u = .next (after (step u)) ∧ u.regs.cmdErr = true ∧ (after (step u)).regs.cmdErr = false :=
  ⟨rfl, rfl, rfl, rfl, rfl, rfl⟩

/-- Obligations.CmdErrAndIrqEnChangeOnlyAtTheirEvents, the second clause: an illegal word, and a legal one while BUSY. -/
theorem test_witness_cmd_err_sets :
    let s := withEvents State.reset [.hostWrite 3#16 4#32]
    let u := withEvents atMagic [.hostWrite 0#16 3#32]
    step s = .next (after (step s)) ∧ s.regs.cmdErr = false ∧ (after (step s)).regs.cmdErr = true ∧
    step u = .next (after (step u)) ∧ u.regs.cmdErr = false ∧ (after (step u)).regs.cmdErr = true :=
  ⟨rfl, rfl, rfl, rfl, rfl, rfl⟩

/-- Obligations.CmdErrAndIrqEnChangeOnlyAtTheirEvents, the third clause: a write to the last byte address of IRQ_EN, and a reset. -/
theorem test_witness_irq_en :
    let s := withEvents atMagic [.hostWrite 11#16 1#32]
    let u := withEvents (after (step s)) [.reset]
    step s = .next (after (step s)) ∧ (after (step s)).regs.irqEn ≠ s.regs.irqEn ∧
    step u = .next (after (step u)) ∧ (after (step u)).regs.irqEn ≠ u.regs.irqEn :=
  ⟨rfl, by decide, rfl, by decide⟩

/-- Obligations.MagicStartsTheParse. -/
theorem test_witness_magic : atMagic.awaits .magicIn = true := by decide

/-- Obligations.TreeInternalTakesTheNextSlot: the first and the last slot. -/
theorem test_witness_internal :
    (parsing 0#10 []).awaits .typeBit = true ∧ (parsing 0#10 []).eng.next.toNat < 513 ∧
    (parsing 512#10 [.right 4#10]).awaits .typeBit = true ∧ (parsing 512#10 [.right 4#10]).eng.next.toNat < 513 := by decide

/-- Obligations.TreeLeafTakesTheNextSlot: PEOF in the last slot, and byte 0 as the root. -/
theorem test_witness_leaf :
    (parsing 512#10 [.right 4#10, .left 1#10]).awaits .typeBit = true ∧
    (parsing 512#10 [.right 4#10, .left 1#10]).eng.next.toNat < 513 ∧ (256#9 : Symbol).toNat ≤ 256 ∧
    (parsing 0#10 []).awaits .typeBit = true ∧ (parsing 0#10 []).eng.next.toNat < 513 ∧ (0#9 : Symbol).toNat ≤ 256 := by decide

/-- A DECOMPRESS at the link of node `i`. -/
def linking (i n : NodeIndex) (st : List Frame) : State :=
  let s := parsing n st
  { s with eng := { s.eng with pending := none, todo := some (.link i) } }

/-- Obligations.TreeLeafTakesTheNextSlot, its second part: a left child, a right child that completes the parse, and the right child in
the last slot of a node that is returned in turn. -/
theorem test_witness_link :
    ∀ c ∈ [(1#10, 2#10, [Frame.left 0#10]), (2#10, 3#10, [.right 0#10]), (512#10, 513#10, [.right 4#10, .left 1#10])],
      let s := linking c.1 c.2.1 c.2.2
      s.regs.state = .busy ∧ s.eng.pending = none ∧ s.eng.todo = some (.link c.1) ∧ s.parseOk = true ∧ s.eng.stack = c.2.2 := by
  decide

/-- Obligations.FullTableIsTreeTooLarge: with either type bit answered. -/
theorem test_witness_full_table :
    ∀ v ∈ [0, 1],
      let s := withIO (parsing 513#10 [.right 0#10]) [valueAnswer v] 0
      s.awaits .typeBit = true ∧ s.eng.next.toNat = 513 ∧ s.env.inScript = valueAnswer v :: [] ∧
      (valueAnswer v).eof = false := by decide

/-- Obligations.SymbolAbove256IsBadSymbol: the smallest and the largest such symbol. -/
theorem test_witness_bad_symbol :
    (parsing 512#10 []).awaits .typeBit = true ∧ (parsing 512#10 []).eng.next.toNat < 513 ∧
    256 < (257#9 : Symbol).toNat ∧ 256 < (511#9 : Symbol).toNat := by decide

/-- Obligations.TokenWithoutItsReadFaults: each clause. -/
theorem test_witness_no_read :
    (parsing 0#10 []).awaits .magicIn = false ∧ atMagic.awaits .typeBit = false ∧ State.reset.awaits .magicIn = false ∧
    State.reset.awaits .typeBit = false := by decide

/-- Obligations.TokensLeaveTheRest. -/
theorem test_witness_tokens :
    let s := parsing 1#10 [.left 0#10]
    Instr.magic.port ≠ .command ∧ exec .magic atMagic = .next (after (exec .magic atMagic)) ∧
    Instr.treeInternal.port ≠ .command ∧ exec .treeInternal s = .next (after (exec .treeInternal s)) ∧
    (Instr.treeLeaf 65#9).port ≠ .command ∧ exec (.treeLeaf 65#9) s = .next (after (exec (.treeLeaf 65#9) s)) :=
  ⟨by decide, rfl, by decide, rfl, by decide, rfl⟩

/-! ### Witnesses: errors, reset, host accesses -/

/-- Obligations.ErrorEntryKeepsPhaseAndCounters. -/
theorem test_witness_error_entry :
    let s := running .compress .encode none (some (.raise .noCode))
    s.regs.state = .busy ∧ s.eng.pending = none ∧ s.eng.todo = some (.raise .noCode) := by decide

/-- Obligations.NoCloseOnError, the first clause. -/
theorem test_witness_no_close :
    let s := running .compress .encode none (some (.raise .noCode))
    step s = .next (after (step s)) ∧ (after (step s)).regs.state = .error := ⟨rfl, rfl⟩

/-- Obligations.NoCloseOnError, the second clause. -/
theorem test_witness_close :
    let s := withIO (running .compress .close (some (.outReq .close)) none) [] 1
    step s = .next (after (step s)) ∧ (after (step s)).env.outTrace = s.env.outTrace ++ [.close] := ⟨rfl, rfl⟩

/-- Obligations.NoCloseOnError, the third clause: with a host read, a reset and nothing to come. -/
theorem test_witness_closing :
    ∀ es ∈ [[Event.hostRead 4#16], [.reset], []],
      (withEvents closed es).closing = true ∧ step (withEvents closed es) = .next (after (step (withEvents closed es))) := by
  intro es h
  exact ⟨rfl, by rcases h with _ | ⟨_, _ | ⟨_, _ | ⟨_, h⟩⟩⟩ <;> first | rfl | cases h⟩

/-- Obligations.EndOfInputIsTheErrorOfItsRead: each of the four READs. -/
theorem test_witness_end_of_input :
    ∀ c ∈ [(InWait.magicIn, HuffError.badMagic, Phase.magicIn), (.typeBit, .truncatedTree, .headerIn),
           (.symbolField, .truncatedTree, .headerIn), (.walkBit, .missingTerminator, .decode)],
      let s := withIO (running .decompress c.2.2 (some (.inReq c.1)) none) [eofAnswer] 0
      s.regs.state = .busy ∧ s.eng.pending = some (.inReq c.1) ∧ s.env.inScript = eofAnswer :: [] ∧ eofAnswer.eof = true ∧
      ((c.1 = .magicIn ∧ c.2.1 = .badMagic) ∨ (c.1 = .typeBit ∧ c.2.1 = .truncatedTree) ∨
        (c.1 = .symbolField ∧ c.2.1 = .truncatedTree) ∨ (c.1 = .walkBit ∧ c.2.1 = .missingTerminator)) := by decide

/-- Obligations.OtherFirstWordIsBadMagic: the legacy magic. -/
theorem test_witness_other_word :
    let s := withIO atMagic [valueAnswer 0xFACE8200] 0
    s.regs.state = .busy ∧ s.eng.pending = some (.inReq .magicIn) ∧ s.env.inScript = valueAnswer 0xFACE8200 :: [] ∧
    (valueAnswer 0xFACE8200).eof = false ∧ (valueAnswer 0xFACE8200).data ≠ 0xFACE8201#32 := by decide

/-- Obligations.ResetTakesTheBlockToIdle: a reset while BUSY, and one that waits for STATE <- DONE. -/
theorem test_witness_reset :
    (withEvents atMagic [.reset, .engine]).env.agenda = .reset :: [.engine] ∧
    (withEvents atMagic [.reset, .engine]).closing = false ∧
    (withEvents closed [.reset, .engine]).env.agenda = .reset :: [.engine] ∧
    (withEvents closed [.reset, .engine]).closing = true := by decide

/-- Obligations.HostReadHasNoSideEffect: in IDLE and while BUSY. -/
theorem test_witness_host_read :
    (withEvents State.reset [.hostRead 0x0400#16]).env.agenda = .hostRead 0x0400#16 :: [] ∧
    (withEvents State.reset [.hostRead 0x0400#16]).regs.state ≠ .busy ∧
    (withEvents atMagic [.hostRead 0x0004#16]).env.agenda = .hostRead 0x0004#16 :: [] := by decide

/-- Obligations.HostWritesReachOnlyCmdAndIrqEn: each clause at both ends of its ranges. -/
theorem test_witness_host_write :
    (∀ a : RegAddr, (withEvents atMagic [.hostWrite a 1#32]).env.agenda = .hostWrite a 1#32 :: []) ∧
    (∀ a ∈ [8#16, 11#16], 8 ≤ a.toNat ∧ a.toNat < 12) ∧
    (∀ a ∈ [4#16, 7#16, 12#16, 65535#16], 4 ≤ a.toNat ∧ a.toNat < 8 ∨ 12 ≤ a.toNat) :=
  ⟨fun _ => rfl, by simp, by simp⟩

/-- Obligations.FixedAndUnmappedWords: each clause at both ends of its ranges. -/
theorem test_witness_fixed_words :
    (∀ a ∈ [0#16, 3#16], a.toNat < 4) ∧ (∀ a ∈ [12#16, 15#16], 12 ≤ a.toNat ∧ a.toNat < 16) ∧
    (∀ a ∈ [16#16, 19#16], 16 ≤ a.toNat ∧ a.toNat < 20) ∧
    (∀ a ∈ [0x0030#16, 0x03FF#16, 0x0C04#16, 0x0FFF#16, 0x3020#16, 0x3FFF#16, 0x6010#16, 0xFFFF#16],
      0x0030 ≤ a.toNat ∧ a.toNat < 0x0400 ∨ 0x0C04 ≤ a.toNat ∧ a.toNat < 0x1000 ∨
      0x3020 ≤ a.toNat ∧ a.toNat < 0x4000 ∨ 0x6010 ≤ a.toNat) := by simp

/-- Obligations.StatusFieldsAreExactWhenNotBusy and Obligations.StatusWhileBusy, with either command running. -/
theorem test_witness_status :
    doneState.regs.state ≠ .busy ∧ atMagic.regs.state = .busy ∧ atMagic.regs.mode = .decompress ∧
    (accepted State.reset).regs.state = .busy ∧ (accepted State.reset).regs.mode = .compress := by decide

/-- Obligations.CountersAndFreqAreReadable and Obligations.CodeWindows: the last counter, and the last word and bit of the code of
PEOF. -/
theorem test_witness_windows : doneState.regs.state ≠ .busy ∧ 255 < 256 ∧ 256 < 257 ∧ 7 < 8 ∧ 31 < 32 := by decide

/-- Obligations.NodeWindow: the last slot in use. -/
theorem test_witness_node_window :
    (withTree doneState).regs.state ≠ .busy ∧ 2 < 513 ∧ 2 < (withTree doneState).regs.nodeCount.toNat := by decide

/-! ### Witnesses: COMPRESS -/

/-- Obligations.CountPhaseCountsEveryByte: V-F1, with bits set above bit 7 (R136). -/
theorem test_witness_count :
    let q : List Answer := [⟨false, 0xFFFFFF41#32⟩, valueAnswer 65, valueAnswer 66]
    let s := withIO (running .compress .count none (some (.enterPhase .count))) (q ++ [eofAnswer]) 0
    s.regs.state = .busy ∧ s.eng.pending = none ∧ s.eng.todo = some (.enterPhase .count) ∧ s.env.inScript = q ++ eofAnswer :: [] ∧
    gives ([65#8, 65#8, 66#8].map (writeTx 8)) q = true ∧ eofAnswer.eof = true := by decide

/-- Obligations.MergePicksTheSmallestKey, a merge: the two leaves of V-B3. -/
theorem test_witness_merge :
    let s := withTree State.reset
    let u := { s with regs := { s.regs with nodeCount := 2#10 }, eng := { s.eng with active := [0#10, 1#10] } }
    2 ≤ u.eng.active.length ∧ u.regs.nodeCount.toNat < 513 := by decide

/-- Obligations.BuildPlacesLeavesAndCounts, MergePicksTheSmallestKey, BuildWeightsAreExactSums and
BuildMakesATreeOfTheOccurringSymbols, with the byte 65 seen once (V-B3): the outer premises. -/
theorem test_witness_build :
    let s := (running .compress .build none (some .build)).clearFreq.setFreq 65 1#32
    s.regs.state = .busy ∧ s.eng.pending = none ∧ s.eng.todo = some .build ∧ s.freqAt 65 ≠ 0#32 := by decide

/-- BuildPlacesLeavesAndCounts, MergePicksTheSmallestKey and BuildWeightsAreExactSums: the inner premises, the first byte value that
occurs and the internal node at slot 2 (V-B3). -/
theorem test_witness_built :
    let s := (running .compress .build none (some .build)).clearFreq.setFreq 65 1#32
    let t := engineEvent s
    ((List.range 256).filter fun c => s.freqAt c ≠ 0#32)[0]? = some 65 ∧
    t.regs.leafCount.toNat ≤ 2 ∧ 2 < t.regs.nodeCount.toNat := by decide +kernel

/-- Obligations.CodegenRecordsEveryPath and Obligations.CodesArePrefixFree: the tree of V-B3. -/
theorem test_witness_codegen :
    let s := withTree (running .compress .codegen none (some .codegen))
    s.regs.state = .busy ∧ s.eng.pending = none ∧ s.eng.todo = some .codegen ∧ s.holdsTree treeOf65 s.regs.root ∧
    treeOf65.depth ≤ 256 ∧ treeOf65.symbolsOk = true ∧ treeOf65.symbols.Nodup ∧ (0#9 : Symbol).toNat ≤ 256 ∧
    0#9 ∉ treeOf65.symbols :=
  ⟨rfl, rfl, rfl, ⟨rfl, ⟨rfl, rfl⟩, ⟨rfl, rfl⟩⟩, by decide, by decide, by decide, by decide, by decide⟩

/-- Obligations.CodesArePrefixFree, its last premises: both symbols of V-B3 are present after CODEGEN. -/
theorem test_witness_prefix_free :
    let t := engineEvent (withTree (running .compress .codegen none (some .codegen)))
    (65#9 : Symbol).toNat ≤ 256 ∧ (256#9 : Symbol).toNat ≤ 256 ∧ (65#9 : Symbol) ≠ 256#9 ∧
    (t.codeAt (65#9 : Symbol).toNat).present = true ∧ (t.codeAt (256#9 : Symbol).toNat).present = true := by decide

/-- Obligations.SerializeWritesTheHeader: V-S3. -/
theorem test_witness_serialize :
    let s := withIO (withTree (running .compress .headerOut (some (.outReq .nodeBit)) none)) [] 5
    let u := { s with eng := { s.eng with stack := [.visit s.regs.root] } }
    u.regs.state = .busy ∧ u.eng.pending = some (.outReq .nodeBit) ∧ u.eng.stack = [.visit u.regs.root] ∧
    u.holdsTree treeOf65 u.regs.root ∧ 3 * treeOf65.leaves - 1 ≤ u.env.outCredit :=
  ⟨rfl, rfl, rfl, ⟨rfl, ⟨rfl, rfl⟩, ⟨rfl, rfl⟩⟩, by decide⟩

/-- Obligations.EncodeWritesTheCodeOfAByte: a byte with a code, with a bit set above bit 7. -/
theorem test_witness_encode :
    let x : Answer := ⟨false, 0x00000141#32⟩
    let s := withIO (withCodes (running .compress .encode (some (.inReq .encodeByte)) none)) [x, eofAnswer] 2
    s.regs.state = .busy ∧ s.eng.pending = some (.inReq .encodeByte) ∧ s.env.inScript = x :: [eofAnswer] ∧
    x.field 8 = some 65#8 ∧ (s.codeAt (65#8 : Byte).toNat).present = true ∧
    (s.codeAt (65#8 : Byte).toNat).len.toNat ≤ s.env.outCredit := by decide

/-- Obligations.ByteWithoutCodeIsNoCode: V-E9. -/
theorem test_witness_no_code :
    let s := withIO (withCodes (running .compress .encode (some (.inReq .encodeByte)) none)) [valueAnswer 66] 0
    s.regs.state = .busy ∧ s.eng.pending = some (.inReq .encodeByte) ∧ s.env.inScript = valueAnswer 66 :: [] ∧
    (valueAnswer 66).field 8 = some 66#8 ∧ (s.codeAt (66#8 : Byte).toNat).present = false := by decide

/-- Obligations.TerminatorCloseAndDone: the end of V-E3. -/
theorem test_witness_terminator :
    let s := withIO (withCodes (running .compress .encode (some (.inReq .encodeByte)) none)) [eofAnswer] 2
    s.regs.state = .busy ∧ s.eng.pending = some (.inReq .encodeByte) ∧ s.env.inScript = eofAnswer :: [] ∧
    eofAnswer.eof = true ∧ (s.codeAt 256).len.toNat < s.env.outCredit := by decide

/-! ### Witnesses: DECOMPRESS -/

/-- Obligations.ParseRebuildsTheTree: V-S3 with a payload bit after it. -/
theorem test_witness_parse :
    let q := replay treeOf65.writes
    let s := withIO (parsing 0#10 []) (q ++ [valueAnswer 1]) 0
    s.regs.state = .busy ∧ s.eng.pending = some (.inReq .typeBit) ∧ s.eng.next = 0#10 ∧ s.eng.stack = [] ∧
    treeOf65.symbolsOk = true ∧ treeOf65.size ≤ 513 ∧ s.env.inScript = q ++ [valueAnswer 1] ∧
    gives treeOf65.writes q = true := by decide

/-- The parse is complete with the root `n`, and PHASE <- DECODE is next. -/
def parsed (n : Node) : State :=
  let s := running .decompress .headerIn none (some (.enterPhase .decode))
  { s with tables := { s.tables with node := [(0, n)] } }

/-- Obligations.DecodeIsEnteredByTheRoot: the end of the parse, and an internal root, a PEOF root and a byte root. -/
theorem test_witness_decode :
    (let s := running .decompress .headerIn none (some .finishParse)
     s.regs.state = .busy ∧ s.eng.pending = none ∧ s.eng.todo = some .finishParse) ∧
    (∀ n ∈ [Node.internal 0#40 1#10 2#10, Node.leaf 256#9 0#40, Node.leaf 255#9 0#40],
      (parsed n).regs.state = .busy ∧ (parsed n).eng.pending = none ∧ (parsed n).eng.todo = some (.enterPhase .decode)) ∧
    ((parsed (Node.internal 0#40 1#10 2#10)).nodeAt 0#10).isLeaf = false ∧
    ((parsed (Node.leaf 256#9 0#40)).nodeAt 0#10).isLeaf = true ∧ ((parsed (Node.leaf 256#9 0#40)).nodeAt 0#10).symbol = 256#9 ∧
    ((parsed (Node.leaf 255#9 0#40)).nodeAt 0#10).isLeaf = true ∧
    ((parsed (Node.leaf 255#9 0#40)).nodeAt 0#10).symbol ≠ 256#9 ∧
    (parsed (Node.leaf 255#9 0#40)).regs.root = 0#10 := by decide

/-- Obligations.WalkDecodesACode: the code of a byte, its answer with bits set above bit 0. -/
theorem test_witness_walk_byte :
    let q : List Answer := [⟨false, 0xFFFFFFFE#32⟩]
    let s := withIO (withTree (running .decompress .decode (some (.inReq .walkBit)) none)) q 1
    let u := s.moveTo s.regs.root
    u.regs.state = .busy ∧ u.eng.pending = some (.inReq .walkBit) ∧ u.eng.cur = u.regs.root ∧
    u.holdsTree treeOf65 u.regs.root ∧ ((65#9 : Symbol), [false]) ∈ treeOf65.codes ∧ [false] ≠ [] ∧
    u.env.inScript = q ++ [] ∧ gives (bitWrites [false]) q = true ∧ (65#9 : Symbol) ≠ 256#9 ∧ 0 < u.env.outCredit :=
  ⟨rfl, rfl, rfl, ⟨rfl, ⟨rfl, rfl⟩, ⟨rfl, rfl⟩⟩, by decide, by decide, rfl, by decide, by decide, by decide⟩

/-- Obligations.WalkDecodesACode: the code of PEOF, with no OUT transaction to be accepted. -/
theorem test_witness_walk_peof :
    let s := withIO (withTree (running .decompress .decode (some (.inReq .walkBit)) none)) [valueAnswer 1] 0
    let u := s.moveTo s.regs.root
    u.regs.state = .busy ∧ u.eng.pending = some (.inReq .walkBit) ∧ u.eng.cur = u.regs.root ∧
    u.holdsTree treeOf65 u.regs.root ∧ ((256#9 : Symbol), [true]) ∈ treeOf65.codes ∧ [true] ≠ [] ∧
    u.env.inScript = [valueAnswer 1] ++ [] ∧ gives (bitWrites [true]) [valueAnswer 1] = true :=
  ⟨rfl, rfl, rfl, ⟨rfl, ⟨rfl, rfl⟩, ⟨rfl, rfl⟩⟩, by decide, by decide, rfl, by decide⟩

/-! ### Witnesses: whole commands and whole-machine rules -/

/-- Obligations.CompressWritesTheWholeStream and Obligations.RoundTrip, the COMPRESS: V-E3. -/
theorem test_witness_compress :
    e3.regs.state ≠ .busy ∧ exec .compress e3 = .next (accepted e3) ∧
    (accepted e3).env.inScript = [valueAnswer 65] ++ eofAnswer :: valueAnswer 0 :: ([valueAnswer 65] ++ eofAnswer :: []) ∧
    gives ([65#8].map (writeTx 8)) [valueAnswer 65] = true ∧ eofAnswer.eof = true ∧
    1030 + 256 * [65#8].length ≤ (accepted e3).env.outCredit :=
  ⟨by decide, rfl, by decide, by decide, by decide, by decide⟩

/-- Obligations.RoundTrip, the DECOMPRESS of the stream of V-E3. -/
theorem test_witness_decompress :
    let w := [writeTx 32 0xFACE8201#32] ++ treeOf65.writes ++ bitWrites [false] ++ bitWrites [true] ++ [.close]
    let u0 := withIO doneState (replay w) 2
    u0.regs.state ≠ .busy ∧ exec .decompress u0 = .next (acceptedD u0) ∧ (acceptedD u0).env.inScript = replay w ++ [] ∧
    gives w (replay w) = true ∧ [65#8].length < (acceptedD u0).env.outCredit :=
  ⟨by decide, rfl, by decide, by decide, by decide⟩

/-- Obligations.EngineWaits: each clause. -/
theorem test_witness_engine_waits :
    State.reset.regs.state ≠ .busy ∧ atMagic.eng.pending = some (.inReq .magicIn) ∧ atMagic.env.inScript = [] ∧
    (running .compress .close (some (.outReq .close)) none).eng.pending = some (.outReq .close) ∧
    (running .compress .close (some (.outReq .close)) none).env.outCredit = 0 := by decide

/-- Obligations.OnlyTheListedStateTransitions: a reset, the end of a command, and a command whose PHASE changes. -/
theorem test_witness_transitions :
    let s := withEvents atMagic [.reset]
    let u := closed
    let v := running .compress .terminate none (some (.enterPhase .close))
    step s = .next (after (step s)) ∧ s.env.agenda = .reset :: [] ∧ step u = .next (after (step u)) ∧
    (∀ rest, u.env.agenda ≠ .reset :: rest) ∧ u.coherent = true ∧ u.regs.state = .busy ∧ (after (step u)).regs.state = .done ∧
    step v = .next (after (step v)) ∧ (∀ rest, v.env.agenda ≠ .reset :: rest) ∧ v.coherent = true ∧ v.regs.state = .busy ∧
    (after (step v)).regs.phase ≠ v.regs.phase :=
  ⟨rfl, rfl, rfl, nofun, by decide, rfl, rfl, rfl, nofun, by decide, rfl, by decide⟩

/-- Obligations.TablesChangeOnlyInTheirPhases, its last clause: a host read and a host write while the engine stands at BUILD. -/
theorem test_witness_host_at_build :
    let s := withEvents (running .compress .build none (some .build)) [.hostRead 0x4000#16]
    let u := withEvents (running .compress .build none (some .build)) [.hostWrite 0x0000#16 1#32]
    step s = .next (after (step s)) ∧ s.env.agenda = .hostRead 0x4000#16 :: [] ∧
    step u = .next (after (step u)) ∧ u.env.agenda = .hostWrite 0x0000#16 1#32 :: [] := ⟨rfl, rfl, rfl, rfl⟩

/-- Obligations.TablesChangeOnlyInTheirPhases: a step of a DECOMPRESS at its magic, to which its first three clauses apply. -/
theorem test_witness_tables_kept :
    let s := withIO atMagic [valueAnswer 0xFACE8201] 0
    step s = .next (after (step s)) ∧ (∀ rest, s.env.agenda ≠ .reset :: rest) ∧
    s.eng.pending ≠ none ∧ s.eng.pending ≠ some (.inReq .typeBit) := ⟨rfl, nofun, by decide, by decide⟩

/-- Obligations.StatusAgreesWithTheEngine, TablesStayCanonical and ParseInvariantIsKept: a parse with its root waiting for the left
child. -/
theorem test_witness_invariants :
    let s := withIO (parsing 1#10 [.left 0#10]) [valueAnswer 1, valueAnswer 65] 0
    s.coherent = true ∧ s.tables.wf = true ∧ s.parseOk = true ∧ step s = .next (after (step s)) :=
  ⟨by decide, by decide, by decide, rfl⟩

end Sys2Proof.Tests
end

section
/-!
The scope family's claims: MAGIC and the start of the parse, and the transitions of STATE and PHASE (00_scope.md R17).
-/

namespace Sys2Proof.Machine

/-! ### MAGIC -/

/-- MAGIC with its READ outstanding is that READ answered with the magic (45_decoder.md R207). -/
theorem exec_magic_of_awaits {s : State} (h : s.awaits .magicIn = true) :
    exec .magic s = .next (magicAnswered (some Config.magic) s) :=
  if_pos h

/-- The READ(32) answered with the magic: it is counted, and PHASE <- HEADER_IN is next. -/
theorem magicAnswered_magic (s : State) :
    magicAnswered (some Config.magic) s = (s.readCoded (some Config.magic)).plan (.enterPhase .headerIn) := by
  simp [magicAnswered]

/-- Settles O15: MAGIC is its READ answered, and the event after it is PHASE <- HEADER_IN, where the parse starts. -/
theorem magicStartsTheParse : Obligations.MagicStartsTheParse := by
  unfold Obligations.MagicStartsTheParse
  intro s h
  have hbusy : s.regs.state = .busy := (awaits_iff.1 h).1
  refine ⟨_, exec_magic_of_awaits h, ?_⟩
  rw [magicAnswered_magic]
  exact ⟨rfl, engineEvent_enter (p := .headerIn) (by simpa using hbusy) rfl rfl⟩

/-! ### What a step without a reset is -/

/-- `step_cases` where no reset is next: a host access, one engine event or a whole wire token, none of which depends on how the
agenda goes on. -/
theorem step_cases_of_no_reset {s t : State} (h : step s = .next t) (hr : ∀ rest, s.env.agenda ≠ .reset :: rest) :
    (∃ addr rest, t = hostRead addr (s.withAgenda rest)) ∨
    (∃ addr v rest, hostWrite addr v (s.withAgenda rest) = .next t) ∨
    (∃ rest, t = engineEvent (s.withAgenda rest)) ∨
    (∃ i n, i.port ≠ .command ∧ exec i (s.dropAnswers n) = .next t) := by
  rcases step_cases h with ⟨rest, ⟨ha, -⟩, -⟩ | ⟨addr, rest, -, ht⟩ | ⟨addr, v, rest, -, ht⟩ | ⟨rest, -, ht⟩ | ⟨-, ht⟩ |
      ⟨-, i, n, hf, ht⟩
  · exact absurd ha (hr rest)
  · exact .inl ⟨addr, rest, ht⟩
  · exact .inr (.inl ⟨addr, v, rest, ht⟩)
  · exact .inr (.inr (.inl ⟨rest, ht⟩))
  · exact .inr (.inr (.inl ⟨s.env.agenda, ht⟩))
  · exact .inr (.inr (.inr ⟨i, n, fetch_port hf, ht⟩))

/-- A host write outside CMD writes at most EN (20_memory.md R73; 46_control.md R232). -/
theorem writeRegister_regs (addr : RegAddr) (v : Word) (s : State) :
    ∃ en, (writeRegister addr v s).regs = { s.regs with irqEn := en } := by
  unfold writeRegister
  split
  · exact ⟨_, rfl⟩
  · exact ⟨s.regs.irqEn, rfl⟩

/-! ### STATE -/

@[simp] theorem RunState.mayBecome_self (r : RunState) : r.mayBecome r = true := by cases r <;> rfl

/-- An accepted command leaves IDLE, DONE or ERROR for BUSY, or for IDLE (10_state.md R32). -/
theorem RunState.mayBecome_of_ne_busy {r : RunState} (h : r ≠ .busy) :
    r.mayBecome .busy = true ∧ r.mayBecome .idle = true := by
  cases r with
  | busy => exact absurd rfl h
  | _ => exact ⟨rfl, rfl⟩

/-- A host write takes a listed transition of STATE. -/
theorem hostWrite_mayBecome {s t : State} {addr : RegAddr} {v : Word} (h : hostWrite addr v s = .next t) :
    s.regs.state.mayBecome t.regs.state = true := by
  rcases hostWrite_cases h with ⟨-, rfl⟩ | ⟨-, -, rfl⟩ | ⟨-, -, rfl⟩ | ⟨-, -, -, rfl⟩ | ⟨-, -, hs, rfl⟩ | ⟨-, -, hs, rfl⟩ |
      ⟨-, -, hs, rfl⟩
  · obtain ⟨en, he⟩ := writeRegister_regs addr v s
    simp [he]
  · simp
  · simp
  · simp
  · exact (RunState.mayBecome_of_ne_busy hs).1
  · exact (RunState.mayBecome_of_ne_busy hs).1
  · exact (RunState.mayBecome_of_ne_busy hs).2

/-- An internal event keeps STATE, or is the error entry or the ending event. -/
theorem internalEvent_state (e : Internal) (s : State) :
    (internalEvent e s).regs.state = s.regs.state ∨ (internalEvent e s).regs.state = .error ∨
      (internalEvent e s).regs.state = .done := by
  rw [(internal_sum e s).2.2]
  cases e <;> simp

/-- An engine event takes a listed transition of STATE. -/
theorem engineEvent_mayBecome (s : State) : s.regs.state.mayBecome (engineEvent s).regs.state = true := by
  rcases engineEvent_cases s with h | ⟨-, w, a, -, -, -, h⟩ | ⟨-, w, -, -, h⟩ | ⟨hb, e, -, -, h⟩ <;> rw [h]
  · simp
  · simp [(answered_sum w a (s.dropAnswers 1)).2.1]
  · simp [(outAccepted_sum w s.spendCredit).2.1]
  · rcases internalEvent_state e s with hs | hs | hs <;> simp [hs, hb, RunState.mayBecome]

/-- A wire token takes a listed transition of STATE. -/
theorem token_mayBecome {s t : State} {i : Instr} (hi : i.port ≠ .command) (h : exec i s = .next t) :
    s.regs.state.mayBecome t.regs.state = true := by
  obtain ⟨-, ht, hs, -⟩ := token_sum hi h
  rcases ht with ht | ht <;> rw [hs, ht] <;> rfl

/-- Without a reset a step takes a listed transition of STATE. -/
theorem step_mayBecome {s t : State} (h : step s = .next t) (hr : ∀ rest, s.env.agenda ≠ .reset :: rest) :
    s.regs.state.mayBecome t.regs.state = true := by
  rcases step_cases_of_no_reset h hr with ⟨addr, rest, rfl⟩ | ⟨addr, v, rest, hw⟩ | ⟨rest, rfl⟩ | ⟨i, n, hi, he⟩
  · exact RunState.mayBecome_self _
  · exact hostWrite_mayBecome (s := s.withAgenda rest) hw
  · exact engineEvent_mayBecome (s.withAgenda rest)
  · exact token_mayBecome (s := s.dropAnswers n) hi he

/-- A reset goes to IDLE, but where CLOSE has been accepted the step is the event that sets DONE (log 18). -/
theorem step_reset_state {s t : State} {rest : List Event} (h : step s = .next t) (ha : s.env.agenda = .reset :: rest) :
    t.regs.state = if s.closing then .done else .idle := by
  cases hc : s.closing with
  | true =>
    obtain ⟨hb, hp, ht⟩ := closing_iff.1 hc
    rw [step_deferred ha hc, engineEvent_internal hb hp ht] at h
    cases h
    rfl
  | false =>
    rw [step_reset ha hc] at h
    cases h
    rfl

/-! ### PHASE -/

/-- A host write while BUSY leaves PHASE: no command is accepted (46_control.md R230). -/
theorem hostWrite_phase_of_busy {s t : State} {addr : RegAddr} {v : Word} (h : hostWrite addr v s = .next t)
    (hb : s.regs.state = .busy) : t.regs.phase = s.regs.phase := by
  rcases hostWrite_cases h with ⟨-, rfl⟩ | ⟨-, -, rfl⟩ | ⟨-, -, rfl⟩ | ⟨-, -, -, rfl⟩ | ⟨-, -, hs, -⟩ | ⟨-, -, hs, -⟩ |
      ⟨-, -, hs, -⟩
  · obtain ⟨en, he⟩ := writeRegister_regs addr v s
    simp [he]
  · rfl
  · rfl
  · rfl
  all_goals exact absurd hb hs

/-- An internal event that changes PHASE is PHASE <- p. -/
theorem internalEvent_phase_ne {e : Internal} {s : State} (h : (internalEvent e s).regs.phase ≠ s.regs.phase) :
    ∃ p, e = .enterPhase p := by
  rw [internal_phase] at h
  cases e with
  | enterPhase p => exact ⟨p, rfl⟩
  | _ => exact absurd rfl h

/-- `t` is `s` after PHASE <- p, the event that was next: it writes PHASE and the engine's position, and the agenda is its caller's. -/
def PhaseEntered (p : Phase) (s t : State) : Prop :=
  s.eng.pending = none ∧ s.eng.todo = some (.enterPhase p) ∧
    ∃ x es, t = { s with regs := { s.regs with phase := p }, eng := x, env := { s.env with agenda := es } }

/-- An engine event that changes PHASE is PHASE <- p. -/
theorem engineEvent_phase_ne {s : State} (h : (engineEvent s).regs.phase ≠ s.regs.phase) :
    ∃ p, PhaseEntered p s (engineEvent s) := by
  rcases engineEvent_cases s with he | ⟨-, w, a, -, -, -, he⟩ | ⟨-, w, -, -, he⟩ | ⟨-, e, hp, ht, he⟩ <;> rw [he] at h ⊢
  · exact absurd rfl h
  · exact absurd (answered_phase w a _) h
  · exact absurd (outAccepted_phase w _) h
  · obtain ⟨p, rfl⟩ := internalEvent_phase_ne h
    obtain ⟨x, hx⟩ := enterPhase_frame p s
    exact ⟨p, hp, ht, x, s.env.agenda, hx⟩

/-- While BUSY a step without a reset that changes PHASE is PHASE <- p. -/
theorem step_phase_ne {s t : State} (h : step s = .next t) (hr : ∀ rest, s.env.agenda ≠ .reset :: rest)
    (hb : s.regs.state = .busy) (hne : t.regs.phase ≠ s.regs.phase) : ∃ p, PhaseEntered p s t := by
  rcases step_cases_of_no_reset h hr with ⟨addr, rest, rfl⟩ | ⟨addr, v, rest, hw⟩ | ⟨rest, rfl⟩ | ⟨i, n, hi, he⟩
  · exact absurd rfl hne
  · exact absurd (hostWrite_phase_of_busy hw hb) hne
  · obtain ⟨p, hp, ht, x, es, hx⟩ := engineEvent_phase_ne hne
    exact ⟨p, hp, ht, x, es, hx⟩
  · exact absurd (token_phase hi he) hne

/-- Where STATUS and the engine agree, PHASE <- p before another phase goes to the one that follows it. -/
theorem coherent_enterPhase {s : State} {p : Phase} (hc : s.coherent = true) (hb : s.regs.state = .busy)
    (hp : s.eng.pending = none) (ht : s.eng.todo = some (.enterPhase p)) (hne : p ≠ s.regs.phase) :
    p = s.regs.phase.following s.regs.mode := by
  have hfits : (Internal.enterPhase p).fits s.regs.mode s.regs.phase = true := by
    simp only [State.coherent, hb, hp, ht, Bool.and_eq_true] at hc
    exact hc.2
  simp only [Internal.fits] at hfits
  split at hfits
  · rename_i hcount
    simp only [Bool.and_eq_true, decide_eq_true_eq] at hfits
    exact absurd (hcount.trans hfits.2.symm) hne
  · simp only [Bool.and_eq_true, decide_eq_true_eq] at hfits
    exact hfits.2

/-- Settles O55: STATE by the kinds of step, PHASE because every step but PHASE <- p keeps it, and the order of the phases because
that event fits the phase before it. -/
theorem onlyTheListedStateTransitions : Obligations.OnlyTheListedStateTransitions := by
  unfold Obligations.OnlyTheListedStateTransitions
  intro s t h
  refine ⟨fun ⟨rest, ha⟩ => step_reset_state h ha, step_mayBecome h, fun hr hb hne => ?_, fun hr hc hb => ?_⟩
  · obtain ⟨p, hp, ht, x, es, rfl⟩ := step_phase_ne h hr hb hne
    exact ⟨hp, ht, rfl, rfl, rfl, rfl, rfl⟩
  · by_cases hne : t.regs.phase = s.regs.phase
    · exact .inl hne
    · obtain ⟨p, hp, ht, x, es, rfl⟩ := step_phase_ne h hr hb hne
      exact .inr (coherent_enterPhase hc hb hp ht hne)

end Sys2Proof.Machine
end

section
/-!
The state family's claims, part one: what the host reads of the registers, and the steps that change CMD_ERR and IRQ_EN
(10_state.md R32 to R43, R59).
-/

namespace Sys2Proof.Machine

/-! ### Words that read a constant -/

/-- MAGIC reads its constant in every state (10_state.md R42). -/
theorem readWord_magic (s : State) {addr : RegAddr} (h : 12 ≤ addr.toNat ∧ addr.toNat < 16) :
    s.readWord (regionOf addr) = 0xFACE8201#32 := by
  rw [regionOf_low (by omega), show addr.toNat / 4 = 3 by omega]
  rfl

/-- CONFIG reads its constant in every state (10_state.md R43). -/
theorem readWord_config (s : State) {addr : RegAddr} (h : 16 ≤ addr.toNat ∧ addr.toNat < 20) :
    s.readWord (regionOf addr) = 0x00200201#32 := by
  rw [regionOf_low (by omega), show addr.toNat / 4 = 4 by omega]
  rfl

/-- The gaps between the registers and the windows, and what is above the last window (20_memory.md R74). -/
theorem regionOf_unmapped {addr : RegAddr}
    (h : 0x0030 ≤ addr.toNat ∧ addr.toNat < 0x0400 ∨ 0x0C04 ≤ addr.toNat ∧ addr.toNat < 0x1000 ∨
      0x3020 ≤ addr.toNat ∧ addr.toNat < 0x4000 ∨ 0x6010 ≤ addr.toNat) : regionOf addr = .unmapped := by
  rw [regionOf_high (by omega)]
  unfold windowRegion wordBase
  rw [if_neg (by omega), if_neg (by omega), if_neg (by omega), if_neg (by omega)]

/-- Settles O32: each range reaches one region, and these regions read a constant. -/
theorem fixedAndUnmappedWords : Obligations.FixedAndUnmappedWords := by
  unfold Obligations.FixedAndUnmappedWords
  intro s addr
  refine ⟨fun h => ?_, readWord_magic s, readWord_config s, fun h => ?_⟩
  · rw [regionOf_cmd.2 h]
    rfl
  · rw [regionOf_unmapped h]
    rfl

/-- Settles O27: STATUS and the registers at reset are 0, MAGIC and CONFIG are constants in every state. -/
theorem resetValuesReadAsTheSpecSays : Obligations.ResetValuesReadAsTheSpecSays := by
  unfold Obligations.ResetValuesReadAsTheSpecSays
  refine ⟨rfl, rfl, rfl, rfl, ?_, readWord_magic _ (by decide), readWord_config _ (by decide)⟩
  simp only [List.forall_mem_cons, List.not_mem_nil, false_imp_iff, implies_true, and_true]
  exact ⟨rfl, rfl, rfl, rfl, rfl, rfl, rfl, rfl, rfl, rfl⟩

/-- Settles O60: at reset nothing is outstanding, the tables list nothing and no parse runs. -/
theorem invariantsHoldAtReset : Obligations.InvariantsHoldAtReset := by
  unfold Obligations.InvariantsHoldAtReset
  exact ⟨rfl, rfl, rfl⟩

/-! ### STATUS -/

/-- Each field's number fits its bits of the STATUS word (10_state.md R36). -/
theorem status_codes_fit (r : RunState) (m : Mode) (c : Bool) (e : Option HuffError) :
    r.code < 4 ∧ m.code < 2 ∧ c.toNat < 2 ∧ errCodeValue e < 8 := by
  refine ⟨?_, ?_, c.toNat_lt, ?_⟩
  · cases r <;> decide
  · cases m <;> decide
  · cases e with
    | none => decide
    | some e => cases e <;> decide

section
variable (r : RunState) (m : Mode) (c : Bool) (p : Nat) (e : Option HuffError)

/-- The STATUS word as a number: its fields fit below bit 32, so nothing is cut off. -/
theorem statusWord_toNat :
    (statusWord r m c p e).toNat = r.code + 4 * m.code + 8 * c.toNat + 16 * (p % 16) + 256 * errCodeValue e := by
  have hfit := status_codes_fit r m c e
  rw [statusWord, BitVec.toNat_ofNat, Nat.mod_eq_of_lt (by omega)]

/-- Bits of the STATUS word are the number `x` if they are so in the sum of the fields, each of which fits its bits. -/
theorem statusWord_extract {lo n x : Nat}
    (h : r.code < 4 ∧ m.code < 2 ∧ c.toNat < 2 ∧ errCodeValue e < 8 →
      (r.code + 4 * m.code + 8 * c.toNat + 16 * (p % 16) + 256 * errCodeValue e) / 2 ^ lo % 2 ^ n = x % 2 ^ n) :
    (statusWord r m c p e).extractLsb' lo n = BitVec.ofNat n x := by
  apply BitVec.eq_of_toNat_eq
  rw [BitVec.extractLsb'_toNat, statusWord_toNat, Nat.shiftRight_eq_div_pow, h (status_codes_fit r m c e), BitVec.toNat_ofNat]

theorem statusWord_state : (statusWord r m c p e).extractLsb' 0 2 = BitVec.ofNat 2 r.code :=
  statusWord_extract r m c p e fun _ => by omega

theorem statusWord_mode : (statusWord r m c p e).extractLsb' 2 1 = BitVec.ofNat 1 m.code :=
  statusWord_extract r m c p e fun _ => by omega

theorem statusWord_cmdErr : (statusWord r m c p e).getLsbD 3 = c := by
  have hfit := status_codes_fit r m c e
  rw [BitVec.getLsbD, statusWord_toNat, Nat.testBit_eq_decide_div_mod_eq]
  cases c <;> simp <;> omega

theorem statusWord_phase : (statusWord r m c p e).extractLsb' 4 4 = BitVec.ofNat 4 p :=
  statusWord_extract r m c p e fun _ => by omega

theorem statusWord_errCode : (statusWord r m c p e).extractLsb' 8 4 = BitVec.ofNat 4 (errCodeValue e) :=
  statusWord_extract r m c p e fun _ => by omega

theorem statusWord_reserved : (statusWord r m c p e).extractLsb' 12 20 = 0#20 :=
  statusWord_extract r m c p e (x := 0) fun _ => by omega

/-- Without an error ERR_CODE and the reserved bits are 0. -/
theorem statusWord_none_above : (statusWord r m c p none).extractLsb' 8 24 = 0#24 :=
  statusWord_extract r m c p none (x := 0) fun _ => by simp only [errCodeValue]; omega

end

/-- MODE reads 0 for COMPRESS and 1 for DECOMPRESS (R37). -/
theorem Mode.code_mem (m : Mode) : (m, BitVec.ofNat 1 m.code) ∈ [(Mode.compress, 0#1), (.decompress, 1#1)] := by
  cases m <;> decide

theorem State.statusSeen_of_not_busy {s : State} (h : s.regs.state ≠ .busy) :
    s.statusSeen = statusWord s.regs.state s.regs.mode s.regs.cmdErr s.regs.phase.code s.regs.errCode := by
  simp [State.statusSeen, State.busy, h]

theorem State.statusSeen_of_busy {s : State} (h : s.regs.state = .busy) :
    s.statusSeen = statusWord .busy s.regs.mode s.regs.cmdErr (busyPhaseCode s.regs.mode s.env.draws) none := by
  simp [State.statusSeen, State.busy, h]

/-- Settles O33: each field of the word is the code of its register, and the codes are those of the spec's tables. -/
theorem statusFieldsAreExactWhenNotBusy : Obligations.StatusFieldsAreExactWhenNotBusy := by
  unfold Obligations.StatusFieldsAreExactWhenNotBusy
  intro s hs w
  have hw : w = _ := State.statusSeen_of_not_busy hs
  rw [hw, statusWord_state, statusWord_mode, statusWord_cmdErr, statusWord_phase, statusWord_errCode, statusWord_reserved]
  refine ⟨?_, Mode.code_mem _, rfl, ?_, ?_, rfl⟩
  · cases hr : s.regs.state with
    | busy => exact absurd hr hs
    | _ => decide
  · cases s.regs.phase <;> decide
  · cases s.regs.errCode with
    | none => decide
    | some e => cases e <;> decide

/-- A phase of COMPRESS is one of 1 to 9, of DECOMPRESS one of 9 to 12, so four bits hold it (R33, R58). -/
theorem busyPhaseCode_bounds (k : Nat) :
    (1 ≤ busyPhaseCode .compress k ∧ busyPhaseCode .compress k ≤ 9) ∧
      9 ≤ busyPhaseCode .decompress k ∧ busyPhaseCode .decompress k ≤ 12 := by
  simp only [busyPhaseCode]
  omega

/-- Settles O34: while BUSY the word is that of BUSY with the phase drawn and no error. -/
theorem statusWhileBusy : Obligations.StatusWhileBusy := by
  unfold Obligations.StatusWhileBusy
  intro s
  refine ⟨rfl, ?_⟩
  intro hs w
  have hw : w = _ := State.statusSeen_of_busy hs
  have hdraw := busyPhaseCode_bounds s.env.draws
  rw [hw, statusWord_state, statusWord_mode, statusWord_cmdErr, statusWord_phase, statusWord_none_above]
  refine ⟨rfl, Mode.code_mem _, rfl, fun hm => ?_, fun hm => ?_, rfl,
    readWord_magic _ (by decide), readWord_config _ (by decide)⟩
  · rw [hm, BitVec.toNat_ofNat]
    omega
  · rw [hm, BitVec.toNat_ofNat]
    omega

/-! ### CMD_ERR and IRQ_EN -/

/-- Every word below 4 is a command (30_encoding.md R101, R102). -/
theorem four_le_of_decodeCommand_error {v : Word} {r : Reject} (h : decodeCommand v = .error r) : 4 ≤ v.toNat := by
  by_contra hlt
  obtain rfl | rfl | rfl | rfl : v = 0#32 ∨ v = 1#32 ∨ v = 2#32 ∨ v = 3#32 := by bv_omega
  all_goals cases h

/-- What a host write does to CMD_ERR: CLEAR is accepted, or a word is illegal or rejected, or it stays (R38). -/
theorem hostWrite_cmdErr {s t : State} {addr : RegAddr} {v : Word} (h : hostWrite addr v s = .next t) :
    t.regs.cmdErr = s.regs.cmdErr ∨
    (addr.toNat < 4 ∧ v = 3#32 ∧ s.regs.state ≠ .busy ∧ t.regs.cmdErr = false) ∨
    (addr.toNat < 4 ∧ (4 ≤ v.toNat ∨ (v ≠ 0#32 ∧ s.regs.state = .busy)) ∧ t.regs.cmdErr = true) := by
  rcases hostWrite_cases h with ⟨-, rfl⟩ | ⟨ha, ⟨r, hr⟩, rfl⟩ | ⟨-, -, rfl⟩ | ⟨ha, hv, hb, rfl⟩ | ⟨-, -, -, rfl⟩ | ⟨-, -, -, rfl⟩ |
      ⟨ha, hv, hs, rfl⟩
  · obtain ⟨en, he⟩ := writeRegister_regs addr v s
    exact .inl (by rw [he])
  · exact .inr (.inr ⟨ha, .inl (four_le_of_decodeCommand_error hr), rfl⟩)
  · exact .inl rfl
  · have hv : v ≠ 0#32 := by rcases hv with rfl | rfl | rfl <;> decide
    exact .inr (.inr ⟨ha, .inr ⟨hv, hb⟩, rfl⟩)
  · exact .inl rfl
  · exact .inl rfl
  · exact .inr (.inl ⟨ha, hv, hs, rfl⟩)

/-- A host write that reaches IRQ_EN gives EN bit 0 of the word, any other leaves EN (R41; 46_control.md R232). -/
theorem hostWrite_irqEn {s t : State} {addr : RegAddr} {v : Word} (h : hostWrite addr v s = .next t) :
    t.regs.irqEn = s.regs.irqEn ∨ (8 ≤ addr.toNat ∧ addr.toNat < 12 ∧ t.regs.irqEn = v.getLsbD 0) := by
  rcases hostWrite_cases h with ⟨-, rfl⟩ | ⟨-, -, rfl⟩ | ⟨-, -, rfl⟩ | ⟨-, -, -, rfl⟩ | ⟨-, -, -, rfl⟩ | ⟨-, -, -, rfl⟩ |
      ⟨-, -, -, rfl⟩
  · unfold writeRegister
    split
    · next hr =>
      obtain ⟨hlo, hhi⟩ := regionOf_irqEn.1 hr
      exact .inr ⟨hlo, hhi, rfl⟩
    · exact .inl rfl
  all_goals exact .inl rfl

/-- A step other than a reset and a host write leaves CMD_ERR and EN. -/
theorem step_control_cases {s t : State} (h : step s = .next t) :
    (t.regs.cmdErr = s.regs.cmdErr ∧ t.regs.irqEn = s.regs.irqEn) ∨
    (∃ rest, s.env.agenda = .reset :: rest ∧ t.regs = Regs.reset) ∨
    (∃ addr v rest, s.env.agenda = .hostWrite addr v :: rest ∧ hostWrite addr v (s.withAgenda rest) = .next t) := by
  rcases step_cases h with ⟨rest, ⟨ha, -⟩, rfl⟩ | ⟨addr, rest, -, rfl⟩ | ⟨addr, v, rest, ha, hw⟩ | ⟨rest, -, rfl⟩ | ⟨-, rfl⟩ |
      ⟨-, i, n, hf, ht⟩
  · exact .inr (.inl ⟨rest, ha, rfl⟩)
  · exact .inl ⟨rfl, rfl⟩
  · exact .inr (.inr ⟨addr, v, rest, ha, hw⟩)
  · obtain ⟨-, hc, he, -⟩ := engine_keep (s.withAgenda rest)
    exact .inl ⟨hc, he⟩
  · obtain ⟨-, hc, he, -⟩ := engine_keep s
    exact .inl ⟨hc, he⟩
  · obtain ⟨-, hc, he, -⟩ := (token_sum (fetch_port hf) ht).1.keep
    exact .inl ⟨hc, he⟩

/-- Settles O14: only a reset and a host write can change CMD_ERR or EN, and a host write does so at the words named. -/
theorem cmdErrAndIrqEnChangeOnlyAtTheirEvents : Obligations.CmdErrAndIrqEnChangeOnlyAtTheirEvents := by
  unfold Obligations.CmdErrAndIrqEnChangeOnlyAtTheirEvents
  intro s t h
  rcases step_control_cases h with ⟨hc, he⟩ | ⟨rest, ha, hr⟩ | ⟨addr, v, rest, ha, hw⟩
  · exact ⟨fun h1 h0 => absurd (hc.symm.trans h0) (by simp [h1]), fun h0 h1 => absurd (hc.symm.trans h1) (by simp [h0]),
      fun hne => absurd he hne⟩
  · refine ⟨fun _ _ => .inl ⟨rest, ha⟩, fun _ h1 => ?_, fun _ => .inl ⟨by rw [hr]; rfl, rest, ha⟩⟩
    rw [hr] at h1
    cases h1
  · refine ⟨fun h1 h0 => ?_, fun h0 h1 => ?_, fun hne => ?_⟩
    · rcases hostWrite_cmdErr hw with hc | ⟨hlt, rfl, hs, -⟩ | ⟨-, -, hc⟩
      · exact absurd (hc.symm.trans h0) (by simp [h1])
      · exact .inr ⟨addr, rest, ha, hlt, hs⟩
      · exact absurd (hc.symm.trans h0) (by simp)
    · rcases hostWrite_cmdErr hw with hc | ⟨-, -, -, hc⟩ | ⟨hlt, hv, -⟩
      · exact absurd (hc.symm.trans h1) (by simp [h0])
      · exact absurd (hc.symm.trans h1) (by simp)
      · exact ⟨addr, v, rest, ha, hlt, hv⟩
    · rcases hostWrite_irqEn hw with he | ⟨hlo, hhi, he⟩
      · exact absurd he hne
      · exact .inr ⟨addr, v, rest, ha, hlo, hhi, he⟩

end Sys2Proof.Machine
end

section
/-!
The state family's claims, part two: the engine that waits, the tables' canonical form, and the tree that BUILD leaves
(10_state.md R51 to R57).
-/

namespace Sys2Proof.Machine

/-- Settles O54: the engine moves only while BUSY, and a transaction completes only by an answer or an acceptance. -/
theorem engineWaits : Obligations.EngineWaits := by
  unfold Obligations.EngineWaits
  intro s
  refine ⟨fun hs => ?_, fun w hp hq => ?_, fun w hp hc => ?_⟩
  · simp [engineEvent, hs]
  · simp [engineEvent, hp, hq]
  · simp [engineEvent, hp, hc]

/-- An engine event keeps the tables canonical. -/
theorem engineEvent_wf {s : State} (h : s.tables.wf = true) : (engineEvent s).tables.wf = true := by
  rcases engineEvent_cases s with he | ⟨-, w, a, -, -, -, he⟩ | ⟨-, w, -, -, he⟩ | ⟨-, e, -, -, he⟩ <;> rw [he]
  · exact h
  · exact (answered_sum w a _).1.wf h
  · exact (outAccepted_sum w _).1.wf h
  · exact (internal_sum e s).1.wf h

/-- A host write changes no table. -/
theorem hostWrite_tables {s t : State} {addr : RegAddr} {v : Word} (h : hostWrite addr v s = .next t) :
    t.tables = s.tables := by
  rcases hostWrite_cases h with ⟨-, rfl⟩ | ⟨-, -, rfl⟩ | ⟨-, -, rfl⟩ | ⟨-, -, -, rfl⟩ | ⟨-, -, -, rfl⟩ | ⟨-, -, -, rfl⟩ |
      ⟨-, -, -, rfl⟩
  · unfold writeRegister
    split <;> rfl
  all_goals rfl

/-- Settles O58: a reset leaves the tables with no listed entry, a host access leaves them as they are, and every write of the engine
keeps the form. -/
theorem tablesStayCanonical : Obligations.TablesStayCanonical := by
  unfold Obligations.TablesStayCanonical
  intro s t hw h
  rcases step_cases h with ⟨rest, -, rfl⟩ | ⟨addr, rest, -, rfl⟩ | ⟨addr, v, rest, -, ht⟩ | ⟨rest, -, rfl⟩ | ⟨-, rfl⟩ |
      ⟨-, i, n, hf, ht⟩
  · rfl
  · exact hw
  · rw [hostWrite_tables ht]
    exact hw
  · exact engineEvent_wf (s := s.withAgenda rest) hw
  · exact engineEvent_wf hw
  · exact (token_sum (fetch_port hf) ht).1.wf hw

/-- After all merges one node is active, and it holds a tree of all the leaves (41_tree_builder.md R144, R145). -/
theorem MInv.tree_of_singleton {L W : Nat} {syms : List Symbol} {s0 s : State} {j : Nat} {r : NodeIndex}
    (h : MInv L W syms s0 s j) (hr : s.eng.active = [r]) : ∃ tr : CodeTree, s.holdsTree tr r ∧ tr.symbols.Perm syms := by
  obtain ⟨f, hf, hp⟩ := h.forest
  rw [hr] at hf hp
  exact ⟨f r, hf r (by simp), by simpa using hp⟩

/-- A held tree of depth at most 256 has its depth put into TREE_DEPTH (41_tree_builder.md R146). -/
theorem setRoot_treeDepth {s : State} {tr : CodeTree} {r : NodeIndex} (h : s.holdsTree tr r) (hd : tr.depth ≤ 256) :
    (setRoot r s).regs.treeDepth.toNat = tr.depth := by
  have hdepth : depthBelow s Config.nodeCap r = tr.depth := holds_depth tr _ r h (by simp only [Config.nodeCap]; omega)
  simp only [setRoot, hdepth, BitVec.toNat_ofNat]
  omega

/-- Settles O42: the node left by the merges holds the tree, and 257 leaves bound its depth. -/
theorem buildMakesATreeOfTheOccurringSymbols : Obligations.BuildMakesATreeOfTheOccurringSymbols := by
  unfold Obligations.BuildMakesATreeOfTheOccurringSymbols
  intro s hb hp ht
  obtain ⟨u, hinv, he, hact, -⟩ := build_all s hb hp ht
  obtain ⟨tr, htr, hperm⟩ := hinv.tree_of_singleton hact
  have hd : tr.depth ≤ 256 := by
    have hlen := hperm.length_eq
    have hdl := depth_leaves tr
    have hocc := occ_len s
    simp only [leaves_symbols, List.length_append, List.length_map, List.length_singleton] at hlen
    omega
  simp only [he]
  rw [← occ_eq]
  exact ⟨tr, (holds_congr (s := u) (t := (setRoot _ u).plan _) (fun _ => rfl) tr _).2 htr, hperm, setRoot_treeDepth htr hd, hd⟩

end Sys2Proof.Machine
end

section
/-!
The state family's claims, part three: every step keeps STATUS and the engine's position in agreement (10_state.md R32, R33, R39,
R57; 60_exceptions.md R241, R243).
-/

namespace Sys2Proof.Machine

/-! ### Agreement while BUSY -/

/-- A command of mode `m` runs in phase `p`, without an error. -/
def Regs.runs (r : Regs) (m : Mode) (p : Phase) : Prop :=
  r.state = .busy ∧ r.errCode = none ∧ r.mode = m ∧ r.phase = p

section
variable {s : State} {m : Mode} {p : Phase}

/-- With a READ or the RESET outstanding, STATUS and the engine agree if it fits the phase. -/
theorem coherent_of_inReq {w : InWait} (h : s.regs.runs m p) (hp : s.eng.pending = some (.inReq w)) (ht : s.eng.todo = none)
    (hf : w.fits m p = true) : s.coherent = true := by
  obtain ⟨hb, he, rfl, rfl⟩ := h
  simp [State.coherent, hb, he, hp, ht, hf]

theorem coherent_of_outReq {w : OutWait} (h : s.regs.runs m p) (hp : s.eng.pending = some (.outReq w)) (ht : s.eng.todo = none)
    (hf : w.fits m p s.eng.encSym = true) : s.coherent = true := by
  obtain ⟨hb, he, rfl, rfl⟩ := h
  simp [State.coherent, hb, he, hp, ht, hf]

theorem coherent_of_todo {e : Internal} (h : s.regs.runs m p) (hp : s.eng.pending = none) (ht : s.eng.todo = some e)
    (hf : e.fits m p = true) : s.coherent = true := by
  obtain ⟨hb, he, rfl, rfl⟩ := h
  simp [State.coherent, hb, he, hp, ht, hf]

/-- Conversely, a request outstanding in agreement fits the phase of the command that runs. -/
theorem runs_of_inReq {w : InWait} (h : s.coherent = true) (hb : s.regs.state = .busy) (hp : s.eng.pending = some (.inReq w)) :
    s.regs.runs s.regs.mode s.regs.phase ∧ w.fits s.regs.mode s.regs.phase = true := by
  cases ht : s.eng.todo with
  | none =>
    simp only [State.coherent, hb, hp, ht, Bool.and_eq_true, decide_eq_true_eq] at h
    exact ⟨⟨hb, h.1, rfl, rfl⟩, h.2⟩
  | some e => simp [State.coherent, hb, hp, ht] at h

theorem runs_of_outReq {w : OutWait} (h : s.coherent = true) (hb : s.regs.state = .busy) (hp : s.eng.pending = some (.outReq w)) :
    s.regs.runs s.regs.mode s.regs.phase ∧ w.fits s.regs.mode s.regs.phase s.eng.encSym = true := by
  cases ht : s.eng.todo with
  | none =>
    simp only [State.coherent, hb, hp, ht, Bool.and_eq_true, decide_eq_true_eq] at h
    exact ⟨⟨hb, h.1, rfl, rfl⟩, h.2⟩
  | some e => simp [State.coherent, hb, hp, ht] at h

/-- Outside BUSY nothing is outstanding and the engine has no step to take (60_exceptions.md R257). -/
theorem halted_of_not_busy (h : s.coherent = true) (hb : s.regs.state ≠ .busy) : s.eng.pending = none ∧ s.eng.todo = none := by
  cases hs : s.regs.state with
  | busy => exact absurd hs hb
  | _ =>
    simp only [State.coherent, hs, Bool.and_eq_true, decide_eq_true_eq] at h
    obtain ⟨⟨-, hp⟩, ht⟩ := h
    exact ⟨hp, ht⟩

theorem runs_of_todo {e : Internal} (h : s.coherent = true) (ht : s.eng.todo = some e) :
    s.regs.runs s.regs.mode s.regs.phase ∧ e.fits s.regs.mode s.regs.phase = true := by
  have hb : s.regs.state = .busy := by
    by_contra hb
    simp [(halted_of_not_busy h hb).2] at ht
  cases hp : s.eng.pending with
  | none =>
    simp only [State.coherent, hb, hp, ht, Bool.and_eq_true, decide_eq_true_eq] at h
    exact ⟨⟨hb, h.1, rfl, rfl⟩, h.2⟩
  | some o => cases o <;> simp [State.coherent, hb, hp, ht] at h

end

/-! ### Shared operations -/

/-- The engine goes on with a code in the phase it is emitted in: PEOF's in TERMINATE, a byte's in ENCODE (44_encoder.md R194,
R195). -/
theorem emitNext_coherent {s : State} {p : Phase} (h : s.regs.runs .compress p)
    (hp : p = if s.eng.encSym = Config.peof then .terminate else .encode) : (emitNext s).coherent = true := by
  unfold emitNext codeDone
  subst hp
  split_ifs with hlen hpeof
  · exact coherent_of_outReq (w := .codeBit) h rfl rfl (by simp [OutWait.fits])
  · exact coherent_of_todo h rfl rfl (by rw [if_pos hpeof]; rfl)
  · exact coherent_of_inReq h rfl rfl (by rw [if_neg hpeof]; rfl)

theorem nextNode_coherent {s : State} (rest : List Frame) (h : s.regs.runs .compress .headerOut) :
    (nextNode rest s).coherent = true := by
  cases rest with
  | nil => exact coherent_of_todo h rfl rfl rfl
  | cons => exact coherent_of_outReq h rfl rfl rfl

theorem returnNode_coherent {s : State} (i : NodeIndex) (h : s.regs.runs .decompress .headerIn) :
    (returnNode i s).coherent = true := by
  unfold returnNode
  split <;> exact coherent_of_todo h rfl rfl rfl

/-! ### The answer to an IN request -/

section
variable {s : State}

theorem typeBitAnswered_coherent (r : Option (BitVec 1)) (h : s.regs.runs .decompress .headerIn) :
    (typeBitAnswered r s).coherent = true := by
  cases r with
  | none => exact coherent_of_todo h rfl rfl rfl
  | some b =>
    simp only [typeBitAnswered]
    split_ifs
    · exact coherent_of_todo h rfl rfl rfl
    · exact coherent_of_inReq h rfl rfl rfl
    · exact coherent_of_todo h rfl rfl rfl

theorem symbolAnswered_coherent (r : Option Symbol) (h : s.regs.runs .decompress .headerIn) :
    (symbolAnswered r s).coherent = true := by
  cases r with
  | none => exact coherent_of_todo h rfl rfl rfl
  | some v =>
    simp only [symbolAnswered]
    split_ifs <;> exact coherent_of_todo h rfl rfl rfl

theorem magicAnswered_coherent (r : Option Word) (h : s.regs.runs .decompress .magicIn) : (magicAnswered r s).coherent = true := by
  cases r with
  | none => exact coherent_of_todo h rfl rfl rfl
  | some v =>
    simp only [magicAnswered]
    split_ifs <;> exact coherent_of_todo h rfl rfl rfl

theorem walkAnswered_coherent (r : Option (BitVec 1)) (h : s.regs.runs .decompress .decode) : (walkAnswered r s).coherent = true := by
  cases r with
  | none => exact coherent_of_todo h rfl rfl rfl
  | some b =>
    simp only [walkAnswered, arrive]
    split_ifs
    · exact coherent_of_todo h rfl rfl rfl
    · exact coherent_of_outReq h rfl rfl rfl
    · exact coherent_of_inReq h rfl rfl rfl

/-- A byte is not PEOF. -/
theorem setWidth_byte_ne_peof (b : Byte) : b.setWidth 9 ≠ Config.peof := by
  intro h
  have := congrArg BitVec.toNat h
  simp [Config.peof] at this
  omega

theorem encodeAnswered_coherent (r : Option Byte) (h : s.regs.runs .compress .encode) : (encodeAnswered r s).coherent = true := by
  cases r with
  | none => exact coherent_of_todo h rfl rfl rfl
  | some b =>
    simp only [encodeAnswered]
    split_ifs
    · exact emitNext_coherent h (if_neg (setWidth_byte_ne_peof b)).symm
    · exact coherent_of_todo h rfl rfl rfl

theorem countAnswered_coherent (r : Option Byte) (h : s.regs.runs .compress .count) : (countAnswered r s).coherent = true := by
  cases r <;> exact coherent_of_todo h rfl rfl rfl

/-- The answer to the outstanding request leaves STATUS and the engine in agreement. -/
theorem answered_coherent {w : InWait} {m : Mode} {p : Phase} (a : Answer) (h : s.regs.runs m p) (hf : w.fits m p = true) :
    (answered w a s).coherent = true := by
  cases w <;> simp only [InWait.fits, Bool.and_eq_true, decide_eq_true_eq] at hf <;> obtain ⟨rfl, rfl⟩ := hf
  case countByte => exact countAnswered_coherent _ h
  case rewind => exact coherent_of_todo h rfl rfl rfl
  case encodeByte => exact encodeAnswered_coherent _ h
  case magicIn => exact magicAnswered_coherent _ h
  case typeBit => exact typeBitAnswered_coherent _ h
  case symbolField => exact symbolAnswered_coherent _ h
  case walkBit => exact walkAnswered_coherent _ h

/-! ### The acceptance of an OUT transaction -/

theorem nodeBitAccepted_coherent (h : s.regs.runs .compress .headerOut) : (nodeBitAccepted s).coherent = true := by
  unfold nodeBitAccepted
  split
  · split_ifs
    · exact coherent_of_outReq h rfl rfl rfl
    · exact nextNode_coherent _ h
  · exact nextNode_coherent _ h

theorem afterOut_coherent {w : OutWait} {m : Mode} {p : Phase} (h : s.regs.runs m p) (hf : w.fits m p s.eng.encSym = true) :
    (afterOut w s).coherent = true := by
  cases w <;> simp only [OutWait.fits, Bool.and_eq_true, decide_eq_true_eq] at hf
  case codeBit =>
    obtain ⟨rfl, hp⟩ := hf
    exact emitNext_coherent h (by split_ifs at hp ⊢ <;> exact of_decide_eq_true hp)
  case close =>
    subst hf
    exact coherent_of_todo h rfl rfl (by rfl)
  all_goals obtain ⟨rfl, rfl⟩ := hf
  case magicOut => exact coherent_of_todo h rfl rfl rfl
  case nodeBit => exact nodeBitAccepted_coherent h
  case nodeSymbol => exact nextNode_coherent _ h
  case byteOut => exact coherent_of_inReq h rfl rfl rfl

/-- The acceptance of the outstanding transaction leaves STATUS and the engine in agreement. -/
theorem outAccepted_coherent {w : OutWait} {m : Mode} {p : Phase} (h : s.regs.runs m p) (hf : w.fits m p s.eng.encSym = true) :
    (outAccepted w s).coherent = true :=
  afterOut_coherent (s := (s.recordOut (outTx w s)).countBits (outBits w)) h hf

/-! ### The internal events -/

theorem writeNodeEvent_coherent (n : Node) (h : s.regs.runs .decompress .headerIn) : (writeNodeEvent n s).coherent = true := by
  have hset : (s.setNode s.lastSlot n).regs.runs .decompress .headerIn := by rwa [State.setNode_regs]
  unfold writeNodeEvent
  split_ifs
  · exact returnNode_coherent _ hset
  · exact coherent_of_inReq hset rfl rfl rfl

theorem linkEvent_coherent (i : NodeIndex) (h : s.regs.runs .decompress .headerIn) : (linkEvent i s).coherent = true := by
  have hset : ∀ j n, (s.setNode j n).regs.runs .decompress .headerIn := fun j n => by rwa [State.setNode_regs]
  unfold linkEvent
  split
  · exact coherent_of_inReq (hset _ _) rfl rfl rfl
  · exact returnNode_coherent _ (hset _ _)
  · exact returnNode_coherent _ h

theorem startDecode_coherent (h : s.regs.runs .decompress .decode) : (startDecode s).coherent = true := by
  unfold startDecode
  split_ifs
  · exact coherent_of_todo h rfl rfl rfl
  · exact coherent_of_todo h rfl rfl rfl
  · exact coherent_of_inReq h rfl rfl rfl

/-- The phases that a PHASE <- p other than COUNT's goes to, each with the commands that run it. -/
theorem following_cases {m : Mode} {p q : Phase} (hne : q ≠ p) (hq : q = p.following m) :
    (m = .compress ∧ q ∈ [.rewind, .build, .codegen, .magicOut, .headerOut, .encode, .terminate]) ∨
    (m = .decompress ∧ q ∈ [.headerIn, .decode]) ∨ q = .close := by
  subst hq
  cases m <;> cases p <;> simp [Phase.following] at hne ⊢

/-- PHASE <- p leaves STATUS and the engine in agreement. -/
theorem enterPhaseEvent_coherent {m : Mode} {p q : Phase} (h : s.regs.runs m p) (hf : (Internal.enterPhase q).fits m p = true) :
    (enterPhaseEvent q s).coherent = true := by
  obtain ⟨hb, he, hm, -⟩ := h
  have hset : (s.setPhase q).regs.runs m q := ⟨hb, he, hm, rfl⟩
  simp only [Internal.fits] at hf
  split_ifs at hf with hcount
  · subst hcount
    simp only [Bool.and_eq_true, decide_eq_true_eq] at hf
    obtain ⟨rfl, -⟩ := hf
    exact coherent_of_todo hset rfl rfl rfl
  simp only [Bool.and_eq_true, decide_eq_true_eq] at hf
  obtain ⟨hne, hnext⟩ := hf
  rcases following_cases hne hnext with ⟨rfl, hq⟩ | ⟨rfl, hq⟩ | rfl
  · simp only [List.mem_cons, List.not_mem_nil, or_false] at hq
    rcases hq with rfl | rfl | rfl | rfl | rfl | rfl | rfl
    · exact coherent_of_inReq hset rfl rfl rfl
    · exact coherent_of_todo hset rfl rfl rfl
    · exact coherent_of_todo hset rfl rfl rfl
    · exact coherent_of_outReq hset rfl rfl rfl
    · exact coherent_of_outReq hset rfl rfl rfl
    · exact coherent_of_inReq hset rfl rfl rfl
    · exact emitNext_coherent hset rfl
  · simp only [List.mem_cons, List.not_mem_nil, or_false] at hq
    rcases hq with rfl | rfl
    · exact coherent_of_inReq hset rfl rfl rfl
    · exact startDecode_coherent hset
  · exact coherent_of_outReq hset rfl rfl rfl

theorem errorEntry_coherent {e : HuffError} (h : s.regs.runs e.mode e.phase) : (s.errorEntry e).coherent = true := by
  obtain ⟨-, -, hm, hp⟩ := h
  simp [State.coherent, hm, hp]

theorem finishEvent_coherent {m : Mode} (h : s.regs.runs m .close) : (finishEvent s).coherent = true := by
  obtain ⟨-, he, -, hp⟩ := h
  simp [State.coherent, finishEvent, he, hp]

theorem buildEvent_coherent (h : s.regs.runs .compress .build) : (buildEvent s).coherent = true := by
  obtain ⟨-, ⟨a, b, c, d, hr⟩, -⟩ := buildTree_frame s
  have hbuilt : (buildTree s).regs.runs .compress .build := by rw [hr]; exact h
  exact coherent_of_todo hbuilt rfl rfl rfl

theorem codegenEvent_coherent (h : s.regs.runs .compress .codegen) : (codegenEvent s).coherent = true := by
  obtain ⟨⟨l, hw⟩, -⟩ := walk_frame Config.nodeCap s.regs.root [] s.clearCode
  have hgen : (genCodes s).regs.runs .compress .codegen := by rw [genCodes, hw]; exact h
  exact coherent_of_todo hgen rfl rfl rfl

theorem countByteEvent_coherent (b : Byte) (h : s.regs.runs .compress .count) : (countByteEvent b s).coherent = true := by
  have hset : (s.setFreq b.toNat (satInc (s.freqAt b.toNat))).regs.runs .compress .count := by rwa [State.setFreq_regs]
  exact coherent_of_inReq hset rfl rfl rfl

/-- The internal event that is next leaves STATUS and the engine in agreement. -/
theorem internalEvent_coherent {e : Internal} {m : Mode} {p : Phase} (h : s.regs.runs m p) (hf : e.fits m p = true) :
    (internalEvent e s).coherent = true := by
  cases e
  case enterPhase q => exact enterPhaseEvent_coherent h hf
  all_goals simp only [Internal.fits, Bool.and_eq_true, decide_eq_true_eq] at hf
  case finish => exact finishEvent_coherent (hf ▸ h)
  all_goals obtain ⟨rfl, rfl⟩ := hf
  case clearFreq => exact coherent_of_inReq h rfl rfl rfl
  case countByte b => exact countByteEvent_coherent b h
  case build => exact buildEvent_coherent h
  case codegen => exact codegenEvent_coherent h
  case writeNode n => exact writeNodeEvent_coherent n h
  case link i => exact linkEvent_coherent i h
  case finishParse => exact coherent_of_todo (s := finishParseEvent s) h rfl rfl rfl
  case raise err => exact errorEntry_coherent h

/-! ### The steps -/

/-- An engine event keeps the agreement. -/
theorem engineEvent_coherent (h : s.coherent = true) : (engineEvent s).coherent = true := by
  rcases engineEvent_cases s with he | ⟨hb, w, a, as, hp, -, he⟩ | ⟨hb, w, hp, -, he⟩ | ⟨hb, e, hp, ht, he⟩ <;> rw [he]
  · exact h
  · obtain ⟨hr, hf⟩ := runs_of_inReq h hb hp
    exact answered_coherent (s := s.dropAnswers 1) a hr hf
  · obtain ⟨hr, hf⟩ := runs_of_outReq h hb hp
    exact outAccepted_coherent (s := s.spendCredit) hr hf
  · obtain ⟨hr, hf⟩ := runs_of_todo h ht
    exact internalEvent_coherent hr hf

/-- Taking the token's own event keeps the agreement. -/
theorem takeTokenEvent_coherent (h : s.coherent = true) : s.takeTokenEvent.coherent = true := by
  unfold State.takeTokenEvent
  split
  · next e ht =>
    obtain ⟨hr, hf⟩ := runs_of_todo h ht
    exact internalEvent_coherent (e := .raise e) hr hf
  · next n ht =>
    obtain ⟨hr, hf⟩ := runs_of_todo h ht
    exact internalEvent_coherent (e := .writeNode n) hr hf
  · exact h

/-- A request that fits one phase only, outstanding in agreement, says which command runs in which phase. -/
theorem runs_of_awaits {w : InWait} {m : Mode} {p : Phase} (h : s.coherent = true) (ha : s.awaits w = true)
    (hw : ∀ m' p', w.fits m' p' = true → m' = m ∧ p' = p) : s.regs.runs m p := by
  obtain ⟨hb, hp⟩ := awaits_iff.1 ha
  obtain ⟨hr, hf⟩ := runs_of_inReq h hb hp
  obtain ⟨hm, hph⟩ := hw _ _ hf
  rwa [hm, hph] at hr

/-- The type bit's READ and the event after it keep the agreement. -/
theorem typeBitToken_coherent (r : Option (BitVec 1)) (h : s.coherent = true) (ha : s.awaits .typeBit = true) :
    (typeBitAnswered r s).takeTokenEvent.coherent = true :=
  takeTokenEvent_coherent (typeBitAnswered_coherent r (runs_of_awaits h ha (by simp [InWait.fits])))

theorem leafSymbolRead_coherent (v : Symbol) (h : s.coherent = true) : (leafSymbolRead v s).coherent = true := by
  unfold leafSymbolRead
  split_ifs with ha
  · exact takeTokenEvent_coherent (symbolAnswered_coherent _ (runs_of_awaits h ha (by simp [InWait.fits])))
  · exact h

/-- A wire token keeps the agreement. -/
theorem token_coherent {t : State} {i : Instr} (hi : i.port ≠ .command) (h : s.coherent = true) (he : exec i s = .next t) :
    t.coherent = true := by
  cases i
  case magic =>
    simp only [exec, execMagic] at he
    split_ifs at he with ha
    cases he
    exact magicAnswered_coherent _ (runs_of_awaits h ha (by simp [InWait.fits]))
  case treeInternal =>
    simp only [exec, execTreeInternal] at he
    split_ifs at he with ha
    cases he
    exact typeBitToken_coherent _ h ha
  case treeLeaf v =>
    simp only [exec, execTreeLeaf] at he
    split_ifs at he with ha
    cases he
    exact leafSymbolRead_coherent v (typeBitToken_coherent _ h ha)
  all_goals exact absurd rfl hi

/-- A host write keeps the agreement: CMD_ERR and EN are no part of it, and a command is accepted only where the engine is halted. -/
theorem hostWrite_coherent {t : State} {addr : RegAddr} {v : Word} (h : s.coherent = true) (hw : hostWrite addr v s = .next t) :
    t.coherent = true := by
  rcases hostWrite_cases hw with ⟨-, rfl⟩ | ⟨-, -, rfl⟩ | ⟨-, -, rfl⟩ | ⟨-, -, -, rfl⟩ | ⟨-, -, -, rfl⟩ | ⟨-, -, -, rfl⟩ |
      ⟨-, -, hs, rfl⟩
  · unfold writeRegister
    split <;> exact h
  · exact h
  · exact h
  · exact h
  · exact coherent_of_todo (m := .compress) (p := .count) ⟨rfl, rfl, rfl, rfl⟩ rfl rfl rfl
  · exact coherent_of_inReq (m := .decompress) (p := .magicIn) ⟨rfl, rfl, rfl, rfl⟩ rfl rfl rfl
  · obtain ⟨hp, ht⟩ := halted_of_not_busy h hs
    simp [State.coherent, hp, ht]

end

/-- Settles O57: a reset is IDLE with a halted engine, and each other kind of step keeps the agreement. -/
theorem statusAgreesWithTheEngine : Obligations.StatusAgreesWithTheEngine := by
  unfold Obligations.StatusAgreesWithTheEngine
  intro s t h hstep
  rcases step_cases hstep with ⟨rest, -, rfl⟩ | ⟨addr, rest, -, rfl⟩ | ⟨addr, v, rest, -, hw⟩ | ⟨rest, -, rfl⟩ | ⟨-, rfl⟩ |
      ⟨-, i, n, hf, he⟩
  · rfl
  · exact h
  · exact hostWrite_coherent (s := s.withAgenda rest) h hw
  · exact engineEvent_coherent (s := s.withAgenda rest) h
  · exact engineEvent_coherent h
  · exact token_coherent (s := s.dropAnswers n) (fetch_port hf) h he

end Sys2Proof.Machine
end

section
/-!
The memory family's claims, part one: the events of the agenda, and what the host reads through the windows (20_memory.md R71 to R79,
R94, R95).
-/

namespace Sys2Proof.Machine

/-! ### The events of the agenda -/

/-- A word whose bits encode a command decodes to it (30_encoding.md R101). -/
theorem decodeCommand_of_encode {v : Word} {i : Instr} (hi : i.port = .command) (hv : bitView 32 v = encode i) :
    decodeCommand v = .ok i := by
  have hword : v = BitVec.ofNat 32 (ofBits (encode i)) := by rw [← hv, ofNat_ofBits_bitView]
  subst hword
  cases i
  case magic => cases hi
  case treeInternal => cases hi
  case treeLeaf => cases hi
  all_goals rfl

/-- A command's word written to CMD runs the command (46_control.md R225). -/
theorem hostWrite_of_command {addr : RegAddr} {v : Word} {i : Instr} (s : State) (ha : addr.toNat < 4)
    (hd : decodeCommand v = .ok i) : hostWrite addr v s = exec i s := by
  simp only [hostWrite, commandWord, regionOf_cmd.2 ha, hd]

/-- Settles O5: the host write happens, reaches CMD and decodes to the command that its word encodes. -/
theorem commandWriteRunsTheDecodedInstruction : Obligations.CommandWriteRunsTheDecodedInstruction := by
  unfold Obligations.CommandWriteRunsTheDecodedInstruction
  intro s addr v rest i hagenda haddr hport hbits
  rw [step_cons hagenda nofun]
  exact hostWrite_of_command _ haddr (decodeCommand_of_encode hport hbits)

/-- With the agenda empty and no whole token ready the engine takes one event. -/
theorem step_of_no_token {s : State} (ha : s.env.agenda = []) (hf : fetchToken s = none) : step s = .next (engineEvent s) := by
  simp only [step, ha, freeRun, hf]

/-- Settles O7: the three ways in which the engine's side moves by one event. -/
theorem engineTurnIsOneEngineEvent : Obligations.EngineTurnIsOneEngineEvent := by
  unfold Obligations.EngineTurnIsOneEngineEvent
  exact fun s => ⟨fun rest ha => step_cons ha nofun, fun rest ha hc => step_deferred ha hc, step_of_no_token⟩

/-! ### The address map -/

/-- Clearing the low two bits of an address leaves its word (R78). -/
theorem wordBase_and (addr : RegAddr) : wordBase (addr &&& 0xFFFC#16) = wordBase addr := by
  have hword : (addr.toNat &&& 0xFFFC) / 2 ^ 2 = addr.toNat / 2 ^ 2 := by
    rw [Nat.and_div_two_pow, show 0xFFFC / 2 ^ 2 = 2 ^ 14 - 1 from rfl, Nat.and_two_pow_sub_one_eq_mod, Nat.mod_eq_of_lt (by omega)]
  unfold wordBase
  rw [BitVec.toNat_and]
  exact congrArg (4 * ·) hword

/-- Settles O31: the region depends on the word only. -/
theorem lowAddressBitsAreIgnored : Obligations.LowAddressBitsAreIgnored := by
  unfold Obligations.LowAddressBitsAreIgnored
  intro addr
  simp only [regionOf, wordBase_and]

/-- The address of a word in a window. -/
theorem regionOf_word {a : Nat} (hlo : 0x30 ≤ a) (hhi : a < 2 ^ 16) (h4 : a % 4 = 0) :
    regionOf (BitVec.ofNat 16 a) = windowRegion a := by
  have ha : (BitVec.ofNat 16 a).toNat = a := by rw [BitVec.toNat_ofNat, Nat.mod_eq_of_lt hhi]
  have hbase : wordBase (BitVec.ofNat 16 a) = a := by unfold wordBase; omega
  rw [regionOf_high (by omega), hbase]

theorem regionOf_freq {c : Nat} (hc : c < 256) : regionOf (BitVec.ofNat 16 (0x0400 + 4 * c)) = .freq c := by
  rw [regionOf_word (by omega) (by omega) (by omega), windowRegion, if_pos (by omega),
    show (0x0400 + 4 * c - 0x0400) / 4 = c by omega]

theorem regionOf_codeLen {c : Nat} (hc : c < 257) : regionOf (BitVec.ofNat 16 (0x0800 + 4 * c)) = .codeLen c := by
  rw [regionOf_word (by omega) (by omega) (by omega), windowRegion, if_neg (by omega), if_pos (by omega),
    show (0x0800 + 4 * c - 0x0800) / 4 = c by omega]

theorem regionOf_codeBits {c w : Nat} (hc : c < 257) (hw : w < 8) :
    regionOf (BitVec.ofNat 16 (0x1000 + 32 * c + 4 * w)) = .codeBits c w := by
  rw [regionOf_word (by omega) (by omega) (by omega), windowRegion, if_neg (by omega), if_neg (by omega), if_pos (by omega),
    show (0x1000 + 32 * c + 4 * w - 0x1000) / 32 = c by omega, show (0x1000 + 32 * c + 4 * w - 0x1000) % 32 / 4 = w by omega]

theorem regionOf_node {i k : Nat} (hi : i < 513) (hk : k < 4) :
    regionOf (BitVec.ofNat 16 (0x4000 + 16 * i + 4 * k)) = .node i k := by
  rw [regionOf_word (by omega) (by omega) (by omega), windowRegion, if_neg (by omega), if_neg (by omega), if_neg (by omega),
    if_pos (by omega), show (0x4000 + 16 * i + 4 * k - 0x4000) / 16 = i by omega,
    show (0x4000 + 16 * i + 4 * k - 0x4000) % 16 / 4 = k by omega]

/-! ### Host reads -/

/-- Outside BUSY a counter, tree register or table word reads exactly (10_state.md R58). -/
theorem State.whenNotBusy_eq {s : State} (h : s.regs.state ≠ .busy) (v : Word) : s.whenNotBusy v = v := by
  simp [State.whenNotBusy, State.busy, h]

/-- Outside BUSY a host read adds to the observation and does nothing else. -/
theorem hostRead_of_not_busy {s : State} (addr : RegAddr) (h : s.regs.state ≠ .busy) :
    hostRead addr s =
      { s with env := { s.env with hostReads := s.env.hostReads ++ [(addr, s.readWord (regionOf addr))] } } := by
  simp [hostRead, State.busy, h]

/-- No word depends on what is to come or on what the host has read so far. -/
theorem readWord_of_observation (s : State) (es : List Event) (l : List (RegAddr × Word)) (r : Region) :
    ({ s with env := { s.env with agenda := es, hostReads := l } } : State).readWord r = s.readWord r := by
  cases r <;> rfl

/-- Settles O29: a host read writes the observation and the draw number, of which no word depends on the first, nor on the second
outside BUSY. -/
theorem hostReadHasNoSideEffect : Obligations.HostReadHasNoSideEffect := by
  unfold Obligations.HostReadHasNoSideEffect
  intro s addr rest hagenda
  refine ⟨hostRead addr (s.withAgenda rest), step_cons hagenda nofun, rfl, rfl, rfl, ?_, fun hs r => ?_⟩
  · rw [← readWord_of_observation s rest s.env.hostReads (regionOf addr)]
    rfl
  · rw [hostRead_of_not_busy (s := s.withAgenda rest) addr hs]
    exact readWord_of_observation s rest _ r

/-- Settles O35: outside BUSY each of these words reads the value of its register or table entry. -/
theorem countersAndFreqAreReadable : Obligations.CountersAndFreqAreReadable := by
  unfold Obligations.CountersAndFreqAreReadable
  intro s hs
  refine ⟨fun c hc => ?_, ?_⟩
  · rw [regionOf_freq hc]
    exact State.whenNotBusy_eq hs _
  · have hreg := State.whenNotBusy_eq hs
    exact ⟨hreg _, hreg _, hreg _, hreg _, hreg _, hreg _, hreg _⟩

/-! ### Bits of a word made of fields -/

/-- Bits of a word given as a number: they are those of `x` if they are so in the number. -/
theorem ofNat_extract {m lo n x : Nat} (hm : m < 2 ^ 32) (h : m / 2 ^ lo % 2 ^ n = x % 2 ^ n) :
    (BitVec.ofNat 32 m).extractLsb' lo n = BitVec.ofNat n x := by
  apply BitVec.eq_of_toNat_eq
  rw [BitVec.extractLsb'_toNat, BitVec.toNat_ofNat, Nat.mod_eq_of_lt hm, Nat.shiftRight_eq_div_pow, h, BitVec.toNat_ofNat]

/-- Bit 31 of a word given as a number, above a field that does not reach it. -/
theorem ofNat_bit31 (b : Bool) {m : Nat} (hm : m < 2 ^ 31) : (BitVec.ofNat 32 (m + 2 ^ 31 * b.toNat)).getLsbD 31 = b := by
  rw [BitVec.getLsbD_ofNat, Nat.testBit_eq_decide_div_mod_eq]
  cases b <;> simp <;> omega

/-- CODE_LEN: LEN below, PRESENT on top and 0 between (R76). -/
theorem codeLenWord_fields (c : CodeEntry) :
    (codeLenWord c).getLsbD 31 = c.present ∧ (codeLenWord c).extractLsb' 0 9 = c.len ∧ (codeLenWord c).extractLsb' 9 22 = 0#22 := by
  have hp := c.present.toNat_lt
  have hl := c.len.isLt
  have hlen : c.len = BitVec.ofNat 9 c.len.toNat := by simp
  unfold codeLenWord
  refine ⟨?_, ?_, ofNat_extract (x := 0) (by omega) (by omega)⟩
  · rw [Nat.add_comm]
    exact ofNat_bit31 _ (by omega)
  · conv_rhs => rw [hlen]
    exact ofNat_extract (by omega) (by omega)

/-- Register bit 31-k of a word given as 32 bits, the first of them on top, is bit `k` of them. -/
theorem ofBits_getLsbD (f : Nat → Bool) {k : Nat} (hk : k < 32) :
    (BitVec.ofNat 32 (ofBits ((List.range 32).map f))).getLsbD (31 - k) = f k := by
  have hview := congrArg (·[k]?) (bitView_ofNat_ofBits (bs := (List.range 32).map f) (n := 32) (by simp))
  simpa [bitView, List.getElem?_range hk] using hview

/-- Settles O36: the addresses reach the two words of CODE[c], whose bits are the fields. -/
theorem codeWindows : Obligations.CodeWindows := by
  unfold Obligations.CodeWindows
  intro s c hs hc
  refine ⟨?_, fun w k hw hk => ?_⟩
  · rw [regionOf_codeLen hc]
    simp only [State.readWord, State.whenNotBusy_eq hs]
    exact codeLenWord_fields _
  · rw [regionOf_codeBits hc hw]
    simp only [State.readWord, State.whenNotBusy_eq hs]
    exact ofBits_getLsbD _ hk

/-- Word 0 of a NODE entry: LEFT, RIGHT and IS_LEAF, and 0 between (10_state.md R54). -/
theorem nodeWord_links (n : Node) :
    (nodeWord n 0).extractLsb' 0 10 = n.left ∧ (nodeWord n 0).extractLsb' 10 6 = 0#6 ∧
    (nodeWord n 0).extractLsb' 16 10 = n.right ∧ (nodeWord n 0).extractLsb' 26 5 = 0#5 ∧ (nodeWord n 0).getLsbD 31 = n.isLeaf := by
  have hf := n.isLeaf.toNat_lt
  have hl := n.left.isLt
  have hr := n.right.isLt
  have hleft : n.left = BitVec.ofNat 10 n.left.toNat := by simp
  have hright : n.right = BitVec.ofNat 10 n.right.toNat := by simp
  simp only [nodeWord, if_true]
  refine ⟨?_, ofNat_extract (x := 0) (by omega) (by omega), ?_, ofNat_extract (x := 0) (by omega) (by omega),
    ofNat_bit31 _ (by omega)⟩
  · conv_rhs => rw [hleft]
    exact ofNat_extract (by omega) (by omega)
  · conv_rhs => rw [hright]
    exact ofNat_extract (by omega) (by omega)

/-- A field zero-extended to a word is its low bits, and the bits above are 0. -/
theorem setWidth_fields {n : Nat} (v : BitVec n) (hn : n ≤ 32) :
    (v.setWidth 32).extractLsb' 0 n = v ∧ (v.setWidth 32).extractLsb' n (32 - n) = 0#(32 - n) := by
  refine ⟨?_, ?_⟩
  · rw [BitVec.extractLsb'_setWidth_of_le (by omega), BitVec.extractLsb'_eq_self]
  · apply BitVec.eq_of_getLsbD_eq
    intro i hi
    simp [hi]

/-- A slot in use is seen as it is (10_state.md R53). -/
theorem State.nodeSeen_of_lt {s : State} {i : Nat} (h : i < s.regs.nodeCount.toNat) : s.nodeSeen i = s.nodeAt (BitVec.ofNat 10 i) :=
  if_pos h

/-- Settles O37: the addresses reach the four words of NODE[i], whose bits are the fields. -/
theorem nodeWindow : Obligations.NodeWindow := by
  unfold Obligations.NodeWindow
  intro s i hs hi hcount n w
  have hword : ∀ k, k < 4 → w k = nodeWord n k := by
    intro k hk
    show s.readWord (regionOf _) = _
    rw [regionOf_node hi hk]
    simp only [State.readWord, State.whenNotBusy_eq hs, State.nodeSeen_of_lt hcount]
    rfl
  rw [hword 0 (by omega), hword 1 (by omega), hword 2 (by omega), hword 3 (by omega)]
  obtain ⟨hleft, hgap, hright, hgap', hleaf⟩ := nodeWord_links n
  obtain ⟨hsym, hsym'⟩ := setWidth_fields n.symbol (by omega)
  obtain ⟨hhigh, hhigh'⟩ := setWidth_fields (n.weight.extractLsb' 32 8) (by omega)
  have hlow : nodeWord n 2 = n.weight.extractLsb' 0 32 :=
    BitVec.setWidth_eq_extractLsb' (x := n.weight) (w := 32) (by omega)
  exact ⟨hleft, hgap, hright, hgap', hleaf, hsym, hsym', hlow, hhigh, hhigh'⟩

end Sys2Proof.Machine
end

section
/-!
The memory family's claims, part two: the header tokens, which are their READs and the write of their node (43_tree_serializer.md R172
to R174, R180), and that no step stops (20_memory.md R83).
-/

namespace Sys2Proof.Machine

/-! ### A header token at a free slot -/

/-- `s` after the READ of an internal node's type bit at a free slot: the slot is allocated, and the write of its node is next. -/
def internalRead (s : State) : State :=
  (allocate (s.readCoded (some 0#1))).plan (.writeNode (Node.internal 0#40 0#10 0#10))

/-- `s` after the READ of a leaf's type bit at a free slot: the slot is allocated, and the symbol is read next. -/
def leafOpened (s : State) : State := openLeaf s.eng.next (allocate (s.readCoded (some 1#1)))

/-- `s` after the two READs of a leaf with symbol `v`, with the write of its node next. -/
def leafRead (v : Symbol) (s : State) : State := ((leafOpened s).readCoded (some v)).plan (.writeNode (Node.leaf v 0#40))

theorem typeBitAnswered_internal {s : State} (h : s.eng.next.toNat ≠ Config.nodeCap) :
    typeBitAnswered (some 0#1) s = internalRead s := by
  simp only [typeBitAnswered]
  rw [if_neg h]
  rfl

theorem typeBitAnswered_leaf {s : State} (h : s.eng.next.toNat ≠ Config.nodeCap) :
    typeBitAnswered (some 1#1) s = leafOpened s := by
  simp only [typeBitAnswered]
  rw [if_neg h]
  rfl

theorem symbolAnswered_leafOpened {s : State} {v : Symbol} (hv : v.toNat ≤ 256) :
    symbolAnswered (some v) (leafOpened s) = leafRead v s :=
  if_neg (by omega)

/-- TREE_INTERNAL at a free slot is its READ and the write of its node. -/
theorem exec_treeInternal_of_free {s : State} (ha : s.awaits .typeBit = true) (h : s.eng.next.toNat ≠ Config.nodeCap) :
    exec .treeInternal s = .next (writeNodeEvent (Node.internal 0#40 0#10 0#10) (internalRead s)) := by
  refine (if_pos ha).trans ?_
  rw [typeBitAnswered_internal h]
  rfl

theorem leafOpened_awaits {s : State} (hb : s.regs.state = .busy) : (leafOpened s).awaits .symbolField = true :=
  awaits_iff.2 ⟨hb, rfl⟩

/-- TREE_LEAF at a free slot is its two READs and the event after them. -/
theorem exec_treeLeaf_of_free {s : State} (v : Symbol) (ha : s.awaits .typeBit = true) (h : s.eng.next.toNat ≠ Config.nodeCap) :
    exec (.treeLeaf v) s = .next (symbolAnswered (some v) (leafOpened s)).takeTokenEvent := by
  refine (if_pos ha).trans ?_
  rw [typeBitAnswered_leaf h]
  exact congrArg _ (if_pos (leafOpened_awaits (awaits_iff.1 ha).1))

theorem exec_treeLeaf_of_symbol {s : State} {v : Symbol} (ha : s.awaits .typeBit = true) (h : s.eng.next.toNat ≠ Config.nodeCap)
    (hv : v.toNat ≤ 256) : exec (.treeLeaf v) s = .next (writeNodeEvent (Node.leaf v 0#40) (leafRead v s)) := by
  rw [exec_treeLeaf_of_free v ha h, symbolAnswered_leafOpened hv]
  rfl

/-! ### The token and the engine's events -/

/-- The low bit of an answer is what a READ(1) returns. -/
theorem Answer.field_one {a : Answer} {b : Bool} (he : a.eof = false) (hb : a.data.getLsbD 0 = b) :
    a.field 1 = some (BitVec.ofBool b) := by
  have hbit : a.data.setWidth 1 = BitVec.ofBool b := by
    apply BitVec.eq_of_getLsbD_eq
    intro i hi
    obtain rfl : i = 0 := by omega
    rw [BitVec.getLsbD_setWidth, hb]
    simp
  simp [Answer.field, he, hbit]

theorem Answer.field_of_value {a : Answer} (he : a.eof = false) (w : Nat) : a.field w = some (a.data.setWidth w) := by
  simp [Answer.field, he]

/-- A planned internal event happens. -/
theorem engineEvent_plan {s : State} (e : Internal) (hb : s.regs.state = .busy) :
    engineEvent (s.plan e) = internalEvent e (s.plan e) :=
  engineEvent_internal hb rfl rfl

/-- An engine event in a state with an IN request outstanding and its answer there. -/
theorem engineEvent_of_awaits {s : State} {w : InWait} {a : Answer} {as : List Answer} (ha : s.awaits w = true)
    (hs : s.env.inScript = a :: as) : engineEvent s = answered w a (s.dropAnswers 1) := by
  obtain ⟨hb, hp⟩ := awaits_iff.1 ha
  exact engineEvent_in hb hp hs

/-- Taking the answers of a leaf's two READs one after the other. -/
theorem leafOpened_dropAnswers (s : State) : (leafOpened (s.dropAnswers 1)).dropAnswers 1 = leafOpened (s.dropAnswers 2) := by
  simp [leafOpened, State.dropAnswers, openLeaf, allocate, State.forgetNode, State.await]

/-- The event after a symbol's READ is the one that the token takes. -/
theorem engineEvent_symbolAnswered (v : Symbol) {s : State} (hb : s.regs.state = .busy) :
    engineEvent (symbolAnswered (some v) s) = (symbolAnswered (some v) s).takeTokenEvent := by
  simp only [symbolAnswered]
  split_ifs
  · exact engineEvent_plan (.raise .badSymbol) hb
  · exact engineEvent_plan (.writeNode (Node.leaf v 0#40)) hb

/-- Settles O8: each engine event is computed from the one before, and the last is the token's own event. -/
theorem tokenIsItsEngineEvents : Obligations.TokenIsItsEngineEvents := by
  unfold Obligations.TokenIsItsEngineEvents
  intro s a as hscript heof
  refine ⟨fun ha hdata => ?_, fun ha hnext hbit => ?_, fun ha hnext hbit b bs has hbeof => ?_⟩
  · have hread : engineEvent s = magicAnswered (some Config.magic) (s.dropAnswers 1) := by
      rw [engineEvent_of_awaits ha hscript, answered, Answer.field_of_value heof, hdata]
      rfl
    exact (exec_magic_of_awaits (s := s.dropAnswers 1) ha).trans (congrArg _ hread.symm)
  · have hread : engineEvent s = internalRead (s.dropAnswers 1) := by
      rw [engineEvent_of_awaits ha hscript, answered, Answer.field_one heof hbit]
      exact typeBitAnswered_internal (s := s.dropAnswers 1) hnext
    have hwrite : engineRun 2 s = writeNodeEvent (Node.internal 0#40 0#10 0#10) (internalRead (s.dropAnswers 1)) := by
      simp only [engineRun, hread]
      exact engineEvent_internal (s := internalRead (s.dropAnswers 1)) (awaits_iff.1 ha).1 rfl rfl
    rw [exec_treeInternal_of_free (s := s.dropAnswers 1) ha hnext, hwrite]
  · subst has
    have hopen : engineEvent s = leafOpened (s.dropAnswers 1) := by
      rw [engineEvent_of_awaits ha hscript, answered, Answer.field_one heof hbit]
      exact typeBitAnswered_leaf (s := s.dropAnswers 1) hnext
    have hread : engineEvent (leafOpened (s.dropAnswers 1)) =
        symbolAnswered (some (b.data.setWidth 9)) (leafOpened (s.dropAnswers 2)) := by
      have hscript' : (leafOpened (s.dropAnswers 1)).env.inScript = b :: bs := congrArg (List.drop 1) hscript
      rw [engineEvent_of_awaits (leafOpened_awaits (s := s.dropAnswers 1) (awaits_iff.1 ha).1) hscript', answered,
        Answer.field_of_value hbeof, leafOpened_dropAnswers]
    rw [exec_treeLeaf_of_free (s := s.dropAnswers 2) _ ha hnext]
    simp only [engineRun, hopen, hread]
    rw [engineEvent_symbolAnswered (s := leafOpened (s.dropAnswers 2)) _ (awaits_iff.1 ha).1]

/-! ### What a header token writes -/

/-- The slot just allocated is the one that was next. -/
theorem lastSlot_allocate (s : State) : (allocate s).lastSlot = s.eng.next := by
  simp [State.lastSlot, allocate]

/-- Settles O16: the READ, the allocation and the write of the node, whose frame is that of one slot. -/
theorem treeInternalTakesTheNextSlot : Obligations.TreeInternalTakesTheNextSlot := by
  unfold Obligations.TreeInternalTakesTheNextSlot
  intro s ha hnext
  obtain ⟨hframe, hregs, heng, hnode⟩ := writeNodeEvent_frame (Node.internal 0#40 0#10 0#10) (internalRead s)
  have hslot : (internalRead s).lastSlot = s.eng.next := lastSlot_allocate _
  rw [hslot] at hnode heng
  refine ⟨_, exec_treeInternal_of_free ha (Nat.ne_of_lt hnext), hregs, heng, hframe.2.1, ?_, fun j hj => ?_,
    hframe.freqAt, hframe.codeAt⟩
  · rw [hnode, State.setNode_nodeAt_self _ hnext]
    rfl
  · rw [hnode, State.setNode_nodeAt_of_ne _ hj]
    rfl

section
variable (v : Symbol) (s : State)

/-- A leaf's READs count ten bits, its slot and the leaf (R172, R174). -/
theorem leafRead_regs : (leafRead v s).regs =
    { s.regs with bitCount := s.regs.bitCount + 10#32, nodeCount := s.eng.next + 1#10, leafCount := s.regs.leafCount + 1#10 } := by
  simp [leafRead, leafOpened, openLeaf, allocate, BitVec.add_assoc]

theorem leafRead_eng : (leafRead v s).eng =
    { s.eng with next := s.eng.next + 1#10, pending := none, todo := some (.writeNode (Node.leaf v 0#40)) } := rfl

theorem leafRead_env : (leafRead v s).env =
    { s.env with inTrace := s.env.inTrace ++ [.read 1 (some 1#32), .read 9 (some (v.setWidth 32))] } := by
  simp [leafRead, leafOpened, openLeaf, allocate]

theorem leafRead_nodeAt_of_ne {j : NodeIndex} (hj : j ≠ s.eng.next) : (leafRead v s).nodeAt j = s.nodeAt j :=
  State.forgetNode_nodeAt_of_ne (allocate (s.readCoded (some 1#1))) hj

end

/-! ### The link of a node to the node that waits for it -/

/-- In the parse's invariant, before a link, the node on top of STACK is a slot of NODE. -/
theorem top_lt_of_parseOk {s : State} {i j : NodeIndex} {rest : List Frame} (hb : s.regs.state = .busy) (hp : s.eng.pending = none)
    (ht : s.eng.todo = some (.link i)) (hok : s.parseOk = true) (hst : s.eng.stack = .left j :: rest ∨ s.eng.stack = .right j :: rest) :
    j.toNat < Config.nodeCap := by
  simp only [State.parseOk, hb, hp, ht, State.slotsOk, Bool.and_eq_true, decide_eq_true_eq] at hok
  obtain ⟨-, ⟨hcap, -⟩, hstack⟩ := hok
  have hj : j.toNat < s.eng.next.toNat := by
    rcases hst with hst | hst <;>
      · simp only [hst, parseStack, Bool.and_eq_true, decide_eq_true_eq] at hstack
        exact hstack.1
  omega

/-- A link writes the node on top of STACK only. -/
theorem linkEvent_nodeAt_of_ne {s : State} {i j k : NodeIndex} {rest : List Frame} (hk : k ≠ j)
    (hst : s.eng.stack = .left j :: rest ∨ s.eng.stack = .right j :: rest) : (linkEvent i s).nodeAt k = s.nodeAt k := by
  rcases hst with hst | hst
  · rw [linkEvent_left i hst]
    exact State.setNode_nodeAt_of_ne s hk _
  · rw [linkEvent_right i hst]
    exact State.setNode_nodeAt_of_ne s hk _

/-- Settles O17: the READs and the write of the leaf, whose frame is that of one slot, and the link of a node by the kind of the frame
on top of STACK. -/
theorem treeLeafTakesTheNextSlot : Obligations.TreeLeafTakesTheNextSlot := by
  unfold Obligations.TreeLeafTakesTheNextSlot
  refine ⟨fun s v ha hnext hv => ?_, ?_⟩
  · obtain ⟨hframe, hregs, heng, hnode⟩ := writeNodeEvent_frame (Node.leaf v 0#40) (leafRead v s)
    have hslot : (leafRead v s).lastSlot = s.eng.next := lastSlot_allocate _
    rw [hslot] at hnode heng
    refine ⟨_, exec_treeLeaf_of_symbol ha (Nat.ne_of_lt hnext) hv, hregs.trans (leafRead_regs v s), ?_,
      hframe.2.1.trans (leafRead_env v s), ?_, fun j hj => ?_, hframe.freqAt, hframe.codeAt⟩
    · rw [heng]
      refine (if_pos rfl).trans ?_
      simp only [leafRead_eng, Engine.mk.injEq, true_and, and_true]
      exact apply_ite some _ _ _
    · rw [hnode, State.setNode_nodeAt_self _ hnext]
      rfl
    · rw [hnode, State.setNode_nodeAt_of_ne _ hj, leafRead_nodeAt_of_ne v s hj]
  · intro s i j rest hb hp ht hok t
    have hlink : t = linkEvent i s := engineEvent_internal hb hp ht
    rw [hlink]
    obtain ⟨hframe, hregs⟩ := linkEvent_frame i s
    refine ⟨fun hst => ?_, fun hst => ?_, fun hst => ?_⟩
    · have hj := top_lt_of_parseOk hb hp ht hok (.inl hst)
      rw [linkEvent_left i hst]
      exact ⟨State.setNode_nodeAt_self s hj _, rfl⟩
    · have hj := top_lt_of_parseOk hb hp ht hok (.inr hst)
      rw [linkEvent_right i hst]
      exact ⟨State.setNode_nodeAt_self s hj _, by simp [hp, apply_ite some]⟩
    · exact ⟨fun k hk => linkEvent_nodeAt_of_ne hk hst, hregs, hframe.2.1, hframe.freqAt, hframe.codeAt⟩

/-! ### No step stops -/

/-- A command answers a next state, in every state. -/
theorem exec_command_next {i : Instr} (hi : i.port = .command) (s : State) : ∃ t, exec i s = .next t := by
  cases i
  case nop => exact ⟨_, rfl⟩
  case compress => simp only [exec, execCompress]; split <;> exact ⟨_, rfl⟩
  case decompress => simp only [exec, execDecompress]; split <;> exact ⟨_, rfl⟩
  case clear => simp only [exec, execClear]; split <;> exact ⟨_, rfl⟩
  all_goals cases hi

theorem hostWrite_next (addr : RegAddr) (v : Word) (s : State) : ∃ t, hostWrite addr v s = .next t := by
  unfold hostWrite
  split
  · exact ⟨_, rfl⟩
  · split
    · next hd => exact exec_command_next (decodeCommand_ok hd).1 s
    · exact ⟨_, rfl⟩

/-- A token that is fetched has its READ outstanding, so it answers a next state. -/
theorem exec_fetched_next {s : State} {i : Instr} {n : Nat} (h : fetchToken s = some (i, n)) :
    ∃ t, exec i (s.dropAnswers n) = .next t := by
  rcases fetchToken_cases h with ⟨rfl, -, ha⟩ | ⟨rfl, -, ha, hn⟩ | ⟨v, rfl, -, ha, hn⟩
  · exact ⟨_, exec_magic_of_awaits (s := s.dropAnswers n) ha⟩
  · exact ⟨_, exec_treeInternal_of_free (s := s.dropAnswers n) ha hn⟩
  · exact ⟨_, exec_treeLeaf_of_free (s := s.dropAnswers n) v ha hn⟩

/-- Every step of every state answers a next state. -/
theorem step_next (s : State) : ∃ t, step s = .next t := by
  cases ha : s.env.agenda with
  | nil =>
    cases hf : fetchToken s with
    | none => exact ⟨_, step_of_no_token ha hf⟩
    | some token =>
      obtain ⟨t, ht⟩ := exec_fetched_next hf
      exact ⟨t, by simp only [step, ha, freeRun, hf, ht]⟩
  | cons e rest =>
    cases e with
    | hostRead addr => exact ⟨_, step_cons ha nofun⟩
    | hostWrite addr v =>
      obtain ⟨t, ht⟩ := hostWrite_next addr v (s.withAgenda rest)
      exact ⟨t, (step_cons ha nofun).trans ht⟩
    | engine => exact ⟨_, step_cons ha nofun⟩
    | reset =>
      cases hc : s.closing with
      | false => exact ⟨_, step_reset ha hc⟩
      | true => exact ⟨_, step_deferred ha hc⟩

/-- Settles O20: each token tests for its READ first, and a step presents a token only where that is outstanding. -/
theorem tokenWithoutItsReadFaults : Obligations.TokenWithoutItsReadFaults := by
  unfold Obligations.TokenWithoutItsReadFaults
  refine ⟨fun s v => ⟨fun h => ?_, fun h => ⟨?_, ?_⟩⟩, step_next⟩
  · simp [exec, execMagic, h]
  · simp [exec, execTreeInternal, h]
  · simp [exec, execTreeLeaf, h]

end Sys2Proof.Machine
end

section
/-!
The memory family's claims, part three: the READs of a whole phase, COUNT over a byte string (40_freq_counter.md R131 to R136) and PARSE
over a tree's header (43_tree_serializer.md R172 to R182).
-/

namespace Sys2Proof.Machine

/-! ### One byte counted -/

/-- A counter goes up by one and saturates (R133). -/
theorem satInc_toNat (v : Word) : (satInc v).toNat = min (v.toNat + 1) (2 ^ 32 - 1) := by
  have hlt := v.isLt
  unfold satInc Config.countMax
  split
  · next hv => rw [hv]; rfl
  · bv_omega

/-- The counter of a byte after a byte has been counted. -/
theorem countByte_freqAt (b c : Byte) (s : State) :
    (countByte b s).freqAt c.toNat = if c = b then satInc (s.freqAt b.toNat) else s.freqAt c.toNat := by
  simp only [countByte, State.countSym_freqAt]
  split
  · next hcb => rw [hcb]; exact State.setFreq_freqAt_self s b.isLt _
  · next hcb => exact State.setFreq_freqAt_of_ne s (fun he => hcb (BitVec.eq_of_toNat_eq he)) _

/-- `t` is `s` after the READs and the counts of the bytes `bs`, with the answers `as` left: what COUNT writes and what it leaves. -/
structure Counted (s : State) (bs : List Byte) (as : List Answer) (t : State) : Prop where
  freq : ∀ c : Byte, (t.freqAt c.toNat).toNat = min ((s.freqAt c.toNat).toNat + bs.count c) (2 ^ 32 - 1)
  regs : t.regs = { s.regs with symCount := s.regs.symCount + BitVec.ofNat 32 bs.length }
  eng : t.eng = s.eng
  code : t.tables.code = s.tables.code
  codeFill : t.tables.codeFill = s.tables.codeFill
  node : t.tables.node = s.tables.node
  env : t.env = { s.env with inScript := as
                             inTrace := s.env.inTrace ++ bs.map fun b => .read 8 (some (b.setWidth 32)) }

theorem Counted.refl (s : State) : Counted s [] s.env.inScript s where
  freq c := by have := (s.freqAt c.toNat).isLt; simp; omega
  regs := by simp
  eng := rfl
  code := rfl
  codeFill := rfl
  node := rfl
  env := by simp

theorem Counted.trans {s t u : State} {bs cs : List Byte} {as as' : List Answer} (h : Counted s bs as t) (k : Counted t cs as' u) :
    Counted s (bs ++ cs) as' u where
  freq c := by rw [k.freq, h.freq, List.count_append]; omega
  regs := by simp [k.regs, h.regs, BitVec.add_assoc, BitVec.ofNat_add]
  eng := k.eng.trans h.eng
  code := k.code.trans h.code
  codeFill := k.codeFill.trans h.codeFill
  node := k.node.trans h.node
  env := by simp [k.env, h.env]

/-- The engine stands at a READ(8) of pass 1. -/
def State.atCountByte (s : State) : Prop :=
  s.regs.state = .busy ∧ s.eng.pending = some (.inReq .countByte) ∧ s.eng.todo = none

theorem Counted.atCountByte {s t : State} {bs : List Byte} {as : List Answer} (h : Counted s bs as t) (hs : s.atCountByte) :
    t.atCountByte := by
  unfold State.atCountByte
  rw [h.regs, h.eng]
  exact hs

/-- The two events of a byte: its READ and the update of its counter. -/
theorem count_one {s : State} {x : Answer} {b : Byte} {as : List Answer} (hs : s.atCountByte) (hscript : s.env.inScript = x :: as)
    (hx : x.field 8 = some b) : Counted s [b] as (engineRun 2 s) := by
  obtain ⟨hb, hp, ht⟩ := hs
  have hread : engineEvent s = ((s.dropAnswers 1).readRaw (some b)).plan (.countByte b) := by
    rw [engineEvent_in hb hp hscript, answered, hx]
    rfl
  have hcount : engineRun 2 s = countByteEvent b (((s.dropAnswers 1).readRaw (some b)).plan (.countByte b)) := by
    simp only [engineRun, hread]
    exact engineEvent_plan _ (by exact hb)
  rw [hcount]
  refine ⟨fun c => ?_, ?_, ?_, ?_, ?_, ?_, ?_⟩
  · have hbound := (s.freqAt c.toNat).isLt
    simp only [countByteEvent, State.await_freqAt, countByte_freqAt, State.plan_freqAt, State.readRaw_freqAt,
      State.dropAnswers_freqAt, List.count_singleton, beq_iff_eq]
    split
    · next hcb => rw [hcb, satInc_toNat, if_pos rfl]
    · next hcb => rw [if_neg (Ne.symm hcb)]; omega
  · simp [countByteEvent, countByte]
  · simp [countByteEvent, countByte, ← hp, ← ht]
  · simp [countByteEvent, countByte]
  · simp [countByteEvent, countByte]
  · simp [countByteEvent, countByte]
  · simp [countByteEvent, countByte, hscript]

/-- COUNT over the answers that give the bytes `bs`. -/
theorem count_loop (bs : List Byte) : ∀ (s : State) (q as : List Answer), s.atCountByte → s.env.inScript = q ++ as →
    gives (bs.map (writeTx 8)) q = true → Counted s bs as (engineRun (2 * bs.length) s) := by
  induction bs with
  | nil =>
    intro s q as _ hscript hq
    obtain rfl := List.isEmpty_iff.1 hq
    obtain rfl : s.env.inScript = as := hscript
    exact Counted.refl s
  | cons b bs ih =>
    intro s q as hs hscript hq
    obtain ⟨x, q, rfl, hx, hq⟩ := (gives_cons (by omega) _ _ _).1 hq
    have hone := count_one hs hscript (hx.trans (by rw [BitVec.setWidth_eq]))
    have hrest := ih _ q as (hone.atCountByte hs) (by rw [hone.env]; rfl) hq
    rw [List.length_cons, show 2 * (bs.length + 1) = 2 + 2 * bs.length by omega, run_add]
    exact hone.trans hrest

/-! ### The whole of COUNT -/

/-- COUNT begins: PHASE <- COUNT and the clearing of FREQ, after which the first READ(8) is outstanding. -/
theorem count_begin {s : State} (hb : s.regs.state = .busy) (hp : s.eng.pending = none)
    (ht : s.eng.todo = some (.enterPhase .count)) : engineRun 2 s = clearFreqEvent ((s.setPhase .count).plan .clearFreq) := by
  simp only [engineRun, engineEvent_enter hb hp ht]
  exact engineEvent_plan (s := s.setPhase .count) _ hb

/-- COUNT ends: the READ(8) that returns EOF and PHASE <- REWIND, after which the RESET is outstanding. -/
theorem count_end {s : State} {a : Answer} {as : List Answer} (hs : s.atCountByte) (hscript : s.env.inScript = a :: as)
    (ha : a.eof = true) :
    engineRun 2 s = (((s.dropAnswers 1).recordIn (.read 8 none)).setPhase .rewind).await (.inReq .rewind) := by
  obtain ⟨hb, hp, -⟩ := hs
  have hread : engineEvent s = ((s.dropAnswers 1).recordIn (.read 8 none)).plan (.enterPhase .rewind) := by
    rw [engineEvent_in hb hp hscript, answered, show a.field 8 = none from if_pos ha]
    rfl
  simp only [engineRun, hread]
  exact engineEvent_plan _ (by exact hb)

/-- Settles O38: COUNT begins with FREQ cleared, counts each byte, and ends at the EOF. -/
theorem countPhaseCountsEveryByte : Obligations.CountPhaseCountsEveryByte := by
  unfold Obligations.CountPhaseCountsEveryByte
  intro s bs q a as hb hp ht hscript hq ha t
  obtain ⟨s0, hs0⟩ : ∃ s0, s0 = clearFreqEvent ((s.setPhase .count).plan .clearFreq) := ⟨_, rfl⟩
  have hat : s0.atCountByte := by rw [hs0]; exact ⟨hb, rfl, rfl⟩
  have hloop := count_loop bs s0 q (a :: as) hat (by rw [hs0]; exact hscript) hq
  obtain ⟨u, hu⟩ : ∃ u, u = engineRun (2 * bs.length) s0 := ⟨_, rfl⟩
  rw [← hu] at hloop
  have hrun : t = (((u.dropAnswers 1).recordIn (.read 8 none)).setPhase .rewind).await (.inReq .rewind) := by
    show engineRun _ s = _
    rw [show 2 * bs.length + 4 = 2 + (2 * bs.length + 2) by omega, run_add, count_begin hb hp ht, ← hs0, run_add, ← hu]
    exact count_end (hloop.atCountByte hat) (by rw [hloop.env]) ha
  rw [hrun]
  refine ⟨fun c => ?_, ?_, ?_, hloop.code.trans ?_, hloop.codeFill.trans ?_, hloop.node.trans ?_, ?_⟩
  · refine (hloop.freq c).trans ?_
    rw [hs0]
    simp [clearFreqEvent]
  · simp [hloop.regs, hs0, clearFreqEvent]
  · simp [hloop.eng, hs0, clearFreqEvent]
  · rw [hs0]; rfl
  · rw [hs0]; rfl
  · rw [hs0]; rfl
  · simp [hloop.env, hs0, clearFreqEvent]

/-! ### The whole of PARSE -/

theorem CodeTree.symbolsOk_iff {tr : CodeTree} : tr.symbolsOk = true ↔ ∀ v ∈ tr.symbols, v.toNat ≤ 256 := by
  simp [CodeTree.symbolsOk]

/-- With no node waiting, the node returned completes the parse: the next event sets ROOT and TREE_DEPTH (R180). -/
theorem engineEvent_returnNode_root {s : State} (i : NodeIndex) (hb : s.regs.state = .busy) (hst : s.eng.stack = []) :
    engineEvent (returnNode i s) = finishParseEvent (s.plan .finishParse) := by
  rw [returnNode_eq, if_pos hst]
  exact engineEvent_plan _ hb

/-- Settles O49: the parse of the header from slot 0 leaves the tree in pre-order, and the event after it sets ROOT and TREE_DEPTH. -/
theorem parseRebuildsTheTree : Obligations.ParseRebuildsTheTree := by
  unfold Obligations.ParseRebuildsTheTree
  intro s tr q as hb hp hnext hst hok hsize hscript hq t
  obtain ⟨u, l, hrun, hust, hregs, -, henv, hl, ⟨m, htab⟩, hpre, -⟩ :=
    parse_loop tr 0 [] s q as hb hp hnext hst (CodeTree.symbolsOk_iff.1 hok) (by omega) hscript hq
  have hpos := size_pos tr
  have ht : t = finishParseEvent (u.plan .finishParse) := by
    show engineRun _ s = _
    rw [show q.length + 2 * tr.size = q.length + (2 * tr.size - 1) + 1 by omega, run_add, hrun]
    exact engineEvent_returnNode_root _ (by rw [hregs]; exact hb) hust
  have hnode : ∀ i, t.nodeAt i = u.nodeAt i := fun i => by rw [ht]; rfl
  have htpre : t.holdsPreorder tr 0 := holdsPreorder_congr tr 0 (fun n _ _ => hnode _) hpre
  have hdepth : t.regs.treeDepth.toNat = tr.depth := by
    rw [ht]
    have hds := depth_size tr
    exact setRoot_treeDepth (s := u.plan .finishParse)
      ((holds_congr (s := u) (t := u.plan .finishParse) (fun _ => rfl) tr _).2 (holdsPreorder_holds tr 0 hpre)) (by omega)
  have htregs : t.regs = { u.regs with root := 0#10, treeDepth := t.regs.treeDepth } := by rw [ht]; rfl
  have htenv : t.env = u.env := by rw [ht]; rfl
  have httab : t.tables = u.tables := by rw [ht]; rfl
  refine ⟨holdsPreorder_holds tr 0 htpre, htpre, ?_, ?_, ?_, ?_, ?_, ?_, ?_, hdepth, ?_, ?_, ?_,
    fun n hn => holdsPreorder_weight tr 0 htpre n (by omega) (by omega), fun c => ?_, fun c => ?_⟩
  · rw [htenv, henv]
  · rw [htenv, henv, inStream_append, hl]
  · rw [htenv, henv]
  · rw [htregs, hregs]
    simp only [Nat.zero_add, BitVec.toNat_ofNat]
    omega
  · rw [htregs, hregs]
  · rw [htregs, hregs]
  · rw [htregs]
  · rw [htregs, hregs]
  · rw [ht]; rfl
  · rw [ht]; rfl
  · exact State.freqAt_congr (by rw [httab, htab]) (by rw [httab, htab]) c
  · exact State.codeAt_congr (by rw [httab, htab]) (by rw [httab, htab]) c

end Sys2Proof.Machine
end

section
/-!
The encoding family's claims, part one: the three ports' decoders and the encoder undo each other, and the legal command words
(30_encoding.md R100 to R102, R111 to R114).
-/

namespace Sys2Proof.Machine

/-! ### Decoding an encoding -/

/-- Settles O1: each instruction's encoding is a word of its port or a header token, which the decoder of that port reads back. -/
theorem decodeOfEncodeIsTheInstruction : Obligations.DecodeOfEncodeIsTheInstruction := by
  unfold Obligations.DecodeOfEncodeIsTheInstruction
  intro i rest
  cases i with
  | nop => exact decode_command 0#32 rest
  | compress => exact decode_command 1#32 rest
  | decompress => exact decode_command 2#32 rest
  | clear => exact decode_command 3#32 rest
  | magic => exact decode_magic Config.magic rest
  | treeInternal => rfl
  | treeLeaf v => exact decode_leaf v rest

/-- Settles O4: the words are the encodings of the instructions, most significant bit first. -/
theorem specWordsDecodeToTheirInstructions : Obligations.SpecWordsDecodeToTheirInstructions := by
  unfold Obligations.SpecWordsDecodeToTheirInstructions
  exact ⟨decodeCommand_of_encode rfl rfl, decodeCommand_of_encode rfl rfl, decodeCommand_of_encode rfl rfl,
    decodeCommand_of_encode rfl rfl, if_pos rfl, rfl, decode_leaf 65#9 [], decode_leaf 256#9 []⟩

/-! ### Encoding what was decoded -/

/-- Bits that are long enough begin with the bit view of a word (20_memory.md R90). -/
theorem exists_bitView_append {n : Nat} {bs : List Bool} (h : n ≤ bs.length) :
    ∃ (v : BitVec n) (r : List Bool), bs = bitView n v ++ r := by
  refine ⟨BitVec.ofNat n (ofBits (bs.take n)), bs.drop n, ?_⟩
  rw [bitView_ofNat_ofBits (List.length_take_of_le h), List.take_append_drop]

/-- A port of 32-bit words accepts no fewer bits (30_encoding.md R100, R111). -/
theorem length_of_word_decoded {p : Port} {bs : List Bool} {x : Instr × List Bool} (h : decode p bs = .ok x)
    (hp : p ≠ .header) : 32 ≤ bs.length := by
  by_contra hlt
  have hshort : decode p bs = .error .tooShort := by
    cases p with
    | command => exact if_pos (by omega)
    | magic => exact if_pos (by omega)
    | header => exact absurd rfl hp
  rw [hshort] at h
  cases h

/-- What a word's decoder hands back with the rest of the bits is what it reads from the word. -/
theorem eq_ok_of_map_rest {x : Except Reject Instr} {r rest : List Bool} {i : Instr} (h : x.map (·, r) = .ok (i, rest)) :
    x = .ok i ∧ r = rest := by
  cases x with
  | error e => cases h
  | ok j => cases h; exact ⟨rfl, rfl⟩

/-- The bits that the header's decoder accepts are those of a token (30_encoding.md R112, R114). -/
theorem decodeHeader_ok {bs : List Bool} {i : Instr} {rest : List Bool} (h : decodeHeader bs = .ok (i, rest)) :
    i.port = .header ∧ bs = encode i ++ rest := by
  match bs with
  | [] => cases h
  | false :: r => cases h; exact ⟨rfl, rfl⟩
  | true :: r =>
    have hlen : 9 ≤ r.length := by
      by_contra hlt
      rw [show decodeHeader (true :: r) = .error .tooShort from if_pos (by omega)] at h
      cases h
    obtain ⟨v, r, rfl⟩ := exists_bitView_append hlen
    rw [decode_leaf] at h
    cases h
    exact ⟨rfl, rfl⟩

/-- Settles O2: on a word port the first 32 bits are an instruction's word, on the header port the bits begin with a token. -/
theorem acceptedBitsAreAnEncoding : Obligations.AcceptedBitsAreAnEncoding := by
  unfold Obligations.AcceptedBitsAreAnEncoding
  intro p bs i rest h
  cases p with
  | command =>
    obtain ⟨v, r, rfl⟩ := exists_bitView_append (length_of_word_decoded h nofun)
    rw [decode_command] at h
    obtain ⟨hv, rfl⟩ := eq_ok_of_map_rest h
    obtain ⟨hport, hbits, -⟩ := decodeCommand_ok hv
    exact ⟨hport, by rw [hbits]⟩
  | magic =>
    obtain ⟨v, r, rfl⟩ := exists_bitView_append (length_of_word_decoded h nofun)
    rw [decode_magic] at h
    obtain ⟨hv, rfl⟩ := eq_ok_of_map_rest h
    obtain ⟨hport, hbits⟩ := decodeMagic_ok hv
    exact ⟨hport, by rw [hbits]⟩
  | header => exact decodeHeader_ok h

/-! ### The legal command words -/

/-- The legal words are those below 4 (30_encoding.md R101). -/
theorem decodeCommand_ok_iff {v : Word} : (∃ i, decodeCommand v = .ok i) ↔ v.toNat < 4 := by
  refine ⟨fun ⟨_, hi⟩ => (decodeCommand_ok hi).2.2, fun hlt => ?_⟩
  cases hd : decodeCommand v with
  | ok i => exact ⟨i, rfl⟩
  | error r => exact absurd hlt (Nat.not_lt.2 (four_le_of_decodeCommand_error hd))

/-- The illegal words are the others (30_encoding.md R102). -/
theorem decodeCommand_error_iff {v : Word} : (∃ r, decodeCommand v = .error r) ↔ 4 ≤ v.toNat := by
  refine ⟨fun ⟨_, hr⟩ => four_le_of_decodeCommand_error hr, fun hle => ?_⟩
  cases hd : decodeCommand v with
  | ok i => exact absurd (decodeCommand_ok hd).2.2 (Nat.not_lt.2 hle)
  | error r => exact ⟨r, rfl⟩

/-- A word is at least 4 exactly if its OPCODE is or a bit of RSVD is 1 (30_encoding.md R100, R102). -/
theorem four_le_iff_fields (v : Word) : 4 ≤ v.toNat ↔ 4 ≤ (v.extractLsb' 0 4).toNat ∨ v.extractLsb' 4 28 ≠ 0#28 := by
  have hopcode : (v.extractLsb' 0 4).toNat = v.toNat % 16 := by simp
  have hrsvd : (v.extractLsb' 4 28).toNat = v.toNat / 16 := by
    rw [BitVec.extractLsb'_toNat, Nat.shiftRight_eq_div_pow]
    omega
  rw [Ne, ← BitVec.toNat_inj, hopcode, hrsvd, BitVec.toNat_ofNat]
  omega

/-- An illegal word written to CMD sets CMD_ERR and has no other effect (46_control.md R229). -/
theorem hostWrite_of_illegal {addr : RegAddr} {v : Word} (s : State) (ha : addr.toNat < 4)
    (hv : 4 ≤ v.toNat) : hostWrite addr v s = .next s.setCmdErr := by
  obtain ⟨r, hr⟩ := decodeCommand_error_iff.2 hv
  simp only [hostWrite, commandWord, regionOf_cmd.2 ha, hr, illegalWord]

/-- Settles O3: legal and illegal words are split at 4, which the fields OPCODE and RSVD say too, and the host write of an illegal
word is the next event whatever the state. -/
theorem onlyFourCommandWordsAreLegal : Obligations.OnlyFourCommandWordsAreLegal := by
  unfold Obligations.OnlyFourCommandWordsAreLegal
  intro v
  refine ⟨decodeCommand_ok_iff, decodeCommand_error_iff.trans (four_le_iff_fields v), fun hv s addr rest hagenda haddr => ?_⟩
  rw [step_cons hagenda nofun]
  exact hostWrite_of_illegal (s.withAgenda rest) haddr hv

end Sys2Proof.Machine
end

section
/-!
The encoding family's claims, part two: a wire token whose answers are ready is fetched whole and run (30_encoding.md R119;
43_tree_serializer.md R174, 45_decoder.md R207; log 10).
-/

namespace Sys2Proof.Machine

/-! ### The token in the answers -/

/-- The first answer, if it is no EOF, gives the first bits. -/
theorem answerBits_cons {a : Answer} (he : a.eof = false) (w : Nat) (ws : List Nat) (as : List Answer) :
    answerBits (w :: ws) (a :: as) = (answerBits ws as).map (bitView w (a.data.setWidth w) ++ ·) := by
  simp only [answerBits, Answer.field_of_value he]

/-- The bit view of a READ(1) is the low bit of its answer. -/
theorem bitView_setWidth_one {v : Word} {b : Bool} (hb : v.getLsbD 0 = b) : bitView 1 (v.setWidth 1) = [b] := by
  rw [bitView_succ, BitVec.getLsbD_setWidth, hb]
  rfl

/-- Answers that hold an instruction's encoding hold the instruction. -/
theorem tokenIn_of_encode {i : Instr} {ws : List Nat} {as : List Answer} (h : answerBits ws as = some (encode i)) :
    tokenIn i.port ws as = some (i, ws.length) := by
  have hdecode := decodeOfEncodeIsTheInstruction i []
  rw [List.append_nil] at hdecode
  simp only [tokenIn, h, hdecode]

theorem tokenIn_magic {a : Answer} {as : List Answer} (he : a.eof = false) (ha : a.data = Config.magic) :
    tokenIn .magic [32] (a :: as) = some (.magic, 1) := by
  refine tokenIn_of_encode (i := .magic) ?_
  rw [answerBits_cons he, ha]
  rfl

theorem tokenIn_treeInternal {a : Answer} {as : List Answer} (he : a.eof = false) (hb : a.data.getLsbD 0 = false) :
    tokenIn .header [1] (a :: as) = some (.treeInternal, 1) := by
  refine tokenIn_of_encode (i := .treeInternal) ?_
  rw [answerBits_cons he, bitView_setWidth_one hb]
  rfl

/-- The type bit of a leaf is no token by itself (30_encoding.md R113). -/
theorem tokenIn_leafBit {a : Answer} {as : List Answer} (he : a.eof = false) (hb : a.data.getLsbD 0 = true) :
    tokenIn .header [1] (a :: as) = none := by
  have hbits : answerBits [1] (a :: as) = some [true] := by
    rw [answerBits_cons he, bitView_setWidth_one hb]
    rfl
  simp only [tokenIn, hbits]
  rfl

theorem tokenIn_treeLeaf {a b : Answer} {bs : List Answer} (he : a.eof = false) (hb : a.data.getLsbD 0 = true)
    (hbeof : b.eof = false) : tokenIn .header [1, 9] (a :: b :: bs) = some (.treeLeaf (b.data.setWidth 9), 2) := by
  refine tokenIn_of_encode (i := .treeLeaf (b.data.setWidth 9)) ?_
  rw [answerBits_cons he, answerBits_cons hbeof, bitView_setWidth_one hb]
  simp [answerBits, encode]

/-! ### The token that is fetched -/

theorem fetchToken_of_magicIn {s : State} (h : s.awaits .magicIn = true) :
    fetchToken s = tokenIn .magic [32] s.env.inScript :=
  if_pos h

/-- The engine at a type bit does not stand at the magic. -/
theorem not_awaits_magicIn {s : State} (h : s.awaits .typeBit = true) : ¬ s.awaits .magicIn = true := by
  intro hm
  have hpending := (awaits_iff.1 h).2.symm.trans (awaits_iff.1 hm).2
  cases hpending

/-- At a type bit with a slot free the token is the type bit's, or that of the type bit and the symbol. -/
theorem fetchToken_of_typeBit {s : State} (h : s.awaits .typeBit = true) (hn : s.eng.next.toNat ≠ 513) :
    fetchToken s = (tokenIn .header [1] s.env.inScript).or (tokenIn .header [1, 9] s.env.inScript) := by
  have hfree : (s.awaits .typeBit && decide (s.eng.next.toNat ≠ Config.nodeCap)) = true := by
    rw [h, Bool.true_and]
    exact decide_eq_true hn
  rw [fetchToken, if_neg (not_awaits_magicIn h), if_pos hfree]
  cases tokenIn .header [1] s.env.inScript <;> rfl

/-- With the agenda empty a token that is fetched is run. -/
theorem step_of_token {s : State} {i : Instr} {n : Nat} (ha : s.env.agenda = []) (hf : fetchToken s = some (i, n)) :
    step s = exec i (s.dropAnswers n) := by
  simp only [step, ha, freeRun, hf]

/-- Settles O6: at the magic, at a type bit 0 and at a type bit 1 with its symbol the answers hold the token, which is fetched whole. -/
theorem readyTokenIsRun : Obligations.ReadyTokenIsRun := by
  unfold Obligations.ReadyTokenIsRun
  intro s a as hagenda hscript heof
  refine ⟨fun ha hdata => step_of_token hagenda ?_, fun ha hnext hbit => step_of_token hagenda ?_,
    fun ha hnext hbit b bs has hbeof => step_of_token hagenda ?_⟩
  · rw [fetchToken_of_magicIn ha, hscript, tokenIn_magic heof hdata]
  · rw [fetchToken_of_typeBit ha hnext, hscript, tokenIn_treeInternal heof hbit]
    rfl
  · rw [fetchToken_of_typeBit ha hnext, hscript, has, tokenIn_leafBit heof hbit, tokenIn_treeLeaf heof hbit hbeof]
    rfl

end Sys2Proof.Machine
end

section
/-!
The tree builder's claims: what a merge step and the BUILD event leave in NODE, the registers and ACTIVE (41_tree_builder.md R141 to
R151).
-/

namespace Sys2Proof.Machine

/-! ### After the BUILD event -/

/-- The invariant of the merges does not depend on ROOT, TREE_DEPTH or the engine's position. -/
theorem MInv.plan_setRoot {L W : Nat} {syms : List Symbol} {s0 s : State} {j : Nat} (h : MInv L W syms s0 s j) (r : NodeIndex)
    (e : Internal) : MInv L W syms s0 ((setRoot r s).plan e) j := by
  obtain ⟨f, hf, hp⟩ := h.forest
  have hsame : ∀ i, ((setRoot r s).plan e).nodeAt i = s.nodeAt i := fun _ => rfl
  exact ⟨h.cnt, h.len, h.nodup, h.lt, h.old, h.internal, h.sum, ⟨f, fun i hi => (holds_congr hsame (f i) i).2 (hf i hi), hp⟩,
    h.act, h.picks, h.last⟩

section
variable {s : State} (hb : s.regs.state = .busy) (hp : s.eng.pending = none) (ht : s.eng.todo = some .build)
include hb hp ht

theorem engineEvent_build : engineEvent s = (buildTree s).plan (.enterPhase .codegen) := by
  rw [engineEvent_internal hb hp ht]
  rfl

/-- After BUILD the invariant of the merges holds with every merge made, and one slot, ROOT, is active (R144, R145). -/
theorem engineEvent_build_inv :
    MInv ((occurring s).length + 1) (1 + ((List.range 256).map fun c => (s.freqAt c).toNat).sum)
      ((occurring s).map (BitVec.ofNat 9) ++ [256#9]) (placeLeaves s) (engineEvent s) (occurring s).length ∧
    (engineEvent s).eng.active = [(engineEvent s).regs.root] ∧
    (engineEvent s).regs.root = BitVec.ofNat 10 (2 * (occurring s).length) ∧
    (engineEvent s).regs.leafCount = BitVec.ofNat 10 ((occurring s).length + 1) := by
  obtain ⟨u, hinv, he, hact, -, ⟨k, hregs⟩, -⟩ := build_all s hb hp ht
  obtain ⟨-, -, -, -, hleaves⟩ := leaves_inv s
  rw [he]
  refine ⟨hinv.plan_setRoot _ _, hact, rfl, ?_⟩
  show u.regs.leafCount = _
  rw [hregs]
  exact hleaves

/-- LEAF_COUNT, NODE_COUNT and ROOT after BUILD, as numbers (R141, R144, R145). -/
theorem engineEvent_build_counts :
    (engineEvent s).regs.leafCount.toNat = (occurring s).length + 1 ∧
    (engineEvent s).regs.nodeCount.toNat = 2 * (occurring s).length + 1 ∧
    (engineEvent s).regs.root.toNat = 2 * (occurring s).length := by
  obtain ⟨hinv, -, hroot, hleaves⟩ := engineEvent_build_inv hb hp ht
  have hlen := occ_len s
  rw [hleaves, hroot, hinv.cnt]
  simp only [BitVec.toNat_ofNat]
  omega

/-- The slots from LEAF_COUNT on and below NODE_COUNT are those that the merges made. -/
theorem merged_slot_bounds {n : Nat} (hlo : (engineEvent s).regs.leafCount.toNat ≤ n)
    (hhi : n < (engineEvent s).regs.nodeCount.toNat) :
    (occurring s).length + 1 ≤ n ∧ n < (occurring s).length + 1 + (occurring s).length := by
  obtain ⟨hleaves, hnodes, -⟩ := engineEvent_build_counts hb hp ht
  omega

/-- BUILD leaves the leaves where they were placed (R141). -/
theorem engineEvent_build_leaf {k : Nat} (hk : k ≤ (occurring s).length) :
    (engineEvent s).nodeAt (BitVec.ofNat 10 k) = (placeLeaves s).nodeAt (BitVec.ofNat 10 k) :=
  (engineEvent_build_inv hb hp ht).1.old k (by omega)

end

/-- Settles O39: the merges leave the placed leaves as they are, and the rest is the frame of BUILD. -/
theorem buildPlacesLeavesAndCounts : Obligations.BuildPlacesLeavesAndCounts := by
  unfold Obligations.BuildPlacesLeavesAndCounts
  intro s hb hp ht t occ
  have hocc : occ = occurring s := (occ_eq s).symm
  obtain ⟨hleaves, hnodes, hroot⟩ := engineEvent_build_counts hb hp ht
  obtain ⟨-, -, hbyte, hpeof, -⟩ := leaves_inv s
  obtain ⟨hframe, ⟨a, b, c, d, hregs⟩, l, heng⟩ := buildTree_frame s
  have he : t = (buildTree s).plan (.enterPhase .codegen) := engineEvent_build hb hp ht
  rw [hocc]
  refine ⟨hleaves, hnodes, hroot, fun k c hk => ?_, ?_, fun c => ?_, fun c => ?_, ?_, ?_, ?_⟩
  · have hlt := (List.getElem?_eq_some_iff.1 hk).1
    exact (engineEvent_build_leaf hb hp ht (by omega)).trans (hbyte k c hk)
  · exact (engineEvent_build_leaf hb hp ht le_rfl).trans hpeof
  · rw [he, State.plan_freqAt, hframe.freqAt]
  · rw [he, State.plan_codeAt, hframe.codeAt]
  · rw [he, State.plan_regs, hregs]
  · rw [he, State.plan_eng, heng]
  · rw [he, State.plan_env]
    exact hframe.2.1

/-- Settles O40: a merge is the node that joins the two smallest keys, added; BUILD's merges keep it for every internal node. -/
theorem mergePicksTheSmallestKey : Obligations.MergePicksTheSmallestKey := by
  unfold Obligations.MergePicksTheSmallestKey
  refine ⟨fun s hlen hfree => ?_, fun s hb hp ht => ?_⟩
  · obtain ⟨a, b, ha, hb, he⟩ := merge_eq s hlen
    have hframe := (merge_tree s).1
    refine ⟨a, b, ha, hb, ?_, fun j hj => ?_, hframe.freqAt, hframe.codeAt, ?_, ?_, hframe.2.1⟩
    · rw [he]
      exact State.setNode_nodeAt_self _ hfree _
    · rw [he]
      exact State.setNode_nodeAt_of_ne _ hj _
    · rw [he, addNode_regs]
    · rw [he, addNode_eng]
  · intro t n hlo hhi
    obtain ⟨hinv, -, -, -⟩ := engineEvent_build_inv hb hp ht
    obtain ⟨hn, hm⟩ := merged_slot_bounds hb hp ht hlo hhi
    rw [(engineEvent_build_counts hb hp ht).1]
    exact hinv.picks n hn hm

/-- Settles O41: every merge sums without a wrap, and the one active slot left has the whole weight. -/
theorem buildWeightsAreExactSums : Obligations.BuildWeightsAreExactSums := by
  unfold Obligations.BuildWeightsAreExactSums
  intro s hb hp ht t
  obtain ⟨hinv, hact, -, -⟩ := engineEvent_build_inv hb hp ht
  refine ⟨fun n hlo hhi => ?_, ?_⟩
  · obtain ⟨hn, hm⟩ := merged_slot_bounds hb hp ht hlo hhi
    exact hinv.internal n hn hm
  · have hsum := hinv.sum
    rw [hact] at hsum
    simpa using hsum

end Sys2Proof.Machine
end

section
/-!
The code table family's claims: the codes that CODEGEN records, and the events that write a table (42_code_table_gen.md R155 to R162).
-/

namespace Sys2Proof.Machine

/-! ### The codes of a tree held at ROOT -/

/-- The clearing of CODE keeps every tree that NODE holds. -/
theorem holdsTree_clearCode {s : State} {tr : CodeTree} {i : NodeIndex} (h : s.holdsTree tr i) : s.clearCode.holdsTree tr i :=
  (holds_congr (State.clearCode_nodeAt s) tr i).2 h

section

variable {s : State} {tr : CodeTree} (htree : s.holdsTree tr s.regs.root) (hdepth : tr.depth ≤ 256)

include htree hdepth

/-- CODEGEN gives each leaf's symbol the entry of its path (42_code_table_gen.md R156, R157). -/
theorem genCodes_codeAt_of_mem (hok : tr.symbolsOk = true) (hnd : tr.symbols.Nodup) {c : Symbol × List Bool} (hc : c ∈ tr.codes) :
    (genCodes s).codeAt c.1.toNat = pathEntry c.2 :=
  walk_code tr Config.nodeCap s.regs.root [] s.clearCode (holdsTree_clearCode htree)
    (Nat.lt_of_le_of_lt hdepth (by decide)) hnd (CodeTree.symbolsOk_iff.1 hok) c hc

/-- CODEGEN leaves a symbol that no leaf holds absent, as it cleared it (42_code_table_gen.md R157). -/
theorem genCodes_codeAt_of_not_mem {v : Symbol} (hv : v ∉ tr.symbols) : (genCodes s).codeAt v.toNat = CodeEntry.absent :=
  walk_other tr Config.nodeCap s.regs.root [] s.clearCode (holdsTree_clearCode htree)
    (Nat.lt_of_le_of_lt hdepth (by decide)) v hv

/-- A symbol that CODEGEN makes present is a leaf's, and its code is that leaf's path. -/
theorem genCodes_path_of_present (hok : tr.symbolsOk = true) (hnd : tr.symbols.Nodup) {v : Symbol}
    (hv : ((genCodes s).codeAt v.toNat).present = true) : (v, ((genCodes s).codeAt v.toNat).path) ∈ tr.codes := by
  have hmem : v ∈ tr.symbols := by
    by_contra hn
    rw [genCodes_codeAt_of_not_mem htree hdepth hn] at hv
    cases hv
  obtain ⟨p, hp⟩ := symbols_codes tr v hmem
  have hlen : p.length ≤ 256 := (codes_depth tr _ hp).trans hdepth
  rw [genCodes_codeAt_of_mem htree hdepth hok hnd hp, pathEntry_path p hlen]
  exact hp

end

/-- The entry of a path has no bit set above the path (10_state.md R52). -/
theorem pathEntry_bit_of_length_le {p : List Bool} {j : Nat} (hp : p.length ≤ 256) (hj : p.length ≤ j) : (pathEntry p).bit j = false := by
  rw [CodeEntry.bit, pathEntry, pathBits_getLsbD p hp, List.getD_eq_default _ _ hj]

/-- CODEGEN writes CODE and nothing else (42_code_table_gen.md R155). -/
theorem genCodes_frame (s : State) : ∃ l, genCodes s = { s with tables := { s.tables with code := l, codeFill := .cleared } } := by
  obtain ⟨⟨l, hl⟩, -⟩ := walk_frame Config.nodeCap s.regs.root [] s.clearCode
  exact ⟨l, hl⟩

/-- Settles O43: the walk from ROOT records each leaf's path over a cleared CODE, and writes nothing else. -/
theorem codegenRecordsEveryPath : Obligations.CodegenRecordsEveryPath := by
  unfold Obligations.CodegenRecordsEveryPath
  intro s tr hb hp ht htree hdepth hok hnd t
  have he : t = (genCodes s).plan (.enterPhase .magicOut) := engineEvent_internal hb hp ht
  obtain ⟨l, hframe⟩ := genCodes_frame s
  refine ⟨fun c hc => ?_, fun v _ hv => ?_, ?_⟩
  · have hlen : c.2.length ≤ 256 := (codes_depth tr c hc).trans hdepth
    rw [he, State.plan_codeAt, genCodes_codeAt_of_mem htree hdepth hok hnd hc]
    exact ⟨rfl, pathEntry_path c.2 hlen, fun j hj => pathEntry_bit_of_length_le hlen hj⟩
  · rw [he, State.plan_codeAt, genCodes_codeAt_of_not_mem htree hdepth hv]
    rfl
  · rw [he, hframe]
    exact ⟨rfl, rfl, rfl, rfl, rfl, rfl⟩

/-- Settles O44: present symbols are leaves of the tree with their paths as codes, and no leaf's path begins another's. -/
theorem codesArePrefixFree : Obligations.CodesArePrefixFree := by
  unfold Obligations.CodesArePrefixFree
  intro s tr hb hp ht htree hdepth hok hnd t u v _ _ hne hu hv
  have he : t = (genCodes s).plan (.enterPhase .magicOut) := engineEvent_internal hb hp ht
  rw [he, State.plan_codeAt] at hu hv ⊢
  exact codes_free tr hnd _ (genCodes_path_of_present htree hdepth hok hnd hu) _ (genCodes_path_of_present htree hdepth hok hnd hv) hne

/-! ### The events that write a table -/

/-- The engine's next event is one that writes FREQ: its clearing or the update of a counter (10_state.md R51). -/
def State.freqWriteNext (s : State) : Prop :=
  s.regs.state = .busy ∧ s.eng.pending = none ∧ (s.eng.todo = some .clearFreq ∨ ∃ b, s.eng.todo = some (.countByte b))

/-- The engine's next event is one that writes CODE: CODEGEN (42_code_table_gen.md R162). -/
def State.codeWriteNext (s : State) : Prop :=
  s.regs.state = .busy ∧ s.eng.pending = none ∧ s.eng.todo = some .codegen

/-- The engine's next event is one that can write NODE: the answer to a type bit's READ, BUILD, the write of a node or a link
(10_state.md R55; log 2). -/
def State.nodeWriteNext (s : State) : Prop :=
  s.regs.state = .busy ∧ (s.eng.pending = some (.inReq .typeBit) ∨
    s.eng.pending = none ∧ (s.eng.todo = some .build ∨ (∃ n, s.eng.todo = some (.writeNode n)) ∨ ∃ i, s.eng.todo = some (.link i)))

/-- What is summed up from a state with another observation, or with other agents' events and answers to come, holds from the state
itself. -/
theorem Summary.of_env {fq cd nd : Prop} {s s' t : State} (h : Summary fq cd nd s' t) (hs : s' = { s with env := s'.env })
    (hd : s'.env.staleDraw = s.env.staleDraw) : Summary fq cd nd s t := by
  have hkeep : Keep s s' := by
    rw [hs]
    exact ⟨rfl, rfl, rfl, hd⟩
  exact (Summary.same hkeep (by rw [hs])).trans h

/-- An engine event writes each table only where the event that owns it is next. -/
theorem engineEvent_sum (s : State) : Summary s.freqWriteNext s.codeWriteNext s.nodeWriteNext s (engineEvent s) := by
  rcases engineEvent_cases s with he | ⟨hb, w, a, as, hp, -, he⟩ | ⟨hb, w, hp, -, he⟩ | ⟨hb, e, hp, ht, he⟩ <;> rw [he]
  · exact Summary.same ⟨rfl, rfl, rfl, rfl⟩ rfl
  · have hsum := (answered_sum w a (s.dropAnswers 1)).1.of_env (s := s) rfl rfl
    exact hsum.mono False.elim False.elim fun hw => ⟨hb, .inl (hp.trans (by rw [hw]))⟩
  · have hsum := (outAccepted_sum w s.spendCredit).1.of_env (s := s) rfl rfl
    exact hsum.mono False.elim False.elim False.elim
  · have hsome : ∀ {x : Internal}, e = x → s.eng.todo = some x := fun hx => hx ▸ ht
    refine (internal_sum e s).1.mono (fun h => ⟨hb, hp, ?_⟩) (fun h => ⟨hb, hp, hsome h⟩) (fun h => ⟨hb, .inr ⟨hp, ?_⟩⟩)
    · exact h.imp hsome (Exists.imp fun _ => hsome)
    · exact h.imp hsome (Or.imp (Exists.imp fun _ => hsome) (Exists.imp fun _ => hsome))

/-- A step without a reset: a host access, which writes no table, or the engine's side, which writes each table only where the event
that owns it is next. -/
theorem step_tables {s t : State} (h : step s = .next t) (hr : ∀ rest, s.env.agenda ≠ .reset :: rest) :
    t.tables = s.tables ∨
    ((s.env.agenda = [] ∨ ∃ rest, s.env.agenda = .engine :: rest) ∧ Summary s.freqWriteNext s.codeWriteNext s.nodeWriteNext s t) := by
  rcases step_cases h with ⟨rest, ⟨ha, -⟩, -⟩ | ⟨addr, rest, -, rfl⟩ | ⟨addr, v, rest, -, hw⟩ | ⟨rest, ha, rfl⟩ | ⟨ha, rfl⟩ |
      ⟨ha, i, n, hf, he⟩
  · exact absurd ha (hr rest)
  · exact .inl rfl
  · exact .inl (hostWrite_tables (s := s.withAgenda rest) hw)
  · exact .inr ⟨.inr ⟨rest, ha⟩, (engineEvent_sum (s.withAgenda rest)).of_env rfl rfl⟩
  · exact .inr ⟨.inl (ha.resolve_right fun ⟨rest, hrest, _⟩ => hr rest hrest), engineEvent_sum s⟩
  · have hsum := (token_sum (fetch_port hf) he).1.of_env (s := s) rfl rfl
    refine .inr ⟨.inl ha, hsum.mono False.elim False.elim fun hawaits => ?_⟩
    obtain ⟨hb, hp⟩ := awaits_iff.1 hawaits
    exact ⟨hb, .inl hp⟩

/-- Settles O56: a host access keeps the tables, and the engine's side writes one only in the events that own it. -/
theorem tablesChangeOnlyInTheirPhases : Obligations.TablesChangeOnlyInTheirPhases := by
  unfold Obligations.TablesChangeOnlyInTheirPhases
  intro s t hstep hr
  rcases step_tables hstep hr with hsame | ⟨hagenda, hsum⟩
  · rw [hsame]
    exact ⟨fun _ => ⟨rfl, rfl⟩, fun _ => ⟨rfl, rfl⟩, fun _ => rfl, fun _ => rfl⟩
  · refine ⟨hsum.freq, hsum.code, hsum.node, ?_⟩
    rintro (⟨addr, rest, ha⟩ | ⟨addr, v, rest, ha⟩) <;> simp [ha] at hagenda

end Sys2Proof.Machine
end

section
/-!
The tree serializer's claims, part one: what a wire token's READs and its own event come to, the errors of the parse among them, and the
header that SERIALIZE writes (43_tree_serializer.md R166, R172 to R181).
-/

namespace Sys2Proof.Machine

/-! ### A token in error -/

/-- `s` after the READ of the type bit `b` at NEXT = 513, in the error TREE_TOO_LARGE (R176). -/
def tooLarge (b : BitVec 1) (s : State) : State := (s.readCoded (some b)).errorEntry .treeTooLarge

/-- `s` after the two READs of a leaf with a field `v` that is no Symbol, in the error BAD_SYMBOL (R178). -/
def badSymbolLeaf (v : Symbol) (s : State) : State := ((leafOpened s).readCoded (some v)).errorEntry .badSymbol

theorem typeBitAnswered_full {s : State} (b : BitVec 1) (h : s.eng.next.toNat = Config.nodeCap) :
    typeBitAnswered (some b) s = (s.readCoded (some b)).plan (.raise .treeTooLarge) :=
  if_pos h

/-- At NEXT = 513 an internal node's token is its READ and the error entry. -/
theorem exec_treeInternal_of_full {s : State} (ha : s.awaits .typeBit = true) (h : s.eng.next.toNat = Config.nodeCap) :
    exec .treeInternal s = .next (tooLarge 0#1 s) := by
  refine (if_pos ha).trans ?_
  rw [typeBitAnswered_full _ h]
  rfl

/-- At NEXT = 513 a leaf's token is its first READ and the error entry; in ERROR there is no READ of the symbol (R176). -/
theorem exec_treeLeaf_of_full {s : State} (v : Symbol) (ha : s.awaits .typeBit = true) (h : s.eng.next.toNat = Config.nodeCap) :
    exec (.treeLeaf v) s = .next (tooLarge 1#1 s) := by
  refine (if_pos ha).trans ?_
  rw [typeBitAnswered_full _ h]
  rfl

/-- A leaf's token with a field that is no Symbol is its two READs and the error entry. -/
theorem exec_treeLeaf_of_bad {s : State} {v : Symbol} (ha : s.awaits .typeBit = true) (h : s.eng.next.toNat ≠ Config.nodeCap)
    (hv : 256 < v.toNat) : exec (.treeLeaf v) s = .next (badSymbolLeaf v s) := by
  have hread : symbolAnswered (some v) (leafOpened s) = ((leafOpened s).readCoded (some v)).plan (.raise .badSymbol) := if_pos hv
  rw [exec_treeLeaf_of_free v ha h, hread]
  rfl

/-- Settles O18: at NEXT = 513 the answer to the type bit plans the error entry, which exec takes with it and the engine as its next
event. -/
theorem fullTableIsTreeTooLarge : Obligations.FullTableIsTreeTooLarge := by
  unfold Obligations.FullTableIsTreeTooLarge
  intro s v ha hfull
  refine ⟨exec_treeInternal_of_full ha hfull, exec_treeLeaf_of_full v ha hfull, fun a as hscript heof => ?_⟩
  have hread : engineEvent s = ((s.dropAnswers 1).readCoded (some (a.data.setWidth 1))).plan (.raise .treeTooLarge) := by
    rw [engineEvent_of_awaits ha hscript, answered, Answer.field_of_value heof]
    exact typeBitAnswered_full (s := s.dropAnswers 1) _ hfull
  have hraise : engineRun 2 s = tooLarge (a.data.setWidth 1) (s.dropAnswers 1) := by
    simp only [engineRun, hread]
    exact engineEvent_plan _ (by exact (awaits_iff.1 ha).1)
  rw [hraise]
  simp [tooLarge, State.errorEntry, State.dropAnswers, State.recordIn, State.countBits, hscript]

/-- Settles O19: the slot is allocated and the leaf counted before the symbol is read, and the error entry writes neither. -/
theorem symbolAbove256IsBadSymbol : Obligations.SymbolAbove256IsBadSymbol := by
  unfold Obligations.SymbolAbove256IsBadSymbol
  intro s v ha hnext hv
  refine ⟨_, exec_treeLeaf_of_bad ha (Nat.ne_of_lt hnext) hv, ?_, rfl, ?_, fun j hj => ?_, fun _ => rfl, fun _ => rfl⟩
  · simp [badSymbolLeaf, leafOpened, openLeaf, allocate, BitVec.add_assoc]
  · simp [badSymbolLeaf, leafOpened, openLeaf, allocate]
  · exact leafRead_nodeAt_of_ne v s hj

/-! ### The end of input -/

/-- The error of a READ of a DECOMPRESS that is answered EOF (43_tree_serializer.md R175, R177; 45_decoder.md R207, R211). -/
def InWait.eofError : InWait → Option HuffError
  | .magicIn => some .badMagic
  | .typeBit => some .truncatedTree
  | .symbolField => some .truncatedTree
  | .walkBit => some .missingTerminator
  | .countByte => none
  | .rewind => none
  | .encodeByte => none

/-- EOF at a READ of a DECOMPRESS counts nothing, and the error entry is next. -/
theorem answered_eof {w : InWait} {e : HuffError} {a : Answer} (s : State) (hw : w.eofError = some e) (ha : a.eof = true) :
    ∃ tx, answered w a s = (s.recordIn tx).plan (.raise e) := by
  have hfield : ∀ n, a.field n = none := fun _ => if_pos ha
  cases w
  case magicIn => cases hw; exact ⟨.read 32 none, by rw [answered, hfield]; rfl⟩
  case typeBit => cases hw; exact ⟨.read 1 none, by rw [answered, hfield]; rfl⟩
  case symbolField => cases hw; exact ⟨.read 9 none, by rw [answered, hfield]; rfl⟩
  case walkBit => cases hw; exact ⟨.read 1 none, by rw [answered, hfield]; rfl⟩
  all_goals cases hw

/-- Settles O24: the EOF plans the error entry of its READ, which is the engine's next event. -/
theorem endOfInputIsTheErrorOfItsRead : Obligations.EndOfInputIsTheErrorOfItsRead := by
  unfold Obligations.EndOfInputIsTheErrorOfItsRead
  intro s a as w e hb hp hscript ha hwe
  have hw : w.eofError = some e := by rcases hwe with ⟨rfl, rfl⟩ | ⟨rfl, rfl⟩ | ⟨rfl, rfl⟩ | ⟨rfl, rfl⟩ <;> rfl
  obtain ⟨tx, hread⟩ := answered_eof (s.dropAnswers 1) hw ha
  have hrun : engineRun 2 s = ((s.dropAnswers 1).recordIn tx).errorEntry e := by
    simp only [engineRun, engineEvent_in hb hp hscript, hread]
    exact engineEvent_plan _ (by exact hb)
  rw [hrun]
  exact ⟨rfl, rfl, by simp [hscript], rfl⟩

/-! ### What a wire token can be -/

/-- A wire token that gives a next state: the magic's READ; at NEXT = 513 a type bit's READ in error; and at another NEXT an internal
node's READ with its node's write, or a leaf's two READs with its node's write or the error entry. -/
theorem exec_token_cases {s t : State} {i : Instr} (hi : i.port ≠ .command) (h : exec i s = .next t) :
    (s.awaits .magicIn = true ∧ t = (s.readCoded (some Config.magic)).plan (.enterPhase .headerIn)) ∨
    (∃ b, t = tooLarge b s) ∨
    (s.awaits .typeBit = true ∧ s.eng.next.toNat ≠ Config.nodeCap ∧
      t = writeNodeEvent (Node.internal 0#40 0#10 0#10) (internalRead s)) ∨
    (∃ v, s.awaits .typeBit = true ∧ s.eng.next.toNat ≠ Config.nodeCap ∧ t = writeNodeEvent (Node.leaf v 0#40) (leafRead v s)) ∨
    (∃ v, t = badSymbolLeaf v s) := by
  cases i
  case magic =>
    simp only [exec, execMagic, magicAnswered_magic] at h
    split_ifs at h with ha
    cases h
    exact .inl ⟨ha, rfl⟩
  case treeInternal =>
    have ha : s.awaits .typeBit = true := by
      simp only [exec, execTreeInternal] at h
      split_ifs at h with ha
      exact ha
    by_cases hn : s.eng.next.toNat = Config.nodeCap
    · rw [exec_treeInternal_of_full ha hn] at h
      cases h
      exact .inr (.inl ⟨_, rfl⟩)
    · rw [exec_treeInternal_of_free ha hn] at h
      cases h
      exact .inr (.inr (.inl ⟨ha, hn, rfl⟩))
  case treeLeaf v =>
    have ha : s.awaits .typeBit = true := by
      simp only [exec, execTreeLeaf] at h
      split_ifs at h with ha
      exact ha
    by_cases hn : s.eng.next.toNat = Config.nodeCap
    · rw [exec_treeLeaf_of_full v ha hn] at h
      cases h
      exact .inr (.inl ⟨_, rfl⟩)
    · rcases Nat.lt_or_ge 256 v.toNat with hv | hv
      · rw [exec_treeLeaf_of_bad ha hn hv] at h
        cases h
        exact .inr (.inr (.inr (.inr ⟨v, rfl⟩)))
      · rw [exec_treeLeaf_of_symbol ha hn hv] at h
        cases h
        exact .inr (.inr (.inr (.inl ⟨v, ha, hn, rfl⟩)))
  all_goals exact absurd rfl hi

/-! ### The frame of the wire tokens -/

/-- `t` is `s` but for what a wire token can write: of the tables slot `i` of NODE, of the registers STATE, ERR_CODE, BIT_COUNT,
LEAF_COUNT and NODE_COUNT, of the engine its position, NEXT and STACK, and of the agents the IN observation. -/
structure TokenFrame (i : NodeIndex) (s t : State) : Prop where
  freq : ∀ c, t.freqAt c = s.freqAt c
  code : ∀ c, t.codeAt c = s.codeAt c
  node : ∀ j, j ≠ i → t.nodeAt j = s.nodeAt j
  regs : ∃ st e b l n, t.regs = { s.regs with state := st, errCode := e, bitCount := b, leafCount := l, nodeCount := n }
  eng : ∃ p td st n, t.eng = { s.eng with pending := p, todo := td, stack := st, next := n }
  env : t.env = { s.env with inTrace := t.env.inTrace }

theorem TokenFrame.trans {i : NodeIndex} {s t u : State} (h : TokenFrame i s t) (k : TokenFrame i t u) : TokenFrame i s u where
  freq c := (k.freq c).trans (h.freq c)
  code c := (k.code c).trans (h.code c)
  node j hj := (k.node j hj).trans (h.node j hj)
  regs := by
    obtain ⟨_, _, _, _, _, hr⟩ := h.regs
    obtain ⟨_, _, _, _, _, kr⟩ := k.regs
    exact ⟨_, _, _, _, _, by rw [kr, hr]⟩
  eng := by
    obtain ⟨_, _, _, _, hg⟩ := h.eng
    obtain ⟨_, _, _, _, kg⟩ := k.eng
    exact ⟨_, _, _, _, by rw [kg, hg]⟩
  env := by rw [k.env, h.env]

/-- Where NODE and the free values are not touched at all, the registers, the engine and the observation are left to compare. -/
theorem TokenFrame.of_same_tables {i : NodeIndex} {s t : State} (ht : t.tables = s.tables)
    (hr : ∃ st e b l n, t.regs = { s.regs with state := st, errCode := e, bitCount := b, leafCount := l, nodeCount := n })
    (hg : ∃ p td st n, t.eng = { s.eng with pending := p, todo := td, stack := st, next := n })
    (hv : t.env = { s.env with inTrace := t.env.inTrace }) : TokenFrame i s t where
  freq c := State.freqAt_congr (by rw [ht]) (by rw [ht]) c
  code c := State.codeAt_congr (by rw [ht]) (by rw [ht]) c
  node j _ := State.nodeAt_congr (by rw [ht]) (by rw [hv]) j
  regs := hr
  eng := hg
  env := hv

/-- The READs of a leaf take the content of its slot, and no other (log 2). -/
theorem leafOpened_tokenFrame (s : State) : TokenFrame s.eng.next s (leafOpened s) where
  freq _ := rfl
  code _ := rfl
  node _ hj := State.forgetNode_nodeAt_of_ne (allocate (s.readCoded (some 1#1))) hj
  regs := ⟨_, _, _, _, _, rfl⟩
  eng := ⟨_, _, _, _, rfl⟩
  env := rfl

theorem leafRead_tokenFrame (v : Symbol) (s : State) : TokenFrame s.eng.next s (leafRead v s) :=
  (leafOpened_tokenFrame s).trans (.of_same_tables rfl ⟨_, _, _, _, _, rfl⟩ ⟨_, _, _, _, rfl⟩ rfl)

/-- The write of a node writes the slot allocated last. -/
theorem writeNodeEvent_tokenFrame (n : Node) (s : State) : TokenFrame s.lastSlot s (writeNodeEvent n s) := by
  obtain ⟨hframe, hregs, heng, hnode⟩ := writeNodeEvent_frame n s
  refine ⟨hframe.freqAt, hframe.codeAt, fun j hj => ?_, ⟨_, _, _, _, _, hregs⟩, ?_, by rw [hframe.2.1]⟩
  · rw [hnode, State.setNode_nodeAt_of_ne s hj]
  · rw [heng]
    split_ifs <;> exact ⟨_, _, _, _, rfl⟩

/-- A wire token writes within its frame, whose slot is the one NEXT names. -/
theorem token_tokenFrame {s t : State} {i : Instr} (hi : i.port ≠ .command) (h : exec i s = .next t) :
    TokenFrame s.eng.next s t := by
  have hwrite : ∀ (n : Node) (u : State), TokenFrame s.eng.next s u → u.lastSlot = s.eng.next →
      TokenFrame s.eng.next s (writeNodeEvent n u) := fun n u hu hslot => hu.trans (hslot ▸ writeNodeEvent_tokenFrame n u)
  rcases exec_token_cases hi h with ⟨-, rfl⟩ | ⟨b, rfl⟩ | ⟨-, -, rfl⟩ | ⟨v, -, -, rfl⟩ | ⟨v, rfl⟩
  · exact .of_same_tables rfl ⟨_, _, _, _, _, rfl⟩ ⟨_, _, _, _, rfl⟩ rfl
  · exact .of_same_tables rfl ⟨_, _, _, _, _, rfl⟩ ⟨_, _, _, _, rfl⟩ rfl
  · exact hwrite _ _ (.of_same_tables rfl ⟨_, _, _, _, _, rfl⟩ ⟨_, _, _, _, rfl⟩ rfl) (lastSlot_allocate _)
  · exact hwrite _ _ (leafRead_tokenFrame v s) (lastSlot_allocate _)
  · exact (leafOpened_tokenFrame s).trans (.of_same_tables rfl ⟨_, _, _, _, _, rfl⟩ ⟨_, _, _, _, rfl⟩ rfl)

/-- Settles O21: each kind of token writes within the frame of the wire tokens. -/
theorem tokensLeaveTheRest : Obligations.TokensLeaveTheRest := by
  unfold Obligations.TokensLeaveTheRest
  intro s t i hi h
  obtain ⟨hfreq, hcode, hnode, ⟨st, e, b, l, n, hregs⟩, ⟨p, td, stk, nx, heng⟩, henv⟩ := token_tokenFrame hi h
  rw [hregs, heng]
  exact ⟨hfreq, hcode, hnode, rfl, rfl, rfl, rfl, rfl, rfl, rfl, rfl, rfl, rfl, rfl, henv⟩

/-! ### The header written -/

/-- Settles O45: the WRITEs are those of the tree at ROOT, after which no node is pending; the event after the last is PHASE <- ENCODE. -/
theorem serializeWritesTheHeader : Obligations.SerializeWritesTheHeader := by
  unfold Obligations.SerializeWritesTheHeader
  intro s tr hb hp hstack htree hcredit u t
  have hu : u = nextNode [] (wrote s tr.writes (11 * tr.leaves - 1)) := ser_loop tr _ [] s hb hp hstack htree hcredit
  have ht : t = (u.setPhase .encode).await (.inReq .encodeByte) := by
    refine engineEvent_enter (p := .encode) ?_ ?_ ?_ <;> rw [hu]
    · exact hb
    · rfl
    · rfl
  rw [ht, hu]
  refine ⟨rfl, rfl, rfl, ?_, outStream_writes tr, header_len tr, rfl, rfl, rfl⟩
  rw [← writes_len tr]
  rfl

end Sys2Proof.Machine
end

section
/-!
The tree serializer's claims, part two: every step keeps the parse's invariant (43_tree_serializer.md R172, R174, R176; 10_state.md
R48).
-/

namespace Sys2Proof.Machine

/-! ### The pending nodes -/

/-- Slots below one bound are below every higher one. -/
theorem parseStack_mono {a b : Nat} {st : List Frame} (hab : a ≤ b) (h : parseStack a st = true) : parseStack b st = true := by
  cases st with
  | nil => rfl
  | cons f rest =>
    cases f <;> simp only [parseStack, Bool.and_eq_true, decide_eq_true_eq, reduceCtorEq] at h ⊢
    all_goals exact ⟨h.1.trans_le hab, h.2⟩

theorem slotsOk_iff {s : State} {bound : Nat} : s.slotsOk bound = true ↔
    s.eng.next.toNat ≤ Config.nodeCap ∧ s.regs.nodeCount = s.eng.next ∧ parseStack bound s.eng.stack = true := by
  simp [State.slotsOk, and_assoc]

/-- The slot allocated last is still to be written: there is one, and the pending nodes are below it. -/
def State.slotOpen (s : State) : Prop := 1 ≤ s.eng.next.toNat ∧ s.slotsOk (s.eng.next.toNat - 1) = true

/-- The allocation of a free slot leaves the pending nodes below it (R172, R176). -/
theorem allocate_slotOpen {s : State} (h : s.slotsOk s.eng.next.toNat = true) (hfree : s.eng.next.toNat ≠ Config.nodeCap) :
    (allocate s).slotOpen := by
  obtain ⟨hcap, -, hst⟩ := slotsOk_iff.1 h
  have hnext : (allocate s).eng.next.toNat = s.eng.next.toNat + 1 := by
    simp only [Config.nodeCap] at hcap
    simp only [allocate, BitVec.toNat_add, BitVec.toNat_ofNat]
    omega
  refine ⟨by omega, slotsOk_iff.2 ⟨by omega, rfl, ?_⟩⟩
  rw [hnext, Nat.add_sub_cancel]
  exact hst

/-- The slot allocated last is the one below NEXT. -/
theorem lastSlot_toNat {s : State} (h : 1 ≤ s.eng.next.toNat) : s.lastSlot.toNat = s.eng.next.toNat - 1 := by
  unfold State.lastSlot
  bv_omega

/-! ### The invariant by the engine's position -/

/-- The engine's position is one that the parse's invariant speaks of. -/
def Engine.inParse (e : Engine) : Bool :=
  match e.pending, e.todo with
  | some (.inReq .magicIn), _ => true
  | some (.inReq .typeBit), _ => true
  | some (.inReq .symbolField), _ => true
  | none, some (.enterPhase .headerIn) => true
  | none, some (.writeNode _) => true
  | none, some (.link _) => true
  | _, _ => false

/-- Elsewhere the invariant says nothing. -/
theorem parseOk_of_outside {s : State} (h : s.eng.inParse = false) : s.parseOk = true := by
  unfold State.parseOk
  unfold Engine.inParse at h
  split <;> simp_all

theorem parseOk_of_not_busy {s : State} (h : s.regs.state ≠ .busy) : s.parseOk = true := by
  unfold State.parseOk
  split <;> simp_all

section
variable {s : State} (hb : s.regs.state = .busy)
include hb

theorem parseOk_magicIn (hp : s.eng.pending = some (.inReq .magicIn)) : s.parseOk = true ↔ s.regs.nodeCount = 0#10 := by
  simp [State.parseOk, hb, hp]

theorem parseOk_enterHeaderIn (hp : s.eng.pending = none) (ht : s.eng.todo = some (.enterPhase .headerIn)) :
    s.parseOk = true ↔ s.regs.nodeCount = 0#10 := by
  simp [State.parseOk, hb, hp, ht]

theorem parseOk_typeBit (hp : s.eng.pending = some (.inReq .typeBit)) : s.parseOk = true ↔ s.slotsOk s.eng.next.toNat = true := by
  simp [State.parseOk, hb, hp]

theorem parseOk_symbolField (hp : s.eng.pending = some (.inReq .symbolField)) : s.parseOk = true ↔ s.slotOpen := by
  simp [State.parseOk, hb, hp, State.slotOpen]

theorem parseOk_writeNode {n : Node} (hp : s.eng.pending = none) (ht : s.eng.todo = some (.writeNode n)) :
    s.parseOk = true ↔ s.slotOpen := by
  simp [State.parseOk, hb, hp, ht, State.slotOpen]

theorem parseOk_link {i : NodeIndex} (hp : s.eng.pending = none) (ht : s.eng.todo = some (.link i)) :
    s.parseOk = true ↔ i.toNat < s.eng.next.toNat ∧ s.slotsOk s.eng.next.toNat = true := by
  simp [State.parseOk, hb, hp, ht]

end

/-! ### The READs of the parse -/

theorem magicAnswered_parseOk {s : State} (r : Option Word) (hb : s.regs.state = .busy) (h : s.regs.nodeCount = 0#10) :
    (magicAnswered r s).parseOk = true := by
  cases r with
  | none => exact parseOk_of_outside rfl
  | some v =>
    simp only [magicAnswered]
    split_ifs
    · exact (parseOk_enterHeaderIn (by exact hb) rfl rfl).2 h
    · exact parseOk_of_outside rfl

theorem typeBitAnswered_parseOk {s : State} (r : Option (BitVec 1)) (hb : s.regs.state = .busy)
    (h : s.slotsOk s.eng.next.toNat = true) : (typeBitAnswered r s).parseOk = true := by
  cases r with
  | none => exact parseOk_of_outside rfl
  | some b =>
    simp only [typeBitAnswered]
    split_ifs with hcap
    · exact parseOk_of_outside rfl
    · exact (parseOk_symbolField (by exact hb) rfl).2 (allocate_slotOpen (s := s.readCoded (some b)) h hcap)
    · exact (parseOk_writeNode (by exact hb) rfl rfl).2 (allocate_slotOpen (s := s.readCoded (some b)) h hcap)

theorem symbolAnswered_parseOk {s : State} (r : Option Symbol) (hb : s.regs.state = .busy) (h : s.slotOpen) :
    (symbolAnswered r s).parseOk = true := by
  cases r with
  | none => exact parseOk_of_outside rfl
  | some v =>
    simp only [symbolAnswered]
    split_ifs
    · exact parseOk_of_outside rfl
    · exact (parseOk_writeNode (by exact hb) rfl rfl).2 h

/-! ### The writes of the parse -/

/-- A node returned is an allocated one, so its link is in the invariant. -/
theorem returnNode_parseOk {s : State} {i : NodeIndex} (hb : s.regs.state = .busy) (hi : i.toNat < s.eng.next.toNat)
    (h : s.slotsOk s.eng.next.toNat = true) : (returnNode i s).parseOk = true := by
  unfold returnNode
  split
  · exact parseOk_of_outside rfl
  · exact (parseOk_link (by exact hb) rfl rfl).2 ⟨hi, h⟩

/-- The node written is returned or becomes the newest pending node. -/
theorem writeNodeEvent_parseOk {s : State} (n : Node) (hb : s.regs.state = .busy) (h : s.slotOpen) :
    (writeNodeEvent n s).parseOk = true := by
  obtain ⟨hone, hslots⟩ := h
  obtain ⟨hcap, hcount, hst⟩ := slotsOk_iff.1 hslots
  have hlast := lastSlot_toNat hone
  unfold writeNodeEvent
  split_ifs
  · refine returnNode_parseOk (by simpa using hb) (by rw [State.setNode_eng]; omega) (slotsOk_iff.2 ?_)
    rw [State.setNode_eng, State.setNode_regs]
    exact ⟨hcap, hcount, parseStack_mono (Nat.sub_le _ _) hst⟩
  · refine (parseOk_typeBit (by simpa using hb) rfl).2 (slotsOk_iff.2 ?_)
    simp only [State.setNode_eng, State.setNode_regs, parseStack, Bool.and_eq_true, decide_eq_true_eq]
    exact ⟨hcap, hcount, by omega, hlast ▸ hst⟩

/-- A link takes a pending node on to its right child, or returns it. -/
theorem linkEvent_parseOk {s : State} (i : NodeIndex) (hb : s.regs.state = .busy) (h : s.slotsOk s.eng.next.toNat = true) :
    (linkEvent i s).parseOk = true := by
  obtain ⟨hcap, hcount, hst⟩ := slotsOk_iff.1 h
  match hs : s.eng.stack with
  | [] =>
    unfold linkEvent
    rw [hs]
    exact parseOk_of_outside rfl
  | .visit j :: rest => simp [hs, parseStack] at hst
  | .left j :: rest =>
    rw [linkEvent_left i hs]
    rw [hs] at hst
    exact (parseOk_typeBit (by simpa [setLeft] using hb) rfl).2 (slotsOk_iff.2 ⟨hcap, by simpa [setLeft] using hcount, hst⟩)
  | .right j :: rest =>
    rw [hs] at hst
    simp only [parseStack, Bool.and_eq_true, decide_eq_true_eq] at hst
    obtain ⟨hj, hrest⟩ := hst
    unfold linkEvent
    rw [hs]
    refine returnNode_parseOk (by simpa [setRight] using hb) (by simpa [setRight] using hj) (slotsOk_iff.2 ?_)
    simp only [setRight, State.setNode_eng, State.setNode_regs]
    exact ⟨hcap, hcount, parseStack_mono hj.le hrest⟩

/-! ### Events outside the parse -/

theorem emitNext_outside (s : State) : (emitNext s).eng.inParse = false := by
  unfold emitNext codeDone
  split_ifs <;> rfl

theorem nextNode_outside (rest : List Frame) (s : State) : (nextNode rest s).eng.inParse = false := by
  cases rest <;> rfl

theorem encodeAnswered_outside (r : Option Byte) (s : State) : (encodeAnswered r s).eng.inParse = false := by
  cases r with
  | none => rfl
  | some b =>
    simp only [encodeAnswered]
    split_ifs
    · exact emitNext_outside _
    · rfl

theorem walkAnswered_outside (r : Option (BitVec 1)) (s : State) : (walkAnswered r s).eng.inParse = false := by
  cases r with
  | none => rfl
  | some b =>
    simp only [walkAnswered, arrive]
    split_ifs <;> rfl

theorem startDecode_outside (s : State) : (startDecode s).eng.inParse = false := by
  unfold startDecode
  split_ifs <;> rfl

/-- No OUT transaction belongs to the parse. -/
theorem outAccepted_outside (w : OutWait) (s : State) : (outAccepted w s).eng.inParse = false := by
  unfold outAccepted
  cases w <;> simp only [afterOut]
  case nodeBit =>
    unfold nodeBitAccepted
    split
    · split_ifs
      · rfl
      · exact nextNode_outside _ _
    · exact nextNode_outside _ _
  case nodeSymbol => exact nextNode_outside _ _
  case codeBit => exact emitNext_outside _
  all_goals rfl

/-! ### The steps -/

/-- The answer to the outstanding request keeps the invariant. -/
theorem answered_parseOk {s : State} {w : InWait} (a : Answer) (h : s.parseOk = true) (hb : s.regs.state = .busy)
    (hp : s.eng.pending = some (.inReq w)) : (answered w a s).parseOk = true := by
  cases w <;> simp only [answered]
  case countByte => cases a.field 8 <;> exact parseOk_of_outside rfl
  case rewind => exact parseOk_of_outside rfl
  case encodeByte => exact parseOk_of_outside (encodeAnswered_outside _ s)
  case magicIn => exact magicAnswered_parseOk _ hb ((parseOk_magicIn hb hp).1 h)
  case typeBit => exact typeBitAnswered_parseOk _ hb ((parseOk_typeBit hb hp).1 h)
  case symbolField => exact symbolAnswered_parseOk _ hb ((parseOk_symbolField hb hp).1 h)
  case walkBit => exact parseOk_of_outside (walkAnswered_outside _ s)

/-- PHASE <- p keeps the invariant: HEADER_IN begins with NEXT = 0, which NODE_COUNT is. -/
theorem enterPhaseEvent_parseOk {s : State} {p : Phase} (h : s.parseOk = true) (hb : s.regs.state = .busy)
    (hp : s.eng.pending = none) (ht : s.eng.todo = some (.enterPhase p)) : (enterPhaseEvent p s).parseOk = true := by
  cases p
  case headerIn =>
    exact (parseOk_typeBit (s := startParse (s.setPhase .headerIn)) hb rfl).2
      (slotsOk_iff.2 ⟨Nat.zero_le _, (parseOk_enterHeaderIn hb hp ht).1 h, rfl⟩)
  case terminate => exact parseOk_of_outside (emitNext_outside _)
  case decode => exact parseOk_of_outside (startDecode_outside _)
  all_goals exact parseOk_of_outside rfl

/-- The internal event that is next keeps the invariant. -/
theorem internalEvent_parseOk {s : State} {e : Internal} (h : s.parseOk = true) (hb : s.regs.state = .busy)
    (hp : s.eng.pending = none) (ht : s.eng.todo = some e) : (internalEvent e s).parseOk = true := by
  cases e
  case enterPhase p => exact enterPhaseEvent_parseOk h hb hp ht
  case writeNode n => exact writeNodeEvent_parseOk n hb ((parseOk_writeNode hb hp ht).1 h)
  case link i => exact linkEvent_parseOk i hb ((parseOk_link hb hp ht).1 h).2
  all_goals exact parseOk_of_outside rfl

/-- An engine event keeps the invariant. -/
theorem engineEvent_parseOk {s : State} (h : s.parseOk = true) : (engineEvent s).parseOk = true := by
  rcases engineEvent_cases s with he | ⟨hb, w, a, as, hp, -, he⟩ | ⟨-, w, -, -, he⟩ | ⟨hb, e, hp, ht, he⟩ <;> rw [he]
  · exact h
  · exact answered_parseOk (s := s.dropAnswers 1) a h hb hp
  · exact parseOk_of_outside (outAccepted_outside w _)
  · exact internalEvent_parseOk h hb hp ht

/-- A wire token keeps the invariant: it is READs and a write of the parse, or ends in ERROR. -/
theorem token_parseOk {s t : State} {i : Instr} (hi : i.port ≠ .command) (h : s.parseOk = true) (he : exec i s = .next t) :
    t.parseOk = true := by
  have hopen : s.awaits .typeBit = true → s.eng.next.toNat ≠ Config.nodeCap → s.regs.state = .busy ∧ (allocate s).slotOpen := by
    intro ha hfree
    obtain ⟨hb, hp⟩ := awaits_iff.1 ha
    exact ⟨hb, allocate_slotOpen ((parseOk_typeBit hb hp).1 h) hfree⟩
  rcases exec_token_cases hi he with ⟨ha, rfl⟩ | ⟨b, rfl⟩ | ⟨ha, hfree, rfl⟩ | ⟨v, ha, hfree, rfl⟩ | ⟨v, rfl⟩
  · obtain ⟨hb, hp⟩ := awaits_iff.1 ha
    exact (parseOk_enterHeaderIn (by exact hb) rfl rfl).2 ((parseOk_magicIn hb hp).1 h)
  · exact parseOk_of_outside rfl
  · obtain ⟨hb, hslot⟩ := hopen ha hfree
    exact writeNodeEvent_parseOk (s := internalRead s) _ hb hslot
  · obtain ⟨hb, hslot⟩ := hopen ha hfree
    exact writeNodeEvent_parseOk (s := leafRead v s) _ hb hslot
  · exact parseOk_of_outside rfl

/-- A host write keeps the invariant: an accepted command clears NODE_COUNT, and no other write reaches what it speaks of. -/
theorem hostWrite_parseOk {s t : State} {addr : RegAddr} {v : Word} (h : s.parseOk = true) (hw : hostWrite addr v s = .next t) :
    t.parseOk = true := by
  rcases hostWrite_cases hw with ⟨-, rfl⟩ | ⟨-, -, rfl⟩ | ⟨-, -, rfl⟩ | ⟨-, -, -, rfl⟩ | ⟨-, -, -, rfl⟩ | ⟨-, -, -, rfl⟩ |
      ⟨-, -, -, rfl⟩
  · unfold writeRegister
    split <;> exact h
  · exact h
  · exact h
  · exact h
  · exact parseOk_of_outside rfl
  · exact (parseOk_magicIn rfl rfl).2 rfl
  · exact parseOk_of_not_busy nofun

/-- Settles O59: a reset ends any parse, and each other kind of step keeps the invariant. -/
theorem parseInvariantIsKept : Obligations.ParseInvariantIsKept := by
  unfold Obligations.ParseInvariantIsKept
  intro s t h hstep
  rcases step_cases hstep with ⟨rest, -, rfl⟩ | ⟨addr, rest, -, rfl⟩ | ⟨addr, v, rest, -, hw⟩ | ⟨rest, -, rfl⟩ | ⟨-, rfl⟩ |
      ⟨-, i, n, hf, he⟩
  · exact parseOk_of_outside rfl
  · exact h
  · exact hostWrite_parseOk (s := s.withAgenda rest) h hw
  · exact engineEvent_parseOk (s := s.withAgenda rest) h
  · exact engineEvent_parseOk h
  · exact token_parseOk (s := s.dropAnswers n) (fetch_port hf) h he

end Sys2Proof.Machine
end

section
/-!
The encoder's claims, part one: the events of pass 2, which write the code of each byte and then PEOF's, close OUT and end the command
(44_encoder.md R191 to R196).
-/

namespace Sys2Proof.Machine

/-! ### A byte of pass 2 -/

/-- A byte as a symbol keeps its value. -/
theorem toNat_setWidth_byte (b : Byte) : (b.setWidth 9).toNat = b.toNat := by
  have hlt := b.isLt
  rw [BitVec.toNat_setWidth]
  omega

section
variable {s : State} {x : Answer} {b : Byte} {as : List Answer} (hb : s.regs.state = .busy)
  (hp : s.eng.pending = some (.inReq .encodeByte)) (hs : s.env.inScript = x :: as)

include hb hp hs

/-- The READ(8) of pass 2 that returns a byte with a code begins to emit it (R191, R194). -/
theorem engineEvent_encode_present (hx : x.field 8 = some b) (hc : (s.codeAt b.toNat).present = true) :
    engineEvent s = startEmit (b.setWidth 9) ((s.dropAnswers 1).readRaw (some b)) := by
  rw [engineEvent_in hb hp hs, answered, hx]
  exact if_pos hc

/-- The READ(8) of pass 2 that returns a byte without a code is followed by the error entry (R193). -/
theorem engineEvent_encode_absent (hx : x.field 8 = some b) (hc : (s.codeAt b.toNat).present = false) :
    engineEvent s = ((s.dropAnswers 1).readRaw (some b)).plan (.raise .noCode) := by
  rw [engineEvent_in hb hp hs, answered, hx]
  exact if_neg (by rw [State.dropAnswers_codeAt, hc]; nofun)

/-- The READ(8) of pass 2 that returns EOF is followed by PHASE <- TERMINATE (R186, R195). -/
theorem engineEvent_encode_eof (hx : x.eof = true) :
    engineEvent s = ((s.dropAnswers 1).recordIn (.read 8 none)).plan (.enterPhase .terminate) := by
  rw [engineEvent_in hb hp hs, answered, show x.field 8 = none from if_pos hx]
  rfl

end

/-- After the last bit of a byte's code the byte is counted and the next one is read (R191, R192). -/
theorem codeDone_of_byte {s : State} {b : Byte} (h : s.eng.encSym = b.setWidth 9) :
    codeDone s = s.countEnc.await (.inReq .encodeByte) :=
  if_neg (by rw [h]; exact setWidth_byte_ne_peof b)

/-- After the last bit of PEOF's code PHASE <- CLOSE is next (R195, R196). -/
theorem codeDone_of_peof {s : State} (h : s.eng.encSym = Config.peof) : codeDone s = s.plan (.enterPhase .close) := if_pos h

/-- Settles O47: the READ finds no code, and the event after it is the error entry. -/
theorem byteWithoutCodeIsNoCode : Obligations.ByteWithoutCodeIsNoCode := by
  unfold Obligations.ByteWithoutCodeIsNoCode
  intro s x b as hb hp hs hx hc
  have hrun : engineRun 2 s = (((s.dropAnswers 1).readRaw (some b)).plan (.raise .noCode)).errorEntry .noCode := by
    simp only [engineRun, engineEvent_encode_absent hb hp hs hx hc]
    exact engineEvent_plan _ (by exact hb)
  rw [hrun]
  refine ⟨rfl, ?_, rfl, rfl⟩
  simp [hs]

/-- All bits of a byte's code, after which the byte is counted and the next one is read (R191, R192, R194). -/
theorem emit_byte {b : Byte} {s : State} (hb : s.regs.state = .busy) (hc : (s.codeAt b.toNat).len.toNat ≤ s.env.outCredit) :
    engineRun (s.codeAt b.toNat).len.toNat (startEmit (b.setWidth 9) s) =
      (emitted (b.setWidth 9) s).countEnc.await (.inReq .encodeByte) := by
  have hall := emit_all (b.setWidth 9) s hb
  rw [toNat_setWidth_byte] at hall
  exact (hall hc).trans (codeDone_of_byte rfl)

/-- Settles O46: the READ begins the emission, whose bits are all of the code, and the byte is then counted. -/
theorem encodeWritesTheCodeOfAByte : Obligations.EncodeWritesTheCodeOfAByte := by
  unfold Obligations.EncodeWritesTheCodeOfAByte
  intro s x b as hb hp hs hx hc hcredit c t
  have ht : t = (emitted (b.setWidth 9) ((s.dropAnswers 1).readRaw (some b))).countEnc.await (.inReq .encodeByte) := by
    show engineRun (c.len.toNat + 1) s = _
    rw [engineRun, engineEvent_encode_present hb hp hs hx hc]
    exact emit_byte (s := (s.dropAnswers 1).readRaw (some b)) hb hcredit
  rw [ht]
  refine ⟨?_, ?_, ?_, rfl⟩ <;> simp only [emitted, toNat_setWidth_byte]
  · simp [hs, c]
  · rfl
  · rfl

/-! ### The end of pass 2 -/

section
variable (s : State)

/-- `s` in phase TERMINATE, with the EOF of pass 2 read (R195). -/
def inTerminate : State := (((s.dropAnswers 1).recordIn (.read 8 none)).plan (.enterPhase .terminate)).setPhase .terminate

/-- `s` in phase TERMINATE after PEOF's code has been written (R194, R195). -/
def terminated : State := emitted Config.peof (inTerminate s)

@[simp] theorem terminated_regs : (terminated s).regs =
    { s.regs with phase := .terminate, bitCount := s.regs.bitCount + BitVec.ofNat 32 (s.codeAt 256).len.toNat } := rfl

@[simp] theorem terminated_tables : (terminated s).tables = s.tables := rfl

@[simp] theorem terminated_env : (terminated s).env =
    { s.env with inScript := s.env.inScript.drop 1, outTrace := s.env.outTrace ++ bitWrites (s.codeAt 256).path,
                 outCredit := s.env.outCredit - (s.codeAt 256).len.toNat, inTrace := s.env.inTrace ++ [.read 8 none] } := rfl

end

section
variable {s : State} {a : Answer} {as : List Answer} (hb : s.regs.state = .busy)
  (hp : s.eng.pending = some (.inReq .encodeByte)) (hs : s.env.inScript = a :: as) (ha : a.eof = true)

include hb hp hs ha

/-- The event after the EOF is PHASE <- TERMINATE, in which emit(PEOF) begins (R186, R195). -/
theorem run_terminate : engineRun 2 s = startEmit Config.peof (inTerminate s) := by
  simp only [engineRun, engineEvent_encode_eof hb hp hs ha]
  exact engineEvent_enter (p := .terminate) hb rfl rfl

/-- All of PEOF's code, after which PHASE <- CLOSE is next (R195, R196). -/
theorem run_terminated (hc : (s.codeAt 256).len.toNat ≤ s.env.outCredit) :
    engineRun ((s.codeAt 256).len.toNat + 2) s = (terminated s).plan (.enterPhase .close) := by
  rw [Nat.add_comm, run_add, run_terminate hb hp hs ha]
  exact (emit_all Config.peof (inTerminate s) hb hc).trans (codeDone_of_peof rfl)

end

/-- A transaction of no bits leaves BIT_COUNT (10_state.md R46). -/
theorem countBits_zero (s : State) : s.countBits 0 = s := by simp [State.countBits]

/-- CLOSE, and then the event that sets DONE (R196). -/
theorem run_close {s : State} (hb : s.regs.state = .busy) (hc : s.env.outCredit ≠ 0) :
    engineRun 2 (s.await (.outReq .close)) = finishEvent ((s.spendCredit.recordOut .close).plan .finish) := by
  have hclose : engineEvent (s.await (.outReq .close)) = ((s.spendCredit.recordOut .close).countBits 0).plan .finish :=
    engineEvent_out (s := s.await (.outReq .close)) (w := .close) hb rfl hc
  rw [countBits_zero] at hclose
  simp only [engineRun, hclose]
  exact engineEvent_plan _ hb

/-- Settles O48: EOF, PHASE <- TERMINATE with PEOF's code, PHASE <- CLOSE, CLOSE and the ending event, one after the other. -/
theorem terminatorCloseAndDone : Obligations.TerminatorCloseAndDone := by
  unfold Obligations.TerminatorCloseAndDone
  intro s a as hb hp hs ha hcredit c t
  have hread : engineRun 1 s = ((s.dropAnswers 1).recordIn (.read 8 none)).plan (.enterPhase .terminate) :=
    engineEvent_encode_eof hb hp hs ha
  have hemit : engineRun (c.len.toNat + 2) s = (terminated s).plan (.enterPhase .close) :=
    run_terminated hb hp hs ha hcredit.le
  have hclose : engineRun (c.len.toNat + 3) s = ((terminated s).setPhase .close).await (.outReq .close) := by
    rw [show c.len.toNat + 3 = c.len.toNat + 2 + 1 from rfl, run_add, hemit]
    exact engineEvent_enter (p := .close) hb rfl rfl
  have ht : t = finishEvent ((((terminated s).setPhase .close).spendCredit.recordOut .close).plan .finish) := by
    show engineRun (c.len.toNat + 5) s = _
    rw [show c.len.toNat + 5 = c.len.toNat + 3 + 2 from rfl, run_add, hclose]
    exact run_close (s := (terminated s).setPhase .close) hb (Nat.sub_ne_zero_of_lt hcredit)
  rw [ht, hclose, hemit, run_terminate hb hp hs ha, hread]
  refine ⟨rfl, ?_, rfl, rfl, rfl, ?_, rfl, rfl, rfl, rfl⟩
  · obtain ⟨x, hx⟩ := startTerminator_frame (inTerminate s)
    rw [hx]
    rfl
  · simp [finishEvent, hs, c, Nat.sub_sub]

end Sys2Proof.Machine
end

section
/-!
The encoder's claims, part two: a COMPRESS from its acceptance to DONE, phase after phase (44_encoder.md R185 to R197).
-/

namespace Sys2Proof.Machine

/-! ### States that a run reaches -/

/-- Some number of engine events leads from `s` to `t`. -/
def State.reaches (s t : State) : Prop := ∃ n, engineRun n s = t

theorem State.reaches_run (n : Nat) (s : State) : s.reaches (engineRun n s) := ⟨n, rfl⟩

theorem State.reaches.trans {s t u : State} (h : s.reaches t) (k : t.reaches u) : s.reaches u := by
  obtain ⟨m, rfl⟩ := h
  obtain ⟨n, rfl⟩ := k
  exact ⟨m + n, run_add m n s⟩

/-! ### Pass 1 and the rewind -/

/-- The RESET answered, and PHASE <- BUILD (R188). -/
theorem run_rewind {s : State} {r : Answer} {as : List Answer} (hb : s.regs.state = .busy)
    (hp : s.eng.pending = some (.inReq .rewind)) (hs : s.env.inScript = r :: as) :
    engineRun 2 s = ((((s.dropAnswers 1).recordIn .reset).plan (.enterPhase .build)).setPhase .build).plan .build := by
  simp only [engineRun, engineEvent_in hb hp hs]
  exact engineEvent_enter (p := .build) hb rfl rfl

/-- Pass 1 over the bytes `bs` and the rewind after it: BUILD is next, and the counters that are not 0 are those of the bytes of `bs`
(R187, R188). -/
theorem reaches_build {s : State} {bs : List Byte} {q as : List Answer} {a r : Answer} (hb : s.regs.state = .busy)
    (hp : s.eng.pending = none) (ht : s.eng.todo = some (.enterPhase .count)) (hs : s.env.inScript = q ++ a :: r :: as)
    (hq : gives (bs.map (writeTx 8)) q = true) (ha : a.eof = true) :
    ∃ u, s.reaches u ∧ u.eng.pending = none ∧ u.eng.todo = some .build ∧ (∀ c : Byte, u.freqAt c.toNat ≠ 0#32 ↔ c ∈ bs) ∧
      u.regs = { s.regs with symCount := s.regs.symCount + BitVec.ofNat 32 bs.length, phase := .build } ∧
      u.env = { s.env with inScript := as
                           inTrace := s.env.inTrace ++ (bs.map fun b => .read 8 (some (b.setWidth 32))) ++
                             [.read 8 none, .reset] } := by
  obtain ⟨hfreq, hregs, heng, -, -, -, henv⟩ := countPhaseCountsEveryByte s bs q a (r :: as) hb hp ht hs hq ha
  obtain ⟨t, htr⟩ : ∃ t, t = engineRun (2 * bs.length + 4) s := ⟨_, rfl⟩
  rw [← htr] at hfreq hregs heng henv
  have hrewind := run_rewind (s := t) (r := r) (as := as) (by rw [hregs]; exact hb) (by rw [heng]) (by rw [henv])
  refine ⟨_, State.reaches.trans ⟨_, htr.symm⟩ ⟨2, hrewind⟩, rfl, rfl, fun c => ?_, ?_, ?_⟩
  · have hpos : (t.freqAt c.toNat).toNat = min (bs.count c) (2 ^ 32 - 1) := hfreq c
    have hcount := List.count_pos_iff (a := c) (l := bs)
    show t.freqAt c.toNat ≠ 0#32 ↔ _
    rw [← hcount, ne_eq, ← BitVec.toNat_inj, hpos, show (0#32).toNat = 0 from rfl]
    omega
  · simp [hregs]
  · simp [henv]

/-! ### BUILD and CODEGEN -/

/-- The leaves that BUILD makes are Symbols, each once (41_tree_builder.md R141). -/
theorem symbols_of_byte_leaves {tr : CodeTree} {p : Nat → Bool}
    (h : tr.symbols.Perm (((List.range 256).filter p).map (BitVec.ofNat 9) ++ [256#9])) :
    tr.symbols.Nodup ∧ tr.symbolsOk = true ∧ tr.leaves ≤ 257 := by
  have hlt : ∀ c ∈ (List.range 256).filter p, c < 256 := fun c hc => List.mem_range.1 (List.mem_of_mem_filter hc)
  have hval : ∀ v ∈ ((List.range 256).filter p).map (BitVec.ofNat 9), v.toNat < 256 := by
    intro v hv
    obtain ⟨c, hc, rfl⟩ := List.mem_map.1 hv
    have := hlt c hc
    rw [BitVec.toNat_ofNat]
    omega
  refine ⟨h.nodup_iff.2 ?_, ?_, ?_⟩
  · refine List.Nodup.append (List.Nodup.map_on ?_ (List.nodup_range.filter _)) (List.nodup_singleton _) ?_
    · intro c hc d hd hcd
      have hc := hlt c hc
      have hd := hlt d hd
      bv_omega
    · intro v hv hm
      have := hval v hv
      rw [List.mem_singleton.1 hm] at this
      exact absurd this (by decide)
  · refine CodeTree.symbolsOk_iff.2 fun v hv => ?_
    rcases List.mem_append.1 (h.mem_iff.1 hv) with hm | hm
    · exact (hval v hm).le
    · rw [List.mem_singleton.1 hm]
      decide
  · have hlen := h.length_eq
    have hfl := List.length_filter_le p (List.range 256)
    simp only [leaves_symbols, List.length_append, List.length_map, List.length_singleton, List.length_range] at hlen hfl
    omega

/-- NODE holds `tr` at ROOT, and CODE has each leaf's path as its code, of at most 256 bits (42_code_table_gen.md R156). -/
structure HasCodes (s : State) (tr : CodeTree) : Prop where
  tree : s.holdsTree tr s.regs.root
  code : ∀ c ∈ tr.codes, (s.codeAt c.1.toNat).present = true ∧ (s.codeAt c.1.toNat).path = c.2
  depth : tr.depth ≤ 256

/-- The tree and the codes depend on the tables, ROOT and the draw of the slots not in use. -/
theorem HasCodes.congr {s t : State} {tr : CodeTree} (h : HasCodes s tr) (ht : t.tables = s.tables)
    (hr : t.regs.root = s.regs.root) (hd : t.env.staleDraw = s.env.staleDraw) : HasCodes t tr where
  tree := by
    rw [hr]
    exact (holds_congr (State.nodeAt_congr (by rw [ht]) hd) tr _).2 h.tree
  code c hc := by
    rw [State.codeAt_congr (s := s) (by rw [ht]) (by rw [ht])]
    exact h.code c hc
  depth := h.depth

@[simp] theorem CodeEntry.length_path (c : CodeEntry) : c.path.length = c.len.toNat := by simp [CodeEntry.path]

/-- A leaf's symbol has a code, of at most 256 bits. -/
theorem HasCodes.of_mem {s : State} {tr : CodeTree} (h : HasCodes s tr) {v : Symbol} (hv : v ∈ tr.symbols) :
    (s.codeAt v.toNat).present = true ∧ (s.codeAt v.toNat).len.toNat ≤ 256 := by
  obtain ⟨p, hp⟩ := symbols_codes tr v hv
  obtain ⟨hpresent, hpath⟩ := h.code _ hp
  refine ⟨hpresent, ?_⟩
  rw [← CodeEntry.length_path, hpath]
  exact (codes_depth tr _ hp).trans h.depth

/-- BUILD and PHASE <- CODEGEN: NODE holds a tree of the bytes that occur and PEOF, and CODEGEN is next (41_tree_builder.md R141 to
R147). -/
theorem reaches_codegen {s : State} (hb : s.regs.state = .busy) (hp : s.eng.pending = none) (ht : s.eng.todo = some .build) :
    ∃ (u : State) (tr : CodeTree), s.reaches u ∧ u.eng.pending = none ∧ u.eng.todo = some .codegen ∧
      tr.symbols.Perm (((List.range 256).filter fun c => s.freqAt c ≠ 0#32).map (BitVec.ofNat 9) ++ [256#9]) ∧
      u.holdsTree tr u.regs.root ∧ tr.depth ≤ 256 ∧
      (∃ l n r d, u.regs = { s.regs with phase := .codegen, leafCount := l, nodeCount := n, root := r, treeDepth := d }) ∧
      u.env = s.env := by
  obtain ⟨tr, htree, hperm, -, hdepth⟩ := buildMakesATreeOfTheOccurringSymbols s hb hp ht
  obtain ⟨-, -, -, -, -, -, -, hregs, heng, henv⟩ := buildPlacesLeavesAndCounts s hb hp ht
  obtain ⟨t, htr⟩ : ∃ t, t = engineEvent s := ⟨_, rfl⟩
  rw [← htr] at htree hregs heng henv
  have henter : engineRun 1 t = (t.setPhase .codegen).plan .codegen :=
    engineEvent_enter (p := .codegen) (by rw [hregs]; exact hb) (by rw [heng]) (by rw [heng])
  refine ⟨_, tr, State.reaches.trans ⟨1, htr.symm⟩ ⟨1, henter⟩, rfl, rfl, hperm, ?_, hdepth,
    ⟨t.regs.leafCount, t.regs.nodeCount, t.regs.root, t.regs.treeDepth, ?_⟩, henv⟩
  · exact (holds_congr (State.plan_nodeAt _ _) tr _).2 ((holds_congr (State.setPhase_nodeAt t _) tr _).2 htree)
  · rw [State.plan_regs, State.setPhase_regs, hregs]

/-- CODEGEN: CODE holds the codes of the tree at ROOT, and PHASE <- MAGIC_OUT is next (42_code_table_gen.md R156, R157). -/
theorem reaches_magicOut {s : State} {tr : CodeTree} (hb : s.regs.state = .busy) (hp : s.eng.pending = none)
    (ht : s.eng.todo = some .codegen) (htree : s.holdsTree tr s.regs.root) (hdepth : tr.depth ≤ 256) (hok : tr.symbolsOk = true)
    (hnd : tr.symbols.Nodup) :
    ∃ u, s.reaches u ∧ u.eng.pending = none ∧ u.eng.todo = some (.enterPhase .magicOut) ∧ HasCodes u tr ∧
      u.regs = s.regs ∧ u.env = s.env := by
  obtain ⟨hcode, -, hregs, heng, -, -, hnode, henv⟩ := codegenRecordsEveryPath s tr hb hp ht htree hdepth hok hnd
  refine ⟨engineEvent s, s.reaches_run 1, by rw [heng], by rw [heng], ⟨?_, fun c hc => ?_, hdepth⟩, hregs, henv⟩
  · rw [hregs]
    exact (holds_congr (State.nodeAt_congr hnode (by rw [henv])) tr _).2 htree
  · obtain ⟨hpresent, hpath, -⟩ := hcode c hc
    exact ⟨hpresent, hpath⟩

/-! ### The magic and the header -/

/-- `s` after PHASE <- MAGIC_OUT and the WRITE(32) of the magic, with the first node of the header to write (R189, R190). -/
def headerStarted (s : State) : State :=
  startHeader ((magicAccepted (wrote (s.setPhase .magicOut) [writeTx 32 Config.magic] 32)).setPhase .headerOut)

@[simp] theorem headerStarted_regs (s : State) :
    (headerStarted s).regs = { s.regs with phase := .headerOut, bitCount := s.regs.bitCount + 32#32 } := rfl

@[simp] theorem headerStarted_tables (s : State) : (headerStarted s).tables = s.tables := rfl

@[simp] theorem headerStarted_env (s : State) : (headerStarted s).env =
    { s.env with outTrace := s.env.outTrace ++ [writeTx 32 Config.magic], outCredit := s.env.outCredit - 1 } := rfl

/-- PHASE <- MAGIC_OUT, the WRITE(32) of the magic, and PHASE <- HEADER_OUT (R189, R190). -/
theorem run_magic {s : State} (hb : s.regs.state = .busy) (hp : s.eng.pending = none)
    (ht : s.eng.todo = some (.enterPhase .magicOut)) (hc : s.env.outCredit ≠ 0) : engineRun 3 s = headerStarted s := by
  have hwrite : engineEvent ((s.setPhase .magicOut).await (.outReq .magicOut)) =
      magicAccepted (wrote (s.setPhase .magicOut) [writeTx 32 Config.magic] 32) :=
    engineEvent_out (s := (s.setPhase .magicOut).await (.outReq .magicOut)) (w := .magicOut) hb rfl hc
  simp only [engineRun, engineEvent_enter hb hp ht, beginPhase, hwrite]
  exact engineEvent_enter (p := .headerOut) hb rfl rfl

/-- The magic and the header of the tree at ROOT: PHASE is ENCODE and the first READ(8) of pass 2 is outstanding (R189 to R191). -/
theorem reaches_encode {s : State} {tr : CodeTree} (hb : s.regs.state = .busy) (hp : s.eng.pending = none)
    (ht : s.eng.todo = some (.enterPhase .magicOut)) (hh : HasCodes s tr) (hc : 3 * tr.leaves ≤ s.env.outCredit) :
    ∃ u, s.reaches u ∧ u.eng.pending = some (.inReq .encodeByte) ∧ HasCodes u tr ∧
      u.regs = { s.regs with phase := .encode, bitCount := s.regs.bitCount + BitVec.ofNat 32 (32 + (11 * tr.leaves - 1)) } ∧
      u.env = { s.env with outTrace := s.env.outTrace ++ [writeTx 32 Config.magic] ++ tr.writes
                           outCredit := s.env.outCredit - 3 * tr.leaves } := by
  have hpos := leaves_pos tr
  have hstart : s.reaches (headerStarted s) := ⟨3, run_magic hb hp ht (by omega)⟩
  have hcodes : HasCodes (headerStarted s) tr := hh.congr rfl rfl rfl
  have hcredit : 3 * tr.leaves - 1 ≤ (headerStarted s).env.outCredit := Nat.sub_le_sub_right hc 1
  obtain ⟨-, -, -, henv, -, -, hregs, heng, htab⟩ := serializeWritesTheHeader (headerStarted s) tr hb rfl rfl hcodes.tree hcredit
  obtain ⟨u, hu⟩ : ∃ u, engineRun (3 * tr.leaves - 1 + 1) (headerStarted s) = u := ⟨_, rfl⟩
  have hlast : engineEvent (engineRun (3 * tr.leaves - 1) (headerStarted s)) = u := by rw [← hu, run_add]; rfl
  rw [hlast] at henv hregs heng htab
  refine ⟨u, hstart.trans ⟨_, hu⟩, by rw [heng], hcodes.congr htab (by rw [hregs]) (by rw [henv]), ?_, ?_⟩
  · rw [hregs, headerStarted_regs]
    simp [BitVec.ofNat_add, BitVec.add_assoc]
  · rw [henv, headerStarted_env, Nat.sub_sub, show 1 + (3 * tr.leaves - 1) = 3 * tr.leaves by omega]

/-! ### Pass 2 -/

/-- The WRITEs of the codes of the bytes `bs` (R192, R194). -/
def State.codeWrites (s : State) (bs : List Byte) : List OutTx := bs.flatMap fun x => bitWrites (s.codeAt x.toNat).path

/-- How many bits the codes of the bytes `bs` have. -/
def State.codeLength (s : State) (bs : List Byte) : Nat := (bs.map fun x => (s.codeAt x.toNat).len.toNat).sum

theorem State.codeLength_append (s : State) (bs cs : List Byte) : s.codeLength (bs ++ cs) = s.codeLength bs + s.codeLength cs := by
  simp [State.codeLength]

/-- `t` is `s` after pass 2 has read and written the bytes `bs`, with the answers `as` left (R191 to R194). -/
structure Encoded (s : State) (bs : List Byte) (as : List Answer) (t : State) : Prop where
  reached : s.reaches t
  pending : t.eng.pending = some (.inReq .encodeByte)
  tables : t.tables = s.tables
  regs : t.regs = { s.regs with encCount := s.regs.encCount + BitVec.ofNat 32 bs.length
                                bitCount := s.regs.bitCount + BitVec.ofNat 32 (s.codeLength bs) }
  env : t.env = { s.env with inScript := as
                             outTrace := s.env.outTrace ++ s.codeWrites bs
                             outCredit := s.env.outCredit - s.codeLength bs
                             inTrace := s.env.inTrace ++ bs.map fun b => .read 8 (some (b.setWidth 32)) }

theorem Encoded.codeAt {s t : State} {bs : List Byte} {as : List Answer} (h : Encoded s bs as t) (i : Nat) :
    t.codeAt i = s.codeAt i :=
  State.codeAt_congr (by rw [h.tables]) (by rw [h.tables]) i

theorem Encoded.codeLength {s t : State} {bs : List Byte} {as : List Answer} (h : Encoded s bs as t) (cs : List Byte) :
    t.codeLength cs = s.codeLength cs := by
  simp only [State.codeLength, h.codeAt]

theorem Encoded.refl {s : State} (hp : s.eng.pending = some (.inReq .encodeByte)) : Encoded s [] s.env.inScript s where
  reached := s.reaches_run 0
  pending := hp
  tables := rfl
  regs := by simp [State.codeLength]
  env := by simp [State.codeLength, State.codeWrites]

theorem Encoded.trans {s t u : State} {bs cs : List Byte} {as as' : List Answer} (h : Encoded s bs as t) (k : Encoded t cs as' u) :
    Encoded s (bs ++ cs) as' u where
  reached := h.reached.trans k.reached
  pending := k.pending
  tables := k.tables.trans h.tables
  regs := by simp [k.regs, h.regs, h.codeLength, s.codeLength_append, BitVec.ofNat_add, BitVec.add_assoc]
  env := by simp [k.env, h.env, h.codeLength, s.codeLength_append, State.codeWrites, h.codeAt, Nat.sub_sub]

/-- One byte of pass 2 (R192). -/
theorem encode_one {s : State} {x : Answer} {b : Byte} {as : List Answer} (hb : s.regs.state = .busy)
    (hp : s.eng.pending = some (.inReq .encodeByte)) (hs : s.env.inScript = x :: as) (hx : x.field 8 = some b)
    (hc : (s.codeAt b.toNat).present = true) (hcredit : (s.codeAt b.toNat).len.toNat ≤ s.env.outCredit) :
    ∃ t, Encoded s [b] as t := by
  obtain ⟨henv, hregs, heng, htab⟩ := encodeWritesTheCodeOfAByte s x b as hb hp hs hx hc hcredit
  refine ⟨_, s.reaches_run _, by rw [heng], htab, ?_, ?_⟩
  · rw [hregs]
    simp [State.codeLength]
  · rw [henv]
    simp [State.codeLength, State.codeWrites]

/-- Pass 2 over the answers that give the bytes `bs`, each with a code. -/
theorem encode_loop (bs : List Byte) : ∀ (s : State) (q as : List Answer), s.regs.state = .busy →
    s.eng.pending = some (.inReq .encodeByte) → s.env.inScript = q ++ as → gives (bs.map (writeTx 8)) q = true →
    (∀ b ∈ bs, (s.codeAt b.toNat).present = true) → s.codeLength bs ≤ s.env.outCredit → ∃ t, Encoded s bs as t := by
  induction bs with
  | nil =>
    intro s q as _ hp hs hq _ _
    obtain rfl := List.isEmpty_iff.1 hq
    obtain rfl : s.env.inScript = as := hs
    exact ⟨s, Encoded.refl hp⟩
  | cons b bs ih =>
    intro s q as hb hp hs hq hc hcredit
    obtain ⟨x, q, rfl, hx, hq⟩ := (gives_cons (by omega) _ _ _).1 hq
    have hlen : s.codeLength (b :: bs) = s.codeLength [b] + s.codeLength bs := s.codeLength_append [b] bs
    rw [hlen] at hcredit
    obtain ⟨t, hone⟩ := encode_one hb hp hs (hx.trans (by rw [BitVec.setWidth_eq])) (hc b List.mem_cons_self)
      ((Nat.le_add_right _ _).trans hcredit)
    obtain ⟨u, hrest⟩ := ih t q as (by rw [hone.regs]; exact hb) hone.pending (by rw [hone.env]; rfl) hq
      (fun c hm => by rw [hone.codeAt]; exact hc c (List.mem_cons_of_mem b hm))
      (by rw [hone.codeLength, hone.env]; exact Nat.le_sub_of_add_le' hcredit)
    exact ⟨u, hone.trans hrest⟩

/-- The EOF of pass 2, PEOF's code, CLOSE and the ending event (R195, R196). -/
theorem reaches_done {s : State} {a : Answer} {as : List Answer} (hb : s.regs.state = .busy)
    (hp : s.eng.pending = some (.inReq .encodeByte)) (hs : s.env.inScript = a :: as) (ha : a.eof = true)
    (hc : (s.codeAt 256).len.toNat < s.env.outCredit) :
    ∃ u, s.reaches u ∧ u.tables = s.tables ∧
      u.regs = { s.regs with state := .done, phase := .close,
                             bitCount := s.regs.bitCount + BitVec.ofNat 32 (s.codeAt 256).len.toNat } ∧
      u.env = { s.env with inScript := as, outTrace := s.env.outTrace ++ bitWrites (s.codeAt 256).path ++ [.close],
                           outCredit := s.env.outCredit - ((s.codeAt 256).len.toNat + 1),
                           inTrace := s.env.inTrace ++ [.read 8 none] } := by
  obtain ⟨-, -, -, -, -, henv, hregs, -, -, htab⟩ := terminatorCloseAndDone s a as hb hp hs ha hc
  exact ⟨_, s.reaches_run _, htab, hregs, henv⟩

/-! ### The whole command -/

/-- An accepted COMPRESS is BUSY without an error and with its counters 0, and COUNT is next (46_control.md R226). -/
theorem exec_compress_started {s0 s : State} (h0 : s0.regs.state ≠ .busy) (h : exec .compress s0 = .next s) :
    s.regs.state = .busy ∧ s.regs.errCode = none ∧ s.regs.symCount = 0#32 ∧ s.regs.encCount = 0#32 ∧ s.regs.bitCount = 0#32 ∧
      s.eng.pending = none ∧ s.eng.todo = some (.enterPhase .count) := by
  have hidle : ¬ s0.busy = true := by simpa [State.busy] using h0
  obtain rfl := Host.Outcome.next.inj ((if_neg hidle).symm.trans h)
  exact ⟨rfl, rfl, rfl, rfl, rfl, rfl, rfl⟩

/-- The symbols of the bytes with a counter that is not 0 are those of the bytes of `bs`. -/
theorem filter_occurring {s : State} {bs : List Byte} (h : ∀ c : Byte, s.freqAt c.toNat ≠ 0#32 ↔ c ∈ bs) :
    ((List.range 256).filter fun c => s.freqAt c ≠ 0#32) = (List.range 256).filter fun c => BitVec.ofNat 8 c ∈ bs := by
  refine List.filter_congr fun c hc => decide_eq_decide.2 ?_
  have hlt := List.mem_range.1 hc
  rw [← h, BitVec.toNat_ofNat, Nat.mod_eq_of_lt hlt]

/-- A byte of `bs` is a leaf of a tree of the bytes of `bs` and PEOF. -/
theorem byte_mem_symbols {tr : CodeTree} {bs : List Byte}
    (h : tr.symbols.Perm (((List.range 256).filter fun c => BitVec.ofNat 8 c ∈ bs).map (BitVec.ofNat 9) ++ [256#9])) {b : Byte}
    (hb : b ∈ bs) : b.setWidth 9 ∈ tr.symbols := by
  refine h.mem_iff.2 (List.mem_append_left _ (List.mem_map.2 ⟨b.toNat, ?_, ?_⟩))
  · simpa [b.isLt] using hb
  · apply BitVec.eq_of_toNat_eq
    simp

/-- The codes of bytes that are leaves are at most 256 bits each (10_state.md R52). -/
theorem HasCodes.codeLength_le {s : State} {tr : CodeTree} (h : HasCodes s tr) {bs : List Byte}
    (hbs : ∀ b ∈ bs, b.setWidth 9 ∈ tr.symbols) : s.codeLength bs ≤ 256 * bs.length := by
  have hsum := List.sum_le_card_nsmul (bs.map fun x => (s.codeAt x.toNat).len.toNat) 256 fun n hn => by
    obtain ⟨b, hb, rfl⟩ := List.mem_map.1 hn
    rw [← toNat_setWidth_byte]
    exact (h.of_mem (hbs b hb)).2
  rw [List.length_map, smul_eq_mul, Nat.mul_comm] at hsum
  exact hsum

/-- A COMPRESS up to pass 2: the bytes are counted, the tree and the codes are made, and the magic and the header are written (R187 to
R191). -/
theorem reaches_pass2 {s : State} {bs : List Byte} {q as : List Answer} {a r : Answer} (hb : s.regs.state = .busy)
    (hp : s.eng.pending = none) (ht : s.eng.todo = some (.enterPhase .count)) (hs : s.env.inScript = q ++ a :: r :: as)
    (hq : gives (bs.map (writeTx 8)) q = true) (ha : a.eof = true) (hc : 771 ≤ s.env.outCredit) :
    ∃ (u : State) (tr : CodeTree), s.reaches u ∧ u.eng.pending = some (.inReq .encodeByte) ∧
      tr.symbols.Perm (((List.range 256).filter fun c => BitVec.ofNat 8 c ∈ bs).map (BitVec.ofNat 9) ++ [256#9]) ∧ HasCodes u tr ∧
      tr.leaves ≤ 257 ∧
      (∃ l n r d, u.regs = { s.regs with phase := .encode, leafCount := l, nodeCount := n, root := r, treeDepth := d,
                                         symCount := s.regs.symCount + BitVec.ofNat 32 bs.length,
                                         bitCount := s.regs.bitCount + BitVec.ofNat 32 (32 + (11 * tr.leaves - 1)) }) ∧
      u.env = { s.env with inScript := as
                           outTrace := s.env.outTrace ++ [writeTx 32 Config.magic] ++ tr.writes
                           outCredit := s.env.outCredit - 3 * tr.leaves
                           inTrace := s.env.inTrace ++ (bs.map fun b => .read 8 (some (b.setWidth 32))) ++
                             [.read 8 none, .reset] } := by
  obtain ⟨s1, h1, hp1, ht1, hfreq, hregs1, henv1⟩ := reaches_build hb hp ht hs hq ha
  have hb1 : s1.regs.state = .busy := by rw [hregs1]; exact hb
  obtain ⟨s2, tr, h2, hp2, ht2, hperm, htree, hdepth, ⟨l, n, root, d, hregs2⟩, henv2⟩ := reaches_codegen hb1 hp1 ht1
  have hb2 : s2.regs.state = .busy := by rw [hregs2]; exact hb1
  rw [filter_occurring hfreq] at hperm
  obtain ⟨hnd, hok, hleaves⟩ := symbols_of_byte_leaves hperm
  obtain ⟨s3, h3, hp3, ht3, hcodes, hregs3, henv3⟩ := reaches_magicOut hb2 hp2 ht2 htree hdepth hok hnd
  have hb3 : s3.regs.state = .busy := by rw [hregs3]; exact hb2
  have hc3 : 3 * tr.leaves ≤ s3.env.outCredit := by
    rw [henv3, henv2, henv1]
    show 3 * tr.leaves ≤ s.env.outCredit
    omega
  obtain ⟨s4, h4, hp4, hcodes4, hregs4, henv4⟩ := reaches_encode hb3 hp3 ht3 hcodes hc3
  refine ⟨s4, tr, h1.trans (h2.trans (h3.trans h4)), hp4, hperm, hcodes4, hleaves, ⟨l, n, root, d, ?_⟩, ?_⟩
  · rw [hregs4, hregs3, hregs2, hregs1]
  · rw [henv4, henv3, henv2, henv1]

/-- Settles O52: the phases up to pass 2 leave the tree and its codes, pass 2 writes the code of every byte, and the rest is PEOF's code
and CLOSE. No event of pass 2 changes a table. -/
theorem compressWritesTheWholeStream : Obligations.CompressWritesTheWholeStream := by
  unfold Obligations.CompressWritesTheWholeStream
  intro s0 s bs q1 q2 a r b as h0 hexec hs hq1 hq2 ha hb hcredit
  obtain ⟨hbusy, herr, hsym, henc, hbit, hp, ht⟩ := exec_compress_started h0 hexec
  obtain ⟨u, tr, hu, hpu, hperm, hcodes, hleaves, ⟨l, n, root, d, hregsu⟩, henvu⟩ :=
    reaches_pass2 (bs := bs) hbusy hp ht hs hq1 ha (by omega)
  have hub : u.regs.state = .busy := by rw [hregsu]; exact hbusy
  have hcu : u.env.outCredit = s.env.outCredit - 3 * tr.leaves := by rw [henvu]
  have hbytes : ∀ x ∈ bs, x.setWidth 9 ∈ tr.symbols := fun x hx => byte_mem_symbols hperm hx
  have hpresent : ∀ x ∈ bs, (u.codeAt x.toNat).present = true := fun x hx => by
    rw [← toNat_setWidth_byte]
    exact (hcodes.of_mem (hbytes x hx)).1
  have hlen := hcodes.codeLength_le hbytes
  have hpeof : (u.codeAt 256).len.toNat ≤ 256 := (hcodes.of_mem (v := 256#9) (hperm.mem_iff.2 (by simp))).2
  obtain ⟨v, hv⟩ := encode_loop bs u q2 (b :: as) hub hpu (by rw [henvu]) hq2 hpresent (by omega)
  have hcv : v.env.outCredit = u.env.outCredit - u.codeLength bs := by rw [hv.env]
  obtain ⟨t, ht, htab, hregs, henv⟩ := reaches_done (by rw [hv.regs]; exact hub) hv.pending (by rw [hv.env]) hb
    (by rw [hv.codeAt]; omega)
  rw [hv.codeAt] at hregs henv
  have hcode : ∀ i, t.codeAt i = u.codeAt i := fun i =>
    (State.codeAt_congr (by rw [htab]) (by rw [htab]) i).trans (hv.codeAt i)
  have hcodest : HasCodes t tr := hcodes.congr (htab.trans hv.tables) (by rw [hregs, hv.regs]) (by rw [henv, hv.env])
  obtain ⟨k, rfl⟩ := hu.trans (hv.reached.trans ht)
  refine ⟨k, tr, ?_, ?_, ?_, hperm, hcodest.tree, fun c hc => (hcodest.code c hc).2, ?_, ?_, ?_, ?_, ?_, ?_⟩
  · rw [hregs]
  · rw [hregs]
  · rw [hregs, hv.regs, hregsu]
    exact herr
  · simp only [hcode]
    rw [henv, hv.env, henvu]
    simp [State.codeWrites, Config.magic]
  · rw [hregs, hv.regs, hregsu]
    simp [hsym]
  · rw [hregs, hv.regs, hregsu]
    simp [henc]
  · simp only [hcode]
    rw [hregs, hv.regs, hregsu]
    simp [hbit, State.codeLength, BitVec.ofNat_add, BitVec.add_assoc]
  · rw [henv, hv.env, henvu]
  · rw [henv]

end Sys2Proof.Machine
end
section
/-!
The decoder's claims, part one: the events of MAGIC_IN and DECODE, which are the first word's test, the entry of DECODE by the root and the
walk along one code (45_decoder.md R205 to R213).
-/

namespace Sys2Proof.Machine

/-! ### The first word -/

/-- The READ(32) answered with another word than the magic is followed by the error entry (R207). -/
theorem magicAnswered_other {v : Word} (s : State) (hv : v ≠ Config.magic) :
    magicAnswered (some v) s = (s.readCoded (some v)).plan (.raise .badMagic) :=
  if_neg hv

/-- Settles O25: the READ counts its 32 bits, and the event after it is the error entry. -/
theorem otherFirstWordIsBadMagic : Obligations.OtherFirstWordIsBadMagic := by
  unfold Obligations.OtherFirstWordIsBadMagic
  intro s a as hb hp hs ha hdata
  have hfield : a.field 32 = some a.data := by simp [Answer.field, ha]
  have hread : engineEvent s = ((s.dropAnswers 1).readCoded (some a.data)).plan (.raise .badMagic) := by
    rw [engineEvent_in hb hp hs, answered, hfield]
    exact magicAnswered_other _ hdata
  have hrun : engineRun 2 s = ((s.dropAnswers 1).readCoded (some a.data)).errorEntry .badMagic := by
    simp only [engineRun, hread]
    exact engineEvent_plan _ (by exact hb)
  rw [hrun]
  exact ⟨rfl, rfl, rfl, rfl⟩

/-! ### The entry of DECODE -/

/-- An internal root starts the walk (R209, R211). -/
theorem startDecode_of_internal {s : State} (h : (s.nodeAt s.regs.root).isLeaf = false) : startDecode s = startWalk s :=
  if_neg (by rw [h]; nofun)

/-- A PEOF root has PHASE <- CLOSE next (R209). -/
theorem startDecode_of_peof {s : State} (hl : (s.nodeAt s.regs.root).isLeaf = true)
    (hsym : (s.nodeAt s.regs.root).symbol = Config.peof) : startDecode s = s.plan (.enterPhase .close) :=
  (if_pos hl).trans (if_pos hsym)

/-- Any other leaf root has the error entry next (R210). -/
theorem startDecode_of_byte {s : State} (hl : (s.nodeAt s.regs.root).isLeaf = true)
    (hsym : (s.nodeAt s.regs.root).symbol ≠ Config.peof) : startDecode s = s.plan (.raise .degenerateTree) :=
  (if_pos hl).trans (if_neg hsym)

/-- Settles O50: PHASE <- DECODE tests the root, and what it plans for each kind of leaf root is the next event. -/
theorem decodeIsEnteredByTheRoot : Obligations.DecodeIsEnteredByTheRoot := by
  unfold Obligations.DecodeIsEnteredByTheRoot
  intro s hb hp
  refine ⟨fun ht => ?_, fun ht => ⟨fun hl => ?_, fun hl hsym => ?_, fun hl hsym => ?_⟩⟩
  · rw [engineEvent_internal hb hp ht]
    exact ⟨rfl, rfl, rfl, rfl⟩
  · rw [engineEvent_enter hb hp ht]
    exact startDecode_of_internal (s := s.setPhase .decode) hl
  · have hdecode : engineEvent s = (s.setPhase .decode).plan (.enterPhase .close) := by
      rw [engineEvent_enter hb hp ht]
      exact startDecode_of_peof (s := s.setPhase .decode) hl hsym
    refine ⟨hdecode, ?_⟩
    simp only [engineRun, hdecode]
    exact engineEvent_enter (p := .close) hb rfl rfl
  · have hdecode : engineEvent s = (s.setPhase .decode).plan (.raise .degenerateTree) := by
      rw [engineEvent_enter hb hp ht]
      exact startDecode_of_byte (s := s.setPhase .decode) hl hsym
    simp only [engineRun, hdecode]
    exact engineEvent_plan _ (by exact hb)

/-! ### The walk along a code -/

/-- At the PEOF leaf PHASE <- CLOSE is next (R212). -/
theorem arrive_of_peof {s : State} (hl : (s.nodeAt s.eng.cur).isLeaf = true) (hsym : (s.nodeAt s.eng.cur).symbol = Config.peof) :
    arrive s = s.plan (.enterPhase .close) :=
  (if_pos hl).trans (if_pos hsym)

/-- At a byte leaf the WRITE(8) of the byte is issued (R213). -/
theorem arrive_of_byte {s : State} (hl : (s.nodeAt s.eng.cur).isLeaf = true) (hsym : (s.nodeAt s.eng.cur).symbol ≠ Config.peof) :
    arrive s = s.await (.outReq .byteOut) :=
  (if_pos hl).trans (if_neg hsym)

/-- The WRITE(8) of the byte at CUR is accepted, SYM_COUNT goes up and the walk is back at the root (R213). -/
theorem engineEvent_byteOut {s : State} (hb : s.regs.state = .busy) (hc : s.env.outCredit ≠ 0) :
    engineEvent (s.await (.outReq .byteOut)) =
      startWalk ((s.await (.outReq .byteOut)).spendCredit.recordOut (writeTx 8 (s.nodeAt s.eng.cur).symbol)).countSym := by
  rw [engineEvent_out (s := s.await (.outReq .byteOut)) (w := .byteOut) hb rfl hc]
  exact congrArg byteAccepted (countBits_zero _)

/-- Settles O51: the READs lead to the leaf (`walk_loop`), and the event after the last one is the WRITE(8) or PHASE <- CLOSE. -/
theorem walkDecodesACode : Obligations.WalkDecodesACode := by
  unfold Obligations.WalkDecodesACode
  intro s tr sym p q as hb hp hcur htree hmem hne hs hq
  obtain ⟨c, l, hrun, hleaf, rfl, hbits⟩ := walk_loop tr sym p q as s hb hp (by rw [hcur]; exact htree) hmem hne hs hq
  refine ⟨fun hsym hcredit => ?_, fun hsym => ?_⟩
  · intro t
    have ht : t = startWalk (((readBits s p as c l).await (.outReq .byteOut)).spendCredit.recordOut
        (writeTx 8 (s.nodeAt c).symbol)).countSym := by
      show engineRun (p.length + 1) s = _
      rw [run_add, hrun, arrive_of_byte (s := readBits s p as c l) hleaf hsym]
      exact engineEvent_byteOut (s := readBits s p as c l) hb hcredit.ne'
    rw [ht]
    refine ⟨rfl, rfl, rfl, rfl, ?_⟩
    exact (inStream_append _ _).trans (by rw [hbits])
  · intro t
    have hlast : engineRun p.length s = (readBits s p as c l).plan (.enterPhase .close) := by
      rw [hrun]
      exact arrive_of_peof (s := readBits s p as c l) hleaf hsym
    have ht : t = ((readBits s p as c l).setPhase .close).await (.outReq .close) := by
      show engineRun (p.length + 1) s = _
      rw [run_add, hlast]
      exact engineEvent_enter (p := .close) hb rfl rfl
    rw [ht, hlast]
    refine ⟨rfl, rfl, rfl, rfl, rfl, rfl, ?_⟩
    exact (inStream_append _ _).trans (by rw [hbits])

end Sys2Proof.Machine
end
section
/-!
The decoder's claims, part two: a DECOMPRESS from its acceptance to DONE, and the round trip (45_decoder.md R205 to R219).
-/

namespace Sys2Proof.Machine

/-! ### What a run has read and written -/

/-- A run from `s` to `t` has read what the WRITEs `ts` wrote, with the answers `as` left, and has written the bytes `bs`. -/
structure Decoded (s : State) (ts : List OutTx) (bs : List Byte) (as : List Answer) (t : State) : Prop where
  reached : s.reaches t
  state : t.regs.state = s.regs.state
  symCount : t.regs.symCount = s.regs.symCount + BitVec.ofNat 32 bs.length
  stream : inStream t.env.inTrace = inStream s.env.inTrace ++ outStream ts
  env : t.env = { s.env with inScript := as, inTrace := t.env.inTrace
                             outTrace := s.env.outTrace ++ bs.map (writeTx 8), outCredit := s.env.outCredit - bs.length }

theorem Decoded.of_same {s t : State} (hreached : s.reaches t) (hstate : t.regs.state = s.regs.state)
    (hsym : t.regs.symCount = s.regs.symCount) (henv : t.env = s.env) : Decoded s [] [] s.env.inScript t where
  reached := hreached
  state := hstate
  symCount := by simp [hsym]
  stream := by simp [henv, outStream]
  env := by simp [henv]

theorem Decoded.refl (s : State) : Decoded s [] [] s.env.inScript s := .of_same (s.reaches_run 0) rfl rfl rfl

theorem Decoded.trans {s t u : State} {ts us : List OutTx} {bs cs : List Byte} {as as' : List Answer} (h : Decoded s ts bs as t)
    (k : Decoded t us cs as' u) : Decoded s (ts ++ us) (bs ++ cs) as' u where
  reached := h.reached.trans k.reached
  state := k.state.trans h.state
  symCount := by rw [k.symCount, h.symCount, List.length_append, BitVec.ofNat_add, BitVec.add_assoc]
  stream := by rw [k.stream, h.stream, outStream_append, List.append_assoc]
  env := by
    rw [k.env, h.env]
    simp [Nat.sub_sub]

theorem Decoded.inScript {s t : State} {ts : List OutTx} {bs : List Byte} {as : List Answer} (h : Decoded s ts bs as t) :
    t.env.inScript = as := by rw [h.env]

theorem Decoded.outCredit {s t : State} {ts : List OutTx} {bs : List Byte} {as : List Answer} (h : Decoded s ts bs as t) :
    t.env.outCredit = s.env.outCredit - bs.length := by rw [h.env]

/-! ### The magic and the header -/

/-- `s` after the READ(32) of the magic and PHASE <- HEADER_IN, with the first type bit to read (R207; 43_tree_serializer.md R174). -/
def parseStarted (s : State) : State :=
  startParse ((((s.dropAnswers 1).readCoded (some Config.magic)).plan (.enterPhase .headerIn)).setPhase .headerIn)

/-- The magic is read, and the parse starts (R207). -/
theorem decoded_magic {s : State} {x : Answer} {as : List Answer} (hb : s.regs.state = .busy)
    (hp : s.eng.pending = some (.inReq .magicIn)) (hs : s.env.inScript = x :: as) (hx : x.field 32 = some Config.magic) :
    Decoded s [writeTx 32 Config.magic] [] as (parseStarted s) where
  reached := by
    refine ⟨2, ?_⟩
    have hread : engineEvent s = ((s.dropAnswers 1).readCoded (some Config.magic)).plan (.enterPhase .headerIn) := by
      rw [engineEvent_in hb hp hs, answered, hx]
      exact magicAnswered_magic _
    simp only [engineRun, hread]
    exact engineEvent_enter (p := .headerIn) hb rfl rfl
  state := rfl
  symCount := by simp [parseStarted, startParse]
  stream := inStream_append _ _
  env := by simp [parseStarted, startParse, hs]

/-- The header is read: NODE holds its tree at ROOT, and PHASE <- DECODE is next (R206; 43_tree_serializer.md R174, R180). -/
theorem decoded_header {s : State} {tr : CodeTree} {q as : List Answer} (hb : s.regs.state = .busy)
    (hp : s.eng.pending = some (.inReq .typeBit)) (hnext : s.eng.next = 0#10) (hst : s.eng.stack = []) (hok : tr.symbolsOk = true)
    (hsize : tr.size ≤ 513) (hs : s.env.inScript = q ++ as) (hq : gives tr.writes q = true) :
    ∃ t, Decoded s tr.writes [] as t ∧ t.eng.pending = none ∧ t.eng.todo = some (.enterPhase .decode) ∧
      t.holdsTree tr t.regs.root := by
  obtain ⟨u, l, hrun, hust, hregs, -, henv, hl, -, hpre, -⟩ :=
    parse_loop tr 0 [] s q as hb hp hnext hst (CodeTree.symbolsOk_iff.1 hok) (by omega) hs hq
  have hend := engineEvent_returnNode_root (BitVec.ofNat 10 0) (by rw [hregs]; exact hb) hust
  obtain ⟨t, ht⟩ : ∃ t, t = finishParseEvent (u.plan .finishParse) := ⟨_, rfl⟩
  have htregs : t.regs = { u.regs with root := 0#10, treeDepth := t.regs.treeDepth } := by rw [ht]; rfl
  have htenv : t.env = u.env := by rw [ht]; rfl
  have htnode : ∀ i, t.nodeAt i = u.nodeAt i := fun i => by rw [ht]; rfl
  refine ⟨t, ⟨?_, ?_, ?_, ?_, ?_⟩, by rw [ht]; rfl, by rw [ht]; rfl, ?_⟩
  · exact State.reaches.trans ⟨_, hrun⟩ ⟨1, hend.trans ht.symm⟩
  · rw [htregs, hregs]
  · rw [htregs, hregs]
    simp
  · rw [htenv, henv, inStream_append, hl, outStream_writes]
  · simp [htenv, henv]
  · rw [htregs]
    exact (holds_congr htnode tr _).2 (holdsPreorder_holds tr 0 hpre)

/-! ### The codes -/

/-- No leaf below an internal root has the empty code. -/
theorem codes_node_ne_nil {l r : CodeTree} {c : Symbol × List Bool} (h : c ∈ (CodeTree.node l r).codes) : c.2 ≠ [] := by
  simp only [CodeTree.codes, List.mem_append, List.mem_map] at h
  rcases h with ⟨d, -, rfl⟩ | ⟨d, -, rfl⟩ <;> exact List.cons_ne_nil _ _

/-- The walk stands at the root of the tree `tr` held in NODE, with its next READ(1) outstanding (R211). -/
structure AtRoot (s : State) (tr : CodeTree) : Prop where
  busy : s.regs.state = .busy
  pending : s.eng.pending = some (.inReq .walkBit)
  cur : s.eng.cur = s.regs.root
  tree : s.holdsTree tr s.regs.root

section
variable {l r : CodeTree}

/-- The code of a byte: the byte is written and the walk is back at the root (R211, R213). -/
theorem decoded_byte {s : State} {b : Byte} {p : List Bool} {q as : List Answer} (h : AtRoot s (.node l r))
    (hmem : (b.setWidth 9, p) ∈ (CodeTree.node l r).codes) (hs : s.env.inScript = q ++ as) (hq : gives (bitWrites p) q = true)
    (hc : 0 < s.env.outCredit) : ∃ t, Decoded s (bitWrites p) [b] as t ∧ AtRoot t (.node l r) := by
  obtain ⟨hbyte, -⟩ :=
    walkDecodesACode s _ _ p q as h.busy h.pending h.cur h.tree hmem (codes_node_ne_nil hmem) hs hq
  obtain ⟨henv, hregs, heng, htab, hstream⟩ := hbyte (setWidth_byte_ne_peof b) hc
  have hwrite : writeTx 8 (b.setWidth 9) = writeTx 8 b := by simp [writeTx]
  rw [hwrite] at henv
  refine ⟨_, ⟨s.reaches_run _, by rw [hregs], by rw [hregs]; rfl, by rw [outStream_bits]; exact hstream, henv⟩,
    ⟨by rw [hregs]; exact h.busy, by rw [heng], by rw [heng, hregs], ?_⟩⟩
  rw [hregs]
  exact (holds_congr (State.nodeAt_congr (by rw [htab]) (by rw [henv])) _ _).2 h.tree

/-- The codes of the bytes `bs` (R211, R213). -/
theorem decoded_bytes {code : Byte → List Bool} (bs : List Byte) : ∀ (s : State) (q as : List Answer), AtRoot s (.node l r) →
    (∀ b ∈ bs, (b.setWidth 9, code b) ∈ (CodeTree.node l r).codes) → s.env.inScript = q ++ as →
    gives (bs.flatMap fun b => bitWrites (code b)) q = true → bs.length ≤ s.env.outCredit →
    ∃ t, Decoded s (bs.flatMap fun b => bitWrites (code b)) bs as t ∧ AtRoot t (.node l r) := by
  induction bs with
  | nil =>
    intro s q as h _ hs hq _
    obtain rfl := List.isEmpty_iff.1 hq
    obtain rfl : s.env.inScript = as := hs
    exact ⟨s, Decoded.refl s, h⟩
  | cons b bs ih =>
    intro s q as h hcode hs hq hc
    rw [List.flatMap_cons] at hq ⊢
    rw [List.length_cons] at hc
    obtain ⟨qb, qs, rfl, hqb, hqs⟩ := (gives_append _ _ _).1 hq
    obtain ⟨t, hone, ht⟩ := decoded_byte h (hcode b List.mem_cons_self) (hs.trans (List.append_assoc ..)) hqb (by omega)
    obtain ⟨u, hrest, hu⟩ := ih t qs as ht (fun c hm => hcode c (List.mem_cons_of_mem b hm)) hone.inScript hqs
      (by rw [hone.outCredit]; exact Nat.le_sub_of_add_le hc)
    exact ⟨u, hone.trans hrest, hu⟩

/-- The code of PEOF: the walk ends with nothing written, and CLOSE is outstanding (R212, R216). -/
theorem decoded_peof {s : State} {p : List Bool} {q as : List Answer} (h : AtRoot s (.node l r))
    (hmem : (256#9, p) ∈ (CodeTree.node l r).codes) (hs : s.env.inScript = q ++ as) (hq : gives (bitWrites p) q = true) :
    ∃ t, Decoded s (bitWrites p) [] as t ∧ t.eng.pending = some (.outReq .close) ∧ t.eng.todo = none := by
  obtain ⟨-, hpeof⟩ := walkDecodesACode s _ _ p q as h.busy h.pending h.cur h.tree hmem (codes_node_ne_nil hmem) hs hq
  obtain ⟨-, henv, hregs, hpend, htodo, -, hstream⟩ := hpeof rfl
  refine ⟨_, ⟨s.reaches_run _, by rw [hregs], by simp [hregs], by rw [outStream_bits]; exact hstream, ?_⟩, hpend, htodo⟩
  rw [henv]
  simp

end

/-! ### DECODE -/

/-- PHASE <- DECODE over an internal root (R209, R211). -/
theorem decoded_enter {s : State} {l r : CodeTree} (hb : s.regs.state = .busy) (hp : s.eng.pending = none)
    (ht : s.eng.todo = some (.enterPhase .decode)) (htree : s.holdsTree (.node l r) s.regs.root) :
    ∃ t, Decoded s [] [] s.env.inScript t ∧ AtRoot t (.node l r) := by
  obtain ⟨hinternal, -⟩ := (decodeIsEnteredByTheRoot s hb hp).2 ht
  have hrun := hinternal htree.1
  have hnode : ∀ i, (engineEvent s).nodeAt i = s.nodeAt i := fun i => by rw [hrun]; rfl
  have hroot : (engineEvent s).regs.root = s.regs.root := by rw [hrun]
  refine ⟨engineEvent s, .of_same (s.reaches_run 1) (by rw [hrun]) (by rw [hrun]) (by rw [hrun]),
    ⟨by rw [hrun]; exact hb, by rw [hrun], by rw [hrun], ?_⟩⟩
  rw [hroot]
  exact (holds_congr hnode _ _).2 htree

/-- The whole of DECODE over the codes of the bytes `bs` and PEOF's: CLOSE is outstanding after it (R209 to R213). -/
theorem decoded_codes {s : State} {tr : CodeTree} {bs : List Byte} {code : Byte → List Bool} {p : List Bool} {q as : List Answer}
    (hb : s.regs.state = .busy) (hp : s.eng.pending = none) (ht : s.eng.todo = some (.enterPhase .decode))
    (htree : s.holdsTree tr s.regs.root) (hcode : ∀ b ∈ bs, (b.setWidth 9, code b) ∈ tr.codes) (hpeof : (256#9, p) ∈ tr.codes)
    (hs : s.env.inScript = q ++ as) (hq : gives ((bs.flatMap fun b => bitWrites (code b)) ++ bitWrites p) q = true)
    (hc : bs.length ≤ s.env.outCredit) :
    ∃ t, Decoded s ((bs.flatMap fun b => bitWrites (code b)) ++ bitWrites p) bs as t ∧ t.eng.pending = some (.outReq .close) ∧
      t.eng.todo = none := by
  cases tr with
  | leaf sym =>
    obtain ⟨rfl, rfl⟩ := Prod.mk.inj (List.mem_singleton.1 hpeof)
    obtain rfl : bs = [] := List.eq_nil_iff_forall_not_mem.2 fun b hm =>
      setWidth_byte_ne_peof b (Prod.mk.inj (List.mem_singleton.1 (hcode b hm))).1
    obtain rfl := List.isEmpty_iff.1 hq
    obtain rfl : s.env.inScript = as := hs
    obtain ⟨-, hroot, -⟩ := (decodeIsEnteredByTheRoot s hb hp).2 ht
    obtain ⟨-, hrun⟩ := hroot htree.1 htree.2
    exact ⟨_, Decoded.of_same ⟨2, hrun⟩ rfl rfl rfl, rfl, rfl⟩
  | node l r =>
    obtain ⟨qb, qp, rfl, hqb, hqp⟩ := (gives_append _ _ _).1 hq
    obtain ⟨s1, h1, hroot1⟩ := decoded_enter hb hp ht htree
    obtain ⟨s2, h2, hroot2⟩ := decoded_bytes bs s1 qb (qp ++ as) hroot1 hcode
      (h1.inScript.trans (hs.trans (List.append_assoc ..))) hqb (by rw [h1.outCredit]; exact hc)
    obtain ⟨s3, h3, hpend, htodo⟩ := decoded_peof hroot2 hpeof h2.inScript hqp
    have hall := (h1.trans h2).trans h3
    rw [List.nil_append, List.append_nil] at hall
    exact ⟨s3, hall, hpend, htodo⟩

/-! ### The whole command -/

/-- An accepted DECOMPRESS is BUSY with SYM_COUNT 0, and the READ(32) of the magic is outstanding (46_control.md R226). -/
theorem exec_decompress_started {s0 s : State} (h0 : s0.regs.state ≠ .busy) (h : exec .decompress s0 = .next s) :
    s.regs.state = .busy ∧ s.regs.symCount = 0#32 ∧ s.eng.pending = some (.inReq .magicIn) := by
  have hidle : ¬ s0.busy = true := by simpa [State.busy] using h0
  obtain rfl := Host.Outcome.next.inj ((if_neg hidle).symm.trans h)
  exact ⟨rfl, rfl, rfl⟩

/-- The WRITEs of the stream of the bytes `bs`, without CLOSE: the magic, the header, the codes and PEOF's (30_encoding.md R110). -/
def streamWrites (tr : CodeTree) (code : Byte → List Bool) (p : List Bool) (bs : List Byte) : List OutTx :=
  [writeTx 32 Config.magic] ++ tr.writes ++ ((bs.flatMap fun b => bitWrites (code b)) ++ bitWrites p)

/-- A DECOMPRESS of a stream up to its CLOSE (R205 to R213). -/
theorem decoded_stream {s : State} {tr : CodeTree} {bs : List Byte} {code : Byte → List Bool} {p : List Bool} {q as : List Answer}
    (hb : s.regs.state = .busy) (hp : s.eng.pending = some (.inReq .magicIn)) (hok : tr.symbolsOk = true) (hsize : tr.size ≤ 513)
    (hcode : ∀ b ∈ bs, (b.setWidth 9, code b) ∈ tr.codes) (hpeof : (256#9, p) ∈ tr.codes)
    (hs : s.env.inScript = q ++ as) (hq : gives (streamWrites tr code p bs) q = true) (hc : bs.length ≤ s.env.outCredit) :
    ∃ t, Decoded s (streamWrites tr code p bs) bs as t ∧ t.eng.pending = some (.outReq .close) ∧ t.eng.todo = none := by
  obtain ⟨qt, qc, rfl, hqt, hqc⟩ := (gives_append _ _ _).1 hq
  obtain ⟨x, qh, rfl, hx, hqh⟩ := (gives_cons (by omega) _ _ _).1 hqt
  have h1 := decoded_magic hb hp (hs.trans (List.append_assoc ..)) (hx.trans (by rw [BitVec.setWidth_eq]))
  obtain ⟨s2, h2, hp2, ht2, htree2⟩ := decoded_header (s := parseStarted s) hb rfl rfl rfl hok hsize h1.inScript hqh
  have h12 := h1.trans h2
  obtain ⟨t, h3, hpend, htodo⟩ := decoded_codes (h12.state.trans hb) hp2 ht2 htree2 hcode hpeof h12.inScript hqc
    (by rw [h12.outCredit]; exact hc)
  exact ⟨t, h12.trans h3, hpend, htodo⟩

/-- CLOSE and the event that sets DONE, where CLOSE is outstanding (R216). -/
theorem run_close_pending {s : State} (hb : s.regs.state = .busy) (hp : s.eng.pending = some (.outReq .close))
    (ht : s.eng.todo = none) (hc : s.env.outCredit ≠ 0) :
    engineRun 2 s = finishEvent ((s.spendCredit.recordOut .close).plan .finish) := by
  have hs : s.await (.outReq .close) = s := by simp only [State.await, ← hp, ← ht]
  rw [← run_close hb hc, hs]

/-- Where CODE has the path of every leaf, a leaf's symbol stands in the tree with its own code. -/
theorem mem_codes_of_path {s : State} {tr : CodeTree} (h : ∀ c ∈ tr.codes, (s.codeAt c.1.toNat).path = c.2) {v : Symbol}
    (hv : v ∈ tr.symbols) : (v, (s.codeAt v.toNat).path) ∈ tr.codes := by
  obtain ⟨p, hp⟩ := symbols_codes tr v hv
  rw [h _ hp]
  exact hp

/-- Settles O53: what the COMPRESS wrote is the stream of a tree that has the bytes and PEOF as leaves (`compressWritesTheWholeStream`),
and a DECOMPRESS of it rebuilds that tree and walks the same codes. -/
theorem roundTrip : Obligations.RoundTrip := by
  unfold Obligations.RoundTrip
  intro s0 s bs q1 q2 a r b as h0 hexec hs hq1 hq2 ha hb hcredit
  obtain ⟨n, tr, hdone, -, -, hperm, -, hpath, hout, -⟩ :=
    compressWritesTheWholeStream s0 s bs q1 q2 a r b as h0 hexec hs hq1 hq2 ha hb hcredit
  obtain ⟨t, ht⟩ : ∃ t, t = engineRun n s := ⟨_, rfl⟩
  rw [← ht] at hdone hpath hout
  obtain ⟨-, hok, hleaves⟩ := symbols_of_byte_leaves hperm
  have hsize : tr.size ≤ 513 := by have := size_leaves tr; omega
  have hcode : ∀ x ∈ bs, (x.setWidth 9, (t.codeAt x.toNat).path) ∈ tr.codes := fun x hx => by
    rw [← toNat_setWidth_byte]
    exact mem_codes_of_path hpath (byte_mem_symbols hperm hx)
  have hpeof : (256#9, (t.codeAt 256).path) ∈ tr.codes := mem_codes_of_path hpath (hperm.mem_iff.2 (by simp))
  refine ⟨n, streamWrites tr (fun x => (t.codeAt x.toNat).path) (t.codeAt 256).path bs ++ [.close],
    by rw [← ht]; exact hdone, ?_, ?_⟩
  · rw [← ht, hout]
    simp [streamWrites, Config.magic]
  · intro u0 u q rest hu0 hu hscript hq hroom
    obtain ⟨hub, husym, hup⟩ := exec_decompress_started hu0 hu
    obtain ⟨qs, qc, rfl, hqs, hqc⟩ := (gives_append _ _ _).1 hq
    obtain rfl : qc = [] := List.isEmpty_iff.1 hqc
    rw [List.append_nil] at hscript
    obtain ⟨v, hv, hpend, htodo⟩ := decoded_stream hub hup hok hsize hcode hpeof hscript hqs hroom.le
    have hclose := run_close_pending (hv.state.trans hub) hpend htodo (by rw [hv.outCredit]; omega)
    obtain ⟨m, hm⟩ := hv.reached.trans ⟨2, hclose⟩
    refine ⟨m, ?_⟩
    simp only [hm]
    refine ⟨rfl, ?_, ?_, hv.inScript, ?_⟩
    · show v.env.outTrace ++ [.close] = _
      rw [hv.env]
    · exact hv.symCount.trans (by simp [husym])
    · exact hv.stream.trans (by simp [outStream, OutTx.bits])

end Sys2Proof.Machine
end
section
/-!
The control family's claims: what the four commands do in each STATE, and the host writes outside CMD (46_control.md R225 to R232).
-/

namespace Sys2Proof.Machine

/-! ### The commands by STATE -/

theorem State.busy_iff {s : State} : s.busy = true ↔ s.regs.state = .busy := decide_eq_true_iff

/-- COMPRESS is accepted in IDLE, DONE and ERROR (46_control.md R226). -/
theorem exec_compress_of_not_busy {s : State} (h : s.regs.state ≠ .busy) :
    exec .compress s = .next ((s.begin .compress .count).plan (.enterPhase .count)) :=
  if_neg (mt State.busy_iff.1 h)

/-- DECOMPRESS is accepted in IDLE, DONE and ERROR (46_control.md R226). -/
theorem exec_decompress_of_not_busy {s : State} (h : s.regs.state ≠ .busy) :
    exec .decompress s = .next ((s.begin .decompress .magicIn).await (.inReq .magicIn)) :=
  if_neg (mt State.busy_iff.1 h)

/-- CLEAR is accepted in IDLE, DONE and ERROR (46_control.md R228). -/
theorem exec_clear_of_not_busy {s : State} (h : s.regs.state ≠ .busy) : exec .clear s = .next s.toIdle :=
  if_neg (mt State.busy_iff.1 h)

/-- Every command but NOP is rejected while BUSY (46_control.md R230). -/
theorem exec_command_of_busy {s : State} {i : Instr} (hp : i.port = .command) (hi : i ≠ .nop) (h : s.regs.state = .busy) :
    exec i s = .next s.setCmdErr := by
  have hb := State.busy_iff.2 h
  cases i with
  | nop => exact absurd rfl hi
  | compress => exact if_pos hb
  | decompress => exact if_pos hb
  | clear => exact if_pos hb
  | magic => cases hp
  | treeInternal => cases hp
  | treeLeaf => cases hp

/-- No interrupt outside DONE and ERROR (60_exceptions.md R247). -/
theorem State.irq_of_not_ended {s : State} (hd : s.regs.state ≠ .done) (he : s.regs.state ≠ .error) : s.irq = false := by
  simp [State.irq, hd, he]

/-! ### NOP, COMPRESS, DECOMPRESS and CLEAR -/

/-- Settles O9: NOP's word decodes to it, and its meaning is the state it is given. -/
theorem nopChangesNothing : Obligations.NopChangesNothing := by
  unfold Obligations.NopChangesNothing
  exact ⟨decodeCommand_of_encode rfl rfl, fun s => rfl⟩

/-- Settles O10: the accepted COMPRESS is `State.begin` with COUNT's first event planned. -/
theorem compressIsAcceptedWhenNotBusy : Obligations.CompressIsAcceptedWhenNotBusy := by
  unfold Obligations.CompressIsAcceptedWhenNotBusy
  intro s h
  exact ⟨_, exec_compress_of_not_busy h, rfl, rfl, State.irq_of_not_ended nofun nofun, rfl, rfl⟩

/-- Settles O11: the accepted DECOMPRESS is `State.begin` with the READ of the magic outstanding. -/
theorem decompressIsAcceptedWhenNotBusy : Obligations.DecompressIsAcceptedWhenNotBusy := by
  unfold Obligations.DecompressIsAcceptedWhenNotBusy
  intro s h
  exact ⟨_, exec_decompress_of_not_busy h, rfl, rfl, State.irq_of_not_ended nofun nofun, rfl, rfl⟩

/-- Settles O12: outside BUSY CLEAR is `State.toIdle`, and while BUSY it is rejected as the others are. -/
theorem clearIsAcceptedWhenNotBusy : Obligations.ClearIsAcceptedWhenNotBusy := by
  unfold Obligations.ClearIsAcceptedWhenNotBusy
  refine ⟨decodeCommand_of_encode rfl rfl, fun s => ⟨fun h => ?_, fun h => ?_⟩⟩
  · exact ⟨_, exec_clear_of_not_busy h, rfl, State.irq_of_not_ended nofun nofun⟩
  · exact exec_command_of_busy rfl nofun h

/-- Settles O13: the three commands are those that BUSY rejects. -/
theorem busyRejectsCommands : Obligations.BusyRejectsCommands := by
  unfold Obligations.BusyRejectsCommands
  intro s i h hi
  rcases hi with rfl | rfl | rfl
  · exact exec_command_of_busy rfl nofun h
  · exact exec_command_of_busy rfl nofun h
  · exact exec_command_of_busy rfl nofun h

/-! ### Host writes outside CMD -/

/-- A host write outside CMD does not reach the command decoder (20_memory.md R72, R73). -/
theorem hostWrite_of_not_cmd {addr : RegAddr} (v : Word) (s : State) (h : 4 ≤ addr.toNat) :
    hostWrite addr v s = .next (writeRegister addr v s) := by
  have hcmd : regionOf addr ≠ .cmd := mt regionOf_cmd.1 (by omega)
  have hnone : commandWord addr v = none := by
    unfold commandWord
    split
    · next hr => exact absurd hr hcmd
    · rfl
  simp only [hostWrite, hnone]

/-- A write to IRQ_EN gives EN bit 0 of the word (46_control.md R232). -/
theorem writeRegister_irqEn {addr : RegAddr} (v : Word) (s : State) (hlo : 8 ≤ addr.toNat) (hhi : addr.toNat < 12) :
    writeRegister addr v s = { s with regs := { s.regs with irqEn := v.getLsbD 0 } } := by
  simp only [writeRegister, regionOf_irqEn.2 ⟨hlo, hhi⟩]

/-- A write outside IRQ_EN that does not reach the command decoder is ignored (20_memory.md R73). -/
theorem writeRegister_of_not_irqEn {addr : RegAddr} (v : Word) (s : State) (h : ¬ (8 ≤ addr.toNat ∧ addr.toNat < 12)) :
    writeRegister addr v s = s := by
  unfold writeRegister
  split
  · next hr => exact absurd (regionOf_irqEn.1 hr) h
  · rfl

/-- Settles O30: the write is the next event, it does not reach CMD, and only IRQ_EN takes it. -/
theorem hostWritesReachOnlyCmdAndIrqEn : Obligations.HostWritesReachOnlyCmdAndIrqEn := by
  unfold Obligations.HostWritesReachOnlyCmdAndIrqEn
  intro s addr v rest hagenda
  have hstep : 4 ≤ addr.toNat → step s = .next (writeRegister addr v (s.withAgenda rest)) := fun h4 =>
    (step_cons hagenda nofun).trans (hostWrite_of_not_cmd v _ h4)
  refine ⟨fun ⟨hlo, hhi⟩ => ?_, fun h => ?_⟩
  · rw [hstep (by omega), writeRegister_irqEn v _ hlo hhi]
    rfl
  · rw [hstep (by omega), writeRegister_of_not_irqEn v _ (by omega)]
    rfl

end Sys2Proof.Machine
end

section
/-!
The exception family's claims: the interrupt level, the error entry, and the OUT transactions and the end of a command around CLOSE
(60_exceptions.md R243 to R247).
-/

namespace Sys2Proof.Machine

/-! ### The interrupt and the error entry -/

/-- Settles O28: irq is that level by definition, in every state. -/
theorem irqIsALevelOfTheState : Obligations.IrqIsALevelOfTheState := by
  unfold Obligations.IrqIsALevelOfTheState
  intro s
  simp [State.irq]

/-- In ERROR the interrupt is EN (R247). -/
theorem State.irq_of_error {s : State} (h : s.regs.state = .error) : s.irq = s.regs.irqEn := by
  simp [State.irq, h]

/-- Settles O22: the event that was next is the error entry, which leaves EN. -/
theorem errorEntryKeepsPhaseAndCounters : Obligations.ErrorEntryKeepsPhaseAndCounters := by
  unfold Obligations.ErrorEntryKeepsPhaseAndCounters
  intro s e hb hp ht
  exact ⟨s.errorEntry e, engineEvent_internal hb hp ht, rfl, State.irq_of_error (s := s.errorEntry e) rfl⟩

/-! ### The steps that make an OUT transaction -/

/-- A host write writes CMD_ERR or EN and nothing else, or its command is accepted, with no OUT transaction (20_memory.md R72, R73;
46_control.md R226 to R232). -/
theorem hostWrite_flags_or_accepted {s t : State} {addr : RegAddr} {v : Word} (h : hostWrite addr v s = .next t) :
    (∃ c en, t = { s with regs := { s.regs with cmdErr := c, irqEn := en } }) ∨
    (s.regs.state ≠ .busy ∧ t.env.outTrace = s.env.outTrace) := by
  rcases hostWrite_cases h with ⟨-, rfl⟩ | ⟨-, -, rfl⟩ | ⟨-, -, rfl⟩ | ⟨-, -, -, rfl⟩ | ⟨-, -, hs, rfl⟩ | ⟨-, -, hs, rfl⟩ |
      ⟨-, -, hs, rfl⟩
  · unfold writeRegister
    split
    · exact .inl ⟨_, _, rfl⟩
    · exact .inl ⟨_, _, rfl⟩
  · exact .inl ⟨_, _, rfl⟩
  · exact .inl ⟨_, _, rfl⟩
  · exact .inl ⟨_, _, rfl⟩
  · exact .inr ⟨hs, rfl⟩
  · exact .inr ⟨hs, rfl⟩
  · exact .inr ⟨hs, rfl⟩

/-- A host write makes no OUT transaction. -/
theorem hostWrite_outTrace {s t : State} {addr : RegAddr} {v : Word} (h : hostWrite addr v s = .next t) :
    t.env.outTrace = s.env.outTrace := by
  rcases hostWrite_flags_or_accepted h with ⟨c, en, rfl⟩ | ⟨-, ht⟩
  · rfl
  · exact ht

/-- An engine event makes no OUT transaction, or is the acceptance of the one outstanding. -/
theorem engineEvent_outTrace (s : State) :
    (engineEvent s).env.outTrace = s.env.outTrace ∨
    (s.regs.state = .busy ∧ ∃ w, engineEvent s = outAccepted w s.spendCredit) := by
  rcases engineEvent_cases s with he | ⟨-, w, a, -, -, -, he⟩ | ⟨hb, w, -, -, he⟩ | ⟨-, e, -, -, he⟩
  · exact .inl (by rw [he])
  · exact .inl (by rw [he, (answered_sum w a (s.dropAnswers 1)).2.2]; rfl)
  · exact .inr ⟨hb, w, he⟩
  · exact .inl (by rw [he, (internal_sum e s).2.1])

/-- A step makes no OUT transaction, or is the acceptance of one while BUSY. -/
theorem step_outTrace {s t : State} (h : step s = .next t) :
    t.env.outTrace = s.env.outTrace ∨
    ∃ w u, u.regs.state = .busy ∧ u.env.outTrace = s.env.outTrace ∧ t = outAccepted w u := by
  rcases step_cases h with ⟨rest, -, rfl⟩ | ⟨addr, rest, -, rfl⟩ | ⟨addr, v, rest, -, hw⟩ | ⟨rest, -, rfl⟩ | ⟨-, rfl⟩ |
      ⟨-, i, n, hf, he⟩
  · exact .inl rfl
  · exact .inl rfl
  · exact .inl (hostWrite_outTrace (s := s.withAgenda rest) hw)
  · exact (engineEvent_outTrace (s.withAgenda rest)).imp_right fun ⟨hb, w, he⟩ => ⟨w, (s.withAgenda rest).spendCredit, hb, rfl, he⟩
  · exact (engineEvent_outTrace s).imp_right fun ⟨hb, w, he⟩ => ⟨w, s.spendCredit, hb, rfl, he⟩
  · obtain ⟨-, -, -, htrace⟩ := token_sum (fetch_port hf) he
    exact .inl htrace

/-- Of the OUT transactions only CLOSE is recorded as one. -/
theorem outTx_eq_close {w : OutWait} {s : State} (h : outTx w s = .close) : w = .close := by
  cases w with
  | close => rfl
  | _ => cases h

/-! ### The steps after the acceptance of CLOSE -/

/-- After the acceptance of CLOSE the engine's event is STATE <- DONE (44_encoder.md R196; 45_decoder.md R216). -/
theorem engineEvent_of_closing {s : State} (h : s.closing = true) : engineEvent s = finishEvent s := by
  obtain ⟨hb, hp, ht⟩ := closing_iff.1 h
  exact engineEvent_internal hb hp ht

/-- A wire token is taken with its READ outstanding, which after the acceptance of CLOSE none is. -/
theorem fetchToken_of_closing {s : State} (h : s.closing = true) : fetchToken s = none := by
  obtain ⟨-, hnone, -⟩ := closing_iff.1 h
  have hidle : ∀ w, ¬ s.awaits w = true := fun w ha => by
    obtain ⟨-, hp⟩ := awaits_iff.1 ha
    cases hnone.symm.trans hp
  refine Option.eq_none_iff_forall_ne_some.2 fun ⟨i, n⟩ hf => ?_
  rcases fetchToken_cases hf with ⟨-, -, ha⟩ | ⟨-, -, ha, -⟩ | ⟨-, -, -, ha, -⟩ <;> exact hidle _ ha

/-- After the acceptance of CLOSE a step is a host access that leaves STATE <- DONE next and makes no OUT transaction, or it is
STATE <- DONE (20_memory.md R94, R95; log 18). -/
theorem step_of_closing {s t : State} (h : step s = .next t) (hc : s.closing = true) :
    (t.closing = true ∧ t.env.outTrace = s.env.outTrace ∧ s.env.agenda ≠ [] ∧ ∀ rest, s.env.agenda ≠ .reset :: rest) ∨
    ∃ es, t = finishEvent (s.withAgenda es) := by
  rcases step_cases h with ⟨rest, ⟨-, hn⟩, -⟩ | ⟨addr, rest, ha, rfl⟩ | ⟨addr, v, rest, ha, hw⟩ | ⟨rest, -, rfl⟩ | ⟨-, rfl⟩ |
      ⟨-, i, n, hf, -⟩
  · exact absurd hc (by simp [hn])
  · exact .inl ⟨hc, rfl, by simp [ha]⟩
  · rcases hostWrite_flags_or_accepted hw with ⟨c, en, rfl⟩ | ⟨hs, -⟩
    · exact .inl ⟨hc, rfl, by simp [ha]⟩
    · exact absurd (closing_iff.1 hc).1 hs
  · exact .inr ⟨rest, engineEvent_of_closing (s := s.withAgenda rest) hc⟩
  · exact .inr ⟨s.env.agenda, engineEvent_of_closing hc⟩
  · cases (fetchToken_of_closing hc).symm.trans hf

/-- Settles O23: a step that makes an OUT transaction is its acceptance, which keeps BUSY and after CLOSE plans STATE <- DONE; from
there a host access or that event is all a step can be. -/
theorem noCloseOnError : Obligations.NoCloseOnError := by
  unfold Obligations.NoCloseOnError
  intro s t h
  refine ⟨fun herr => ?_, fun hclose => ?_, fun hc => ?_⟩
  · rcases step_outTrace h with htrace | ⟨w, u, hb, -, rfl⟩
    · exact htrace
    · have hbusy := (outAccepted_sum w u).2.1.trans hb
      cases hbusy.symm.trans herr
  · rcases step_outTrace h with htrace | ⟨w, u, hb, hu, rfl⟩
    · simp [htrace] at hclose
    · have htx : outTx w u = .close := by simpa [(outAccepted_sum w u).2.2, hu] using hclose
      obtain rfl := outTx_eq_close htx
      have hc : (outAccepted .close u).closing = true := closing_iff.2 ⟨hb, rfl, rfl⟩
      exact ⟨hb, rfl, rfl, by rw [engineEvent_of_closing hc]; rfl⟩
  · exact (step_of_closing h hc).imp_right fun ⟨es, ht⟩ => by rw [ht]; exact ⟨rfl, rfl⟩

end Sys2Proof.Machine
end

section
/-!
The reset family's claim: what an edge with `rst` = 1 does in any state (70_reset_and_hazards.md R270, R271, R283).
-/

namespace Sys2Proof.Machine

/-- After the acceptance of CLOSE the step before a reset is STATE <- DONE (44_encoder.md R196; 45_decoder.md R216; log 18). -/
theorem step_deferred_eq_finish {s : State} {rest : List Event} (h : s.env.agenda = .reset :: rest) (hc : s.closing = true) :
    step s = .next (finishEvent s) := by
  rw [step_deferred h hc, engineEvent_of_closing hc]

/-- After STATE <- DONE the reset is no longer deferred, and what it gives is what it would have given before: of the state it keeps
only the agents around the block (70_reset_and_hazards.md R270). -/
theorem step_finish_reset {s : State} {rest : List Event} (h : s.env.agenda = .reset :: rest) :
    step (finishEvent s) = .next (s.withAgenda rest).applyReset :=
  step_reset (s := finishEvent s) h rfl

/-- Settles O26: with or without STATE <- DONE before it the reset gives the same state, whose parts are those of `State.applyReset`. -/
theorem resetTakesTheBlockToIdle : Obligations.ResetTakesTheBlockToIdle := by
  unfold Obligations.ResetTakesTheBlockToIdle
  intro s rest h
  obtain ⟨u, hu, hstep⟩ : ∃ u, (if s.closing then step s = .next u ∧ u.regs = { s.regs with state := .done } ∧ u.env = s.env
      else u = s) ∧ step u = .next (s.withAgenda rest).applyReset := by
    cases hc : s.closing with
    | true => exact ⟨finishEvent s, ⟨step_deferred_eq_finish h hc, rfl, rfl⟩, step_finish_reset h⟩
    | false => exact ⟨s, rfl, step_reset h hc⟩
  exact ⟨u, _, hu, hstep, rfl, rfl, rfl, rfl, rfl, rfl, rfl, rfl, rfl⟩

end Sys2Proof.Machine
end
